-- ==== Sys2Proof/Word.lean ====
section
/-! DEFINITION. The word and byte types of the core (spec/00_scope.md R7). Register values, addresses,
memory words, the flag word and instruction words are all 32-bit unsigned values; arithmetic on them is
that of BitVec, modulo 2^32 (R8). -/

namespace Sys2Proof

/-- A 32-bit unsigned value (00_scope.md R7). -/
abbrev Word := BitVec 32

/-- The unit of addressing: one byte (20_memory.md R31). -/
abbrev Byte := BitVec 8

end Sys2Proof
end

