-- ==== Sys2Proof/Config.lean ====
section
/-! DEFINITION. The parameters of spec/00_scope.md R9, which the document leaves to the host, and the one
choice of them that `State.reset` uses. `State.initialize` (Machine/Reset.lean) takes the parameters as
arguments, so that a statement about reset holds for every choice. -/

namespace Sys2Proof

/-- A range of consecutive mapped words: `words` words from byte address `base` up. A sorted list of such
ranges is the predicate `Mapped` of 00_scope.md R9 as plain data. -/
structure Region where
  base  : Nat
  words : Nat
deriving DecidableEq, Repr

/-- The byte address one past the end of a range. -/
def Region.top (r : Region) : Nat := r.base + 4 * r.words

/-- The stack-buffer parameters of 00_scope.md R9: `STACK_BASE` and `STACK_WORDS`. -/
structure Params where
  stackBase  : Word
  stackWords : Nat
deriving DecidableEq, Repr

/-- `STACK_TOP`, "the address one past the end of the stack buffer" (00_scope.md R9, 10_state.md R24). -/
def Params.stackTop (p : Params) : Word := p.stackBase + BitVec.ofNat 32 (4 * p.stackWords)

/-- The address of word `k` of the stack buffer, word 0 the lowest (10_state.md R24). -/
def Params.stackWord (p : Params) (k : Nat) : Word := p.stackBase + BitVec.ofNat 32 (4 * k)

/-- The constraints of 00_scope.md R9 on the numbers of the stack buffer: a nonzero multiple of 4, at least one
word, and a top below 2^32. `Params.wf` (Machine/Reset.lean) adds the constraint on `Mapped`. -/
abbrev Params.inSpace (p : Params) : Prop :=
  p.stackBase ≠ 0 ∧ p.stackBase.toNat % 4 = 0 ∧ 1 ≤ p.stackWords ∧
    p.stackBase.toNat + 4 * p.stackWords ≤ 2 ^ 32 - 1

/-- DESIGN CHOICE (log 4): `STACK_BASE` and `STACK_WORDS` of `State.reset` are those of the conventions of
95_test_vectors.md. -/
def Config.params : Params := { stackBase := 0x0001F000#32, stackWords := 1024 }

/-- DESIGN CHOICE (log 3): `ENTRY` of `State.reset` is that of the conventions of 95_test_vectors.md. -/
def Config.entry : Word := 0x00001000#32

/-- DESIGN CHOICE (log 5): `ARG0` to `ARG3` of `State.reset` are those of the conventions of
95_test_vectors.md. -/
def Config.arg0 : Word := 0#32
def Config.arg1 : Word := 0#32
def Config.arg2 : Word := 0#32
def Config.arg3 : Word := 0#32

/-- DESIGN CHOICE (log 6): in `State.reset` every aligned word of the 32-bit space is mapped. -/
def Config.mapped : List Region := [{ base := 0, words := 2 ^ 30 }]

/-- What a byte of memory that is not listed reads as. Inside the stack buffer after reset that is the
spec's own value (10_state.md R28); elsewhere it is the parameter `M0` of 00_scope.md R9, which
`State.reset` takes to be all zero. DESIGN CHOICE (log 7), unsafe. -/
def Config.unlistedByte : Byte := 0#8

end Sys2Proof
end

