-- ==== Sys2Proof/Syntax.lean ====
section
/-! DEFINITION. The instructions: one constructor for each of the 65 ordered rows of spec/opcode_table.json
(spec/30_encoding.md R63). A constructor of an implemented row carries the fields of the row and no
don't-care bit (R57). A constructor of a row that the core refuses with the instruction word in the fault
record carries what the word is rebuilt from: the fields L and imm24 where the row has fields (every bit of
a branch is then known), and else the word itself, which the spec calls `iw`. -/

namespace Sys2Proof

/-- A register index: all sixteen values are legal in every register field (10_state.md R15). -/
abbrev Reg := Fin 16

/-- Registers 13, 14 and 15 (10_state.md R14). -/
def Reg.sp : Reg := 13
def Reg.lr : Reg := 14
def Reg.pc : Reg := 15

/-- The answer of the classifier (40_classifier.md R71). -/
inductive Family where
  | branchExchange
  | conditionalBranch
  | dataProcessing
  | singleDataTransfer
  | unrecognised
deriving DecidableEq, Repr

/-- One constructor for each row of spec/opcode_table.json, in the table's order. -/
inductive Instr where
  /-- BX Rm (41_branch_exchange.md R80). -/
  | bx (rm : Reg)
  /-- B<cc> and BL<cc> (43_conditional_branch.md R118, R119). -/
  | beq (imm24 : BitVec 24)
  | bleq (imm24 : BitVec 24)
  | bne (imm24 : BitVec 24)
  | blne (imm24 : BitVec 24)
  /-- Branches with an undefined condition code; `link` is the bit L (R116). -/
  | condUndef0010 (link : Bool) (imm24 : BitVec 24)
  | condUndef0011 (link : Bool) (imm24 : BitVec 24)
  | condUndef0100 (link : Bool) (imm24 : BitVec 24)
  | condUndef0101 (link : Bool) (imm24 : BitVec 24)
  | condUndef0110 (link : Bool) (imm24 : BitVec 24)
  | condUndef0111 (link : Bool) (imm24 : BitVec 24)
  | condUndef1000 (link : Bool) (imm24 : BitVec 24)
  | condUndef1001 (link : Bool) (imm24 : BitVec 24)
  | bge (imm24 : BitVec 24)
  | blge (imm24 : BitVec 24)
  | blt (imm24 : BitVec 24)
  | bllt (imm24 : BitVec 24)
  | bgt (imm24 : BitVec 24)
  | blgt (imm24 : BitVec 24)
  | ble (imm24 : BitVec 24)
  | blle (imm24 : BitVec 24)
  | b (imm24 : BitVec 24)
  | bl (imm24 : BitVec 24)
  | condUndef1111 (link : Bool) (imm24 : BitVec 24)
  /-- Data processing (42_data_processing.md): the four operations of R87 to R90, and the twelve
  unsupported opcodes of R99 with the instruction word. -/
  | dp0000Imm (iw : Word)
  | dp0000Reg (iw : Word)
  | dp0001Imm (iw : Word)
  | dp0001Reg (iw : Word)
  | subImm (rd rn : Reg) (imm8 : BitVec 8)
  | subReg (rd rn rm : Reg)
  | dp0011Imm (iw : Word)
  | dp0011Reg (iw : Word)
  | addImm (rd rn : Reg) (imm8 : BitVec 8)
  | addReg (rd rn rm : Reg)
  | dp0101Imm (iw : Word)
  | dp0101Reg (iw : Word)
  | dp0110Imm (iw : Word)
  | dp0110Reg (iw : Word)
  | dp0111Imm (iw : Word)
  | dp0111Reg (iw : Word)
  | dp1000Imm (iw : Word)
  | dp1000Reg (iw : Word)
  | dp1001Imm (iw : Word)
  | dp1001Reg (iw : Word)
  /-- CMP has no destination; `rd` is the field bits 15:12 of the PC-advance test (R89, R91). -/
  | cmpImm (rd rn : Reg) (imm8 : BitVec 8)
  | cmpReg (rd rn rm : Reg)
  | dp1011Imm (iw : Word)
  | dp1011Reg (iw : Word)
  | dp1100Imm (iw : Word)
  | dp1100Reg (iw : Word)
  | movImm (rd : Reg) (imm8 : BitVec 8)
  | movReg (rd rm : Reg)
  | dp1110Imm (iw : Word)
  | dp1110Reg (iw : Word)
  | dp1111Imm (iw : Word)
  | dp1111Reg (iw : Word)
  /-- Single data transfer (44_single_data_transfer.md R128, R129, R133). -/
  | ldrImm (rd rn : Reg) (imm8 : BitVec 8)
  | ldrReg (rd rn rm : Reg) (shamt : BitVec 5)
  | strImm (rd rn : Reg) (imm8 : BitVec 8)
  | strReg (rd rn rm : Reg) (shamt : BitVec 5)
  | sdtPostIndexed (iw : Word)
  | sdtDownward (iw : Word)
  | sdtByte (iw : Word)
  /-- Words of no family (60_exceptions.md R156). -/
  | unrecognised100 (iw : Word)
  | unrecognised11 (iw : Word)
deriving DecidableEq, Repr

end Sys2Proof
end

