-- ==== Sys2Proof/Machine/State.lean ====
section
/-! DEFINITION. The state of the core and its memory, whole: (`x[0..15]`, `flags`, `state`, fault record, `M`)
(spec/10_state.md R27). Plain data. A fault of the core is a state of this machine, not an outcome that stops
it: 60_exceptions.md R161 describes its entry, and 45_sequencer.md R149 what a Step does after it (log 1). -/

namespace Sys2Proof.Machine

/-- The run state (10_state.md R23). -/
inductive RunState where
  | running
  | halted
  | faulted
deriving DecidableEq, Repr

/-- The four faults (60_exceptions.md R156 to R159). -/
inductive FaultKind where
  /-- A word that matches none of the four classifier predicates (R156); raised after classification. -/
  | unrecognizedInstruction
  /-- An access to a misaligned or unmapped word, by fetch, LDR or STR (R157). -/
  | invalidMemoryAccess
  /-- A branch with one of the nine undefined condition codes (R158). -/
  | undefinedCondition
  /-- An unsupported data-processing opcode or load/store mode (R159). -/
  | unsupportedEncoding
deriving DecidableEq, Repr

/-- Memory: the partial map `M` of 10_state.md R29. `mapped` is its domain (the predicate `Mapped` of
00_scope.md R9, as sorted ranges), `cells` its bytes, listed where they differ from `Config.unlistedByte`. -/
structure Memory where
  mapped : List Region
  cells  : List Host.Cell
deriving DecidableEq, Repr

/-- The whole state (10_state.md R27). -/
structure State where
  /-- `x[0]` to `x[15]`; `x[15]` is the program counter and has no other storage (10_state.md R13, R18). -/
  regs : Vector Word 16
  /-- The condition-code word: Z, N, C, V in bits 3, 2, 1, 0 (10_state.md R20). -/
  flags : Word
  /-- `state` (10_state.md R23). -/
  runState : RunState
  /-- `fault_code`; `none` is the code 0, no fault (10_state.md R25, 60_exceptions.md R160). -/
  faultCode : Option FaultKind
  /-- `fault_pc` (10_state.md R25). -/
  faultPc : Word
  /-- `fault_info` (10_state.md R25). -/
  faultInfo : Word
  /-- `M` (10_state.md R29). -/
  mem : Memory
deriving DecidableEq, Repr

/-- Reasons for which this machine stops outside the states of the spec: none. The four faults of the spec
are next states whose run state is `faulted` (60_exceptions.md R161), and no behaviour of a step is left open
(93_implementation_defined.md, Part 1), so nothing raises a reason of this type. -/
inductive Fault where
deriving DecidableEq, Repr

/-- Reasons for which the model has no meaning. -/
inductive Refusal where
  /-- An instruction the model gives no meaning yet. Raised by an arm of `exec` that names its instruction;
  safe, since the run ends there. No arm raises it. -/
  | notModelled (mnemonic : String)
deriving DecidableEq, Repr

/-- The memory of `State.reset`: the parameters `Mapped` and `M0` of `Config`, and a stack buffer of zeros
(10_state.md R28), which is nothing listed. -/
def Memory.reset : Memory := { mapped := Config.mapped, cells := [] }

/-- The state after Initialize(ENTRY, ARG0, ARG1, ARG2, ARG3) (10_state.md R28; 70_reset_and_hazards.md R180)
with the parameters of `Config`. -/
def State.reset : State where
  regs := #v[Config.arg0, Config.arg1, Config.arg2, Config.arg3,
    0#32, 0#32, 0#32, 0#32, 0#32, 0#32, 0#32, 0#32, 0#32,
    Config.params.stackTop, 0#32, Config.entry]
  flags := 0#32
  runState := if Config.entry = 0#32 then .halted else .running
  faultCode := none
  faultPc := 0#32
  faultInfo := 0#32
  mem := Memory.reset

end Sys2Proof.Machine
end

