-- ==== Sys2Proof/Machine/Flags.lean ====
section
/-! DEFINITION. The flag word, the flag generator of CMP (spec/42_data_processing.md R93 to R97) and the condition
evaluator of branches (spec/43_conditional_branch.md R108 to R116). -/

namespace Sys2Proof.Machine

/-- The four bits of a flag word (10_state.md R20). -/
def flagZ (f : Word) : Bool := f.getLsbD 3
def flagN (f : Word) : Bool := f.getLsbD 2
def flagC (f : Word) : Bool := f.getLsbD 1
def flagV (f : Word) : Bool := f.getLsbD 0

/-- `zext_4(Z : N : C : V)`: bits 31:4 are 0 (42_data_processing.md R93, 10_state.md R22). -/
def packFlags (z n c v : Bool) : Word :=
  0#28 ++ (BitVec.ofBool z ++ (BitVec.ofBool n ++ (BitVec.ofBool c ++ BitVec.ofBool v)))

/-- Zero: `result = 0` (R94). -/
def zeroFlag (result : Word) : Bool := result == 0#32

/-- Negative: bit 31 of the result (R95). -/
def negativeFlag (result : Word) : Bool := result.msb

/-- Carry is the borrow: `op2 >u op1` (R96). -/
def carryFlag (op1 op2 : Word) : Bool := decide (op1.toNat < op2.toNat)

/-- oVerflow: the signs of the operands differ and the result has the sign of `op2` (R97). -/
def overflowFlag (op1 op2 result : Word) : Bool := (op1.msb != op2.msb) && (result.msb == op2.msb)

/-- `FlagGen(op1, op2)` (R93). -/
def flagGen (op1 op2 : Word) : Word :=
  let result := op1 - op2
  packFlags (zeroFlag result) (negativeFlag result) (carryFlag op1 op2) (overflowFlag op1 op2 result)

/-- `CondHolds(cond, flags)`: whether the condition holds, and `none` for the nine undefined codes. The code
numbers are those of 30_encoding.md R61, the conditions those of 43_conditional_branch.md R109 to R116. -/
def condHolds (cond : BitVec 4) (f : Word) : Option Bool :=
  match cond with
  | 0b0000#4 => some (flagZ f)
  | 0b0001#4 => some (!flagZ f)
  | 0b1010#4 => some (flagN f == flagV f)
  | 0b1011#4 => some (flagN f != flagV f)
  | 0b1100#4 => some (!flagZ f && (flagN f == flagV f))
  | 0b1101#4 => some (flagZ f || (flagN f != flagV f))
  | 0b1110#4 => some true
  | _ => none

end Sys2Proof.Machine
end

