-- ==== Sys2Proof/WellFormed.lean ====
section
/-! DEFINITION. The rows of spec/opcode_table.json as masks and patterns, and the check that a term of `Instr`
is an instruction: where a constructor carries its word, the word is one that the constructor's row is the
first to match (spec/INDEX.md, "Reading opcode_table.json"; 30_encoding.md R63). Every operand of the other
constructors is legal at every value of its type (10_state.md R15), so they need no check. -/

namespace Sys2Proof

/-- A row of the opcode table: it matches a word `w` when `w & mask = value`. -/
structure Row where
  mask  : Word
  value : Word
deriving DecidableEq, Repr

/-- `word & mask = match` (INDEX.md). -/
def Row.fits (r : Row) (w : Word) : Bool := (w &&& r.mask) == r.value

/-- Format BX (30_encoding.md R53). -/
def bxRows : List Row := [
  ⟨0x0FFFFFF0#32, 0x012FFF10#32⟩]  -- BX

/-- Format B (30_encoding.md R54, R61). -/
def branchRows : List Row := [
  ⟨0xFF000000#32, 0x0A000000#32⟩,  -- BEQ
  ⟨0xFF000000#32, 0x0B000000#32⟩,  -- BLEQ
  ⟨0xFF000000#32, 0x1A000000#32⟩,  -- BNE
  ⟨0xFF000000#32, 0x1B000000#32⟩,  -- BLNE
  ⟨0xFE000000#32, 0x2A000000#32⟩,  -- B_BL_cond_0010
  ⟨0xFE000000#32, 0x3A000000#32⟩,  -- B_BL_cond_0011
  ⟨0xFE000000#32, 0x4A000000#32⟩,  -- B_BL_cond_0100
  ⟨0xFE000000#32, 0x5A000000#32⟩,  -- B_BL_cond_0101
  ⟨0xFE000000#32, 0x6A000000#32⟩,  -- B_BL_cond_0110
  ⟨0xFE000000#32, 0x7A000000#32⟩,  -- B_BL_cond_0111
  ⟨0xFE000000#32, 0x8A000000#32⟩,  -- B_BL_cond_1000
  ⟨0xFE000000#32, 0x9A000000#32⟩,  -- B_BL_cond_1001
  ⟨0xFF000000#32, 0xAA000000#32⟩,  -- BGE
  ⟨0xFF000000#32, 0xAB000000#32⟩,  -- BLGE
  ⟨0xFF000000#32, 0xBA000000#32⟩,  -- BLT
  ⟨0xFF000000#32, 0xBB000000#32⟩,  -- BLLT
  ⟨0xFF000000#32, 0xCA000000#32⟩,  -- BGT
  ⟨0xFF000000#32, 0xCB000000#32⟩,  -- BLGT
  ⟨0xFF000000#32, 0xDA000000#32⟩,  -- BLE
  ⟨0xFF000000#32, 0xDB000000#32⟩,  -- BLLE
  ⟨0xFF000000#32, 0xEA000000#32⟩,  -- B
  ⟨0xFF000000#32, 0xEB000000#32⟩,  -- BL
  ⟨0xFE000000#32, 0xFA000000#32⟩]  -- B_BL_cond_1111

/-- Format DP (30_encoding.md R55, R62). -/
def dpRows : List Row := [
  ⟨0x0FE00000#32, 0x02000000#32⟩,  -- DP_opcode_0000__immediate
  ⟨0x0FE00000#32, 0x00000000#32⟩,  -- DP_opcode_0000__register
  ⟨0x0FE00000#32, 0x02200000#32⟩,  -- DP_opcode_0001__immediate
  ⟨0x0FE00000#32, 0x00200000#32⟩,  -- DP_opcode_0001__register
  ⟨0x0FE00000#32, 0x02400000#32⟩,  -- SUB__immediate
  ⟨0x0FE00000#32, 0x00400000#32⟩,  -- SUB__register
  ⟨0x0FE00000#32, 0x02600000#32⟩,  -- DP_opcode_0011__immediate
  ⟨0x0FE00000#32, 0x00600000#32⟩,  -- DP_opcode_0011__register
  ⟨0x0FE00000#32, 0x02800000#32⟩,  -- ADD__immediate
  ⟨0x0FE00000#32, 0x00800000#32⟩,  -- ADD__register
  ⟨0x0FE00000#32, 0x02A00000#32⟩,  -- DP_opcode_0101__immediate
  ⟨0x0FE00000#32, 0x00A00000#32⟩,  -- DP_opcode_0101__register
  ⟨0x0FE00000#32, 0x02C00000#32⟩,  -- DP_opcode_0110__immediate
  ⟨0x0FE00000#32, 0x00C00000#32⟩,  -- DP_opcode_0110__register
  ⟨0x0FE00000#32, 0x02E00000#32⟩,  -- DP_opcode_0111__immediate
  ⟨0x0FE00000#32, 0x00E00000#32⟩,  -- DP_opcode_0111__register
  ⟨0x0FE00000#32, 0x03000000#32⟩,  -- DP_opcode_1000__immediate
  ⟨0x0FE00000#32, 0x01000000#32⟩,  -- DP_opcode_1000__register
  ⟨0x0FE00000#32, 0x03200000#32⟩,  -- DP_opcode_1001__immediate
  ⟨0x0FE00000#32, 0x01200000#32⟩,  -- DP_opcode_1001__register
  ⟨0x0FE00000#32, 0x03400000#32⟩,  -- CMP__immediate
  ⟨0x0FE00000#32, 0x01400000#32⟩,  -- CMP__register
  ⟨0x0FE00000#32, 0x03600000#32⟩,  -- DP_opcode_1011__immediate
  ⟨0x0FE00000#32, 0x01600000#32⟩,  -- DP_opcode_1011__register
  ⟨0x0FE00000#32, 0x03800000#32⟩,  -- DP_opcode_1100__immediate
  ⟨0x0FE00000#32, 0x01800000#32⟩,  -- DP_opcode_1100__register
  ⟨0x0FE00000#32, 0x03A00000#32⟩,  -- MOV__immediate
  ⟨0x0FE00000#32, 0x01A00000#32⟩,  -- MOV__register
  ⟨0x0FE00000#32, 0x03C00000#32⟩,  -- DP_opcode_1110__immediate
  ⟨0x0FE00000#32, 0x01C00000#32⟩,  -- DP_opcode_1110__register
  ⟨0x0FE00000#32, 0x03E00000#32⟩,  -- DP_opcode_1111__immediate
  ⟨0x0FE00000#32, 0x01E00000#32⟩]  -- DP_opcode_1111__register

/-- Format SDT (30_encoding.md R56, R66). -/
def sdtRows : List Row := [
  ⟨0x0FD00000#32, 0x05900000#32⟩,  -- LDR__immediate_offset
  ⟨0x0FD00000#32, 0x07900000#32⟩,  -- LDR__register_offset
  ⟨0x0FD00000#32, 0x05800000#32⟩,  -- STR__immediate_offset
  ⟨0x0FD00000#32, 0x07800000#32⟩,  -- STR__register_offset
  ⟨0x0D000000#32, 0x04000000#32⟩,  -- SDT_with_P___0__post-indexed
  ⟨0x0C800000#32, 0x04000000#32⟩,  -- SDT_with_U___0__downward
  ⟨0x0C400000#32, 0x04400000#32⟩]  -- SDT_with_B___1__byte

/-- Words of no family (30_encoding.md R64). -/
def unrecognisedRows : List Row := [
  ⟨0x0E000000#32, 0x08000000#32⟩,  -- unrecognised__bits_27_25___100
  ⟨0x0C000000#32, 0x0C000000#32⟩]  -- unrecognised__bits_27_26___11

/-- The ordered table: the first row that matches a word gives its meaning (30_encoding.md R63). -/
def opcodeTable : List Row := bxRows ++ branchRows ++ dpRows ++ sdtRows ++ unrecognisedRows

/-- The row of a branch with condition code `cond` and link flag `link` (30_encoding.md R54). -/
def Row.branch (cond : BitVec 4) (link : Bool) : Row :=
  ⟨0xFF000000#32, cond ++ (0b101#3 ++ (BitVec.ofBool link ++ 0#24))⟩

/-- The row of both branches with an undefined condition code `cond` (30_encoding.md R67). -/
def Row.undefinedCondition (cond : BitVec 4) : Row :=
  ⟨0xFE000000#32, cond ++ (0b101#3 ++ 0#25)⟩

/-- The row of a data-processing opcode in its immediate or register form (30_encoding.md R55, R62). -/
def Row.dataProcessing (immediate : Bool) (opcode : BitVec 4) : Row :=
  ⟨0x0FE00000#32, 0b000000#6 ++ (BitVec.ofBool immediate ++ (opcode ++ 0#21))⟩

/-- The row of the one implemented load/store mode, P = 1, U = 1, B = 0 (30_encoding.md R56). -/
def Row.transfer (register load : Bool) : Row :=
  ⟨0x0FD00000#32, 0b000001#6 ++ (BitVec.ofBool register ++ (0b110#3 ++ (0#1 ++ (BitVec.ofBool load ++ 0#20))))⟩

/-- The BX row (30_encoding.md R53). -/
def Row.bx : Row := ⟨0x0FFFFFF0#32, 0x012FFF10#32⟩

/-- The three overlapping rows of refused load/store modes (30_encoding.md R66). -/
def Row.postIndexed : Row := ⟨0x0D000000#32, 0x04000000#32⟩
def Row.downward : Row := ⟨0x0C800000#32, 0x04000000#32⟩
def Row.byte : Row := ⟨0x0C400000#32, 0x04400000#32⟩

/-- The two rows of unrecognised words (30_encoding.md R64). -/
def Row.unrecognised100 : Row := ⟨0x0E000000#32, 0x08000000#32⟩
def Row.unrecognised11 : Row := ⟨0x0C000000#32, 0x0C000000#32⟩

/-- The row of the opcode table that a constructor stands for. -/
def Instr.row : Instr → Row
  | .bx _ => Row.bx
  | .beq _ => Row.branch 0b0000#4 false
  | .bleq _ => Row.branch 0b0000#4 true
  | .bne _ => Row.branch 0b0001#4 false
  | .blne _ => Row.branch 0b0001#4 true
  | .condUndef0010 _ _ => Row.undefinedCondition 0b0010#4
  | .condUndef0011 _ _ => Row.undefinedCondition 0b0011#4
  | .condUndef0100 _ _ => Row.undefinedCondition 0b0100#4
  | .condUndef0101 _ _ => Row.undefinedCondition 0b0101#4
  | .condUndef0110 _ _ => Row.undefinedCondition 0b0110#4
  | .condUndef0111 _ _ => Row.undefinedCondition 0b0111#4
  | .condUndef1000 _ _ => Row.undefinedCondition 0b1000#4
  | .condUndef1001 _ _ => Row.undefinedCondition 0b1001#4
  | .bge _ => Row.branch 0b1010#4 false
  | .blge _ => Row.branch 0b1010#4 true
  | .blt _ => Row.branch 0b1011#4 false
  | .bllt _ => Row.branch 0b1011#4 true
  | .bgt _ => Row.branch 0b1100#4 false
  | .blgt _ => Row.branch 0b1100#4 true
  | .ble _ => Row.branch 0b1101#4 false
  | .blle _ => Row.branch 0b1101#4 true
  | .b _ => Row.branch 0b1110#4 false
  | .bl _ => Row.branch 0b1110#4 true
  | .condUndef1111 _ _ => Row.undefinedCondition 0b1111#4
  | .dp0000Imm _ => Row.dataProcessing true 0b0000#4
  | .dp0000Reg _ => Row.dataProcessing false 0b0000#4
  | .dp0001Imm _ => Row.dataProcessing true 0b0001#4
  | .dp0001Reg _ => Row.dataProcessing false 0b0001#4
  | .subImm _ _ _ => Row.dataProcessing true 0b0010#4
  | .subReg _ _ _ => Row.dataProcessing false 0b0010#4
  | .dp0011Imm _ => Row.dataProcessing true 0b0011#4
  | .dp0011Reg _ => Row.dataProcessing false 0b0011#4
  | .addImm _ _ _ => Row.dataProcessing true 0b0100#4
  | .addReg _ _ _ => Row.dataProcessing false 0b0100#4
  | .dp0101Imm _ => Row.dataProcessing true 0b0101#4
  | .dp0101Reg _ => Row.dataProcessing false 0b0101#4
  | .dp0110Imm _ => Row.dataProcessing true 0b0110#4
  | .dp0110Reg _ => Row.dataProcessing false 0b0110#4
  | .dp0111Imm _ => Row.dataProcessing true 0b0111#4
  | .dp0111Reg _ => Row.dataProcessing false 0b0111#4
  | .dp1000Imm _ => Row.dataProcessing true 0b1000#4
  | .dp1000Reg _ => Row.dataProcessing false 0b1000#4
  | .dp1001Imm _ => Row.dataProcessing true 0b1001#4
  | .dp1001Reg _ => Row.dataProcessing false 0b1001#4
  | .cmpImm _ _ _ => Row.dataProcessing true 0b1010#4
  | .cmpReg _ _ _ => Row.dataProcessing false 0b1010#4
  | .dp1011Imm _ => Row.dataProcessing true 0b1011#4
  | .dp1011Reg _ => Row.dataProcessing false 0b1011#4
  | .dp1100Imm _ => Row.dataProcessing true 0b1100#4
  | .dp1100Reg _ => Row.dataProcessing false 0b1100#4
  | .movImm _ _ => Row.dataProcessing true 0b1101#4
  | .movReg _ _ => Row.dataProcessing false 0b1101#4
  | .dp1110Imm _ => Row.dataProcessing true 0b1110#4
  | .dp1110Reg _ => Row.dataProcessing false 0b1110#4
  | .dp1111Imm _ => Row.dataProcessing true 0b1111#4
  | .dp1111Reg _ => Row.dataProcessing false 0b1111#4
  | .ldrImm _ _ _ => Row.transfer false true
  | .ldrReg _ _ _ _ => Row.transfer true true
  | .strImm _ _ _ => Row.transfer false false
  | .strReg _ _ _ _ => Row.transfer true false
  | .sdtPostIndexed _ => Row.postIndexed
  | .sdtDownward _ => Row.downward
  | .sdtByte _ => Row.byte
  | .unrecognised100 _ => Row.unrecognised100
  | .unrecognised11 _ => Row.unrecognised11

/-- The words of the data-processing opcode 1001, register form, that are BX (30_encoding.md R62). -/
def isBxWord (w : Word) : Bool := Row.bx.fits w

/-- Well-formedness of an instruction: a word carried by a constructor is one that the constructor's row is
the first to match (30_encoding.md R63). The order matters for opcode 1001 (BX comes before it) and for the
three overlapping rows of refused load/store modes. -/
def Instr.wellFormed : Instr → Bool
  | .bx _ => true
  | .beq _ => true
  | .bleq _ => true
  | .bne _ => true
  | .blne _ => true
  | .condUndef0010 _ _ => true
  | .condUndef0011 _ _ => true
  | .condUndef0100 _ _ => true
  | .condUndef0101 _ _ => true
  | .condUndef0110 _ _ => true
  | .condUndef0111 _ _ => true
  | .condUndef1000 _ _ => true
  | .condUndef1001 _ _ => true
  | .bge _ => true
  | .blge _ => true
  | .blt _ => true
  | .bllt _ => true
  | .bgt _ => true
  | .blgt _ => true
  | .ble _ => true
  | .blle _ => true
  | .b _ => true
  | .bl _ => true
  | .condUndef1111 _ _ => true
  | .dp0000Imm iw => (Row.dataProcessing true 0b0000#4).fits iw
  | .dp0000Reg iw => (Row.dataProcessing false 0b0000#4).fits iw
  | .dp0001Imm iw => (Row.dataProcessing true 0b0001#4).fits iw
  | .dp0001Reg iw => (Row.dataProcessing false 0b0001#4).fits iw
  | .subImm _ _ _ => true
  | .subReg _ _ _ => true
  | .dp0011Imm iw => (Row.dataProcessing true 0b0011#4).fits iw
  | .dp0011Reg iw => (Row.dataProcessing false 0b0011#4).fits iw
  | .addImm _ _ _ => true
  | .addReg _ _ _ => true
  | .dp0101Imm iw => (Row.dataProcessing true 0b0101#4).fits iw
  | .dp0101Reg iw => (Row.dataProcessing false 0b0101#4).fits iw
  | .dp0110Imm iw => (Row.dataProcessing true 0b0110#4).fits iw
  | .dp0110Reg iw => (Row.dataProcessing false 0b0110#4).fits iw
  | .dp0111Imm iw => (Row.dataProcessing true 0b0111#4).fits iw
  | .dp0111Reg iw => (Row.dataProcessing false 0b0111#4).fits iw
  | .dp1000Imm iw => (Row.dataProcessing true 0b1000#4).fits iw
  | .dp1000Reg iw => (Row.dataProcessing false 0b1000#4).fits iw
  | .dp1001Imm iw => (Row.dataProcessing true 0b1001#4).fits iw
  | .dp1001Reg iw => (Row.dataProcessing false 0b1001#4).fits iw && !isBxWord iw
  | .cmpImm _ _ _ => true
  | .cmpReg _ _ _ => true
  | .dp1011Imm iw => (Row.dataProcessing true 0b1011#4).fits iw
  | .dp1011Reg iw => (Row.dataProcessing false 0b1011#4).fits iw
  | .dp1100Imm iw => (Row.dataProcessing true 0b1100#4).fits iw
  | .dp1100Reg iw => (Row.dataProcessing false 0b1100#4).fits iw
  | .movImm _ _ => true
  | .movReg _ _ => true
  | .dp1110Imm iw => (Row.dataProcessing true 0b1110#4).fits iw
  | .dp1110Reg iw => (Row.dataProcessing false 0b1110#4).fits iw
  | .dp1111Imm iw => (Row.dataProcessing true 0b1111#4).fits iw
  | .dp1111Reg iw => (Row.dataProcessing false 0b1111#4).fits iw
  | .ldrImm _ _ _ => true
  | .ldrReg _ _ _ _ => true
  | .strImm _ _ _ => true
  | .strReg _ _ _ _ => true
  | .sdtPostIndexed iw => Row.postIndexed.fits iw
  | .sdtDownward iw => Row.downward.fits iw && !Row.postIndexed.fits iw
  | .sdtByte iw => Row.byte.fits iw && !Row.postIndexed.fits iw && !Row.downward.fits iw
  | .unrecognised100 iw => Row.unrecognised100.fits iw
  | .unrecognised11 iw => Row.unrecognised11.fits iw

end Sys2Proof
end

