-- ==== Sys2Proof/Decode.lean ====
section
/-! DEFINITION. The decoder (spec/40_classifier.md, spec/30_encoding.md) from words and from bytes, total on
both, and after it the encoder, written from the same formats. Field positions are those of 30_encoding.md
R53 to R56; an executing instruction's don't-care bits (R57) are dropped by the decoder, and the encoder sets
them as R69 says an assembler does (log 11). -/

namespace Sys2Proof

/-! ### Fields of a word -/

/-- The register index in bits `lo + 3 : lo`. -/
def regField (w : Word) (lo : Nat) : Reg := (w.extractLsb' lo 4).toFin

/-- `Rn`, bits 19:16 (30_encoding.md R55, R56). -/
def rnField (w : Word) : Reg := regField w 16

/-- `Rd`, bits 15:12. -/
def rdField (w : Word) : Reg := regField w 12

/-- `Rm`, bits 3:0. -/
def rmField (w : Word) : Reg := regField w 0

/-- `imm8`, bits 7:0. -/
def imm8Field (w : Word) : BitVec 8 := w.extractLsb' 0 8

/-- `imm24`, bits 23:0 (R54). -/
def imm24Field (w : Word) : BitVec 24 := w.extractLsb' 0 24

/-- `shamt`, bits 11:7 (R56). -/
def shamtField (w : Word) : BitVec 5 := w.extractLsb' 7 5

/-- `cond`, bits 31:28 (R54). -/
def condField (w : Word) : BitVec 4 := w.extractLsb' 28 4

/-- The data-processing `opcode`, bits 24:21 (R55). -/
def opcodeField (w : Word) : BitVec 4 := w.extractLsb' 21 4

/-- Bit 25: the immediate form of data processing (R55), the register offset of a transfer (R56). -/
def bit25 (w : Word) : Bool := w.getLsbD 25

/-- Bit 24 of a branch: the link flag L (R54). -/
def linkField (w : Word) : Bool := w.getLsbD 24

/-- Bit 20 of a transfer: the load/store flag L (R56). -/
def loadField (w : Word) : Bool := w.getLsbD 20

/-! ### The classifier (40_classifier.md) -/

/-- The four predicates of R72. -/
def isBX (w : Word) : Bool := w.extractLsb' 4 24 == 0x12FFF1#24
def isB (w : Word) : Bool := w.extractLsb' 25 3 == 0b101#3
def isDP (w : Word) : Bool := w.extractLsb' 26 2 == 0b00#2
def isSDT (w : Word) : Bool := w.extractLsb' 26 2 == 0b01#2

/-- The ordered tests of R73; total (R71). -/
def classify (w : Word) : Family :=
  if isBX w then .branchExchange
  else if isB w then .conditionalBranch
  else if isDP w then .dataProcessing
  else if isSDT w then .singleDataTransfer
  else .unrecognised

/-! ### The decoder, one function per family (40_classifier.md R77, R78) -/

/-- A conditional branch by its condition code and link flag (30_encoding.md R61). -/
def decodeBranch (w : Word) : Instr :=
  match condField w, linkField w with
  | 0b0000#4, false => .beq (imm24Field w)
  | 0b0000#4, true => .bleq (imm24Field w)
  | 0b0001#4, false => .bne (imm24Field w)
  | 0b0001#4, true => .blne (imm24Field w)
  | 0b0010#4, link => .condUndef0010 link (imm24Field w)
  | 0b0011#4, link => .condUndef0011 link (imm24Field w)
  | 0b0100#4, link => .condUndef0100 link (imm24Field w)
  | 0b0101#4, link => .condUndef0101 link (imm24Field w)
  | 0b0110#4, link => .condUndef0110 link (imm24Field w)
  | 0b0111#4, link => .condUndef0111 link (imm24Field w)
  | 0b1000#4, link => .condUndef1000 link (imm24Field w)
  | 0b1001#4, link => .condUndef1001 link (imm24Field w)
  | 0b1010#4, false => .bge (imm24Field w)
  | 0b1010#4, true => .blge (imm24Field w)
  | 0b1011#4, false => .blt (imm24Field w)
  | 0b1011#4, true => .bllt (imm24Field w)
  | 0b1100#4, false => .bgt (imm24Field w)
  | 0b1100#4, true => .blgt (imm24Field w)
  | 0b1101#4, false => .ble (imm24Field w)
  | 0b1101#4, true => .blle (imm24Field w)
  | 0b1110#4, false => .b (imm24Field w)
  | 0b1110#4, true => .bl (imm24Field w)
  | _, link => .condUndef1111 link (imm24Field w)

/-- Data processing by opcode and form (30_encoding.md R62). -/
def decodeDataProcessing (w : Word) : Instr :=
  match opcodeField w, bit25 w with
  | 0b0000#4, true => .dp0000Imm w
  | 0b0000#4, false => .dp0000Reg w
  | 0b0001#4, true => .dp0001Imm w
  | 0b0001#4, false => .dp0001Reg w
  | 0b0010#4, true => .subImm (rdField w) (rnField w) (imm8Field w)
  | 0b0010#4, false => .subReg (rdField w) (rnField w) (rmField w)
  | 0b0011#4, true => .dp0011Imm w
  | 0b0011#4, false => .dp0011Reg w
  | 0b0100#4, true => .addImm (rdField w) (rnField w) (imm8Field w)
  | 0b0100#4, false => .addReg (rdField w) (rnField w) (rmField w)
  | 0b0101#4, true => .dp0101Imm w
  | 0b0101#4, false => .dp0101Reg w
  | 0b0110#4, true => .dp0110Imm w
  | 0b0110#4, false => .dp0110Reg w
  | 0b0111#4, true => .dp0111Imm w
  | 0b0111#4, false => .dp0111Reg w
  | 0b1000#4, true => .dp1000Imm w
  | 0b1000#4, false => .dp1000Reg w
  | 0b1001#4, true => .dp1001Imm w
  | 0b1001#4, false => .dp1001Reg w
  | 0b1010#4, true => .cmpImm (rdField w) (rnField w) (imm8Field w)
  | 0b1010#4, false => .cmpReg (rdField w) (rnField w) (rmField w)
  | 0b1011#4, true => .dp1011Imm w
  | 0b1011#4, false => .dp1011Reg w
  | 0b1100#4, true => .dp1100Imm w
  | 0b1100#4, false => .dp1100Reg w
  | 0b1101#4, true => .movImm (rdField w) (imm8Field w)
  | 0b1101#4, false => .movReg (rdField w) (rmField w)
  | 0b1110#4, true => .dp1110Imm w
  | 0b1110#4, false => .dp1110Reg w
  | _, true => .dp1111Imm w
  | _, false => .dp1111Reg w

/-- A single data transfer in the one implemented mode, P : U : B = 110 (44_single_data_transfer.md R128,
R129). -/
def decodeTransfer (w : Word) : Instr :=
  match bit25 w, loadField w with
  | false, true => .ldrImm (rdField w) (rnField w) (imm8Field w)
  | true, true => .ldrReg (rdField w) (rnField w) (rmField w) (shamtField w)
  | false, false => .strImm (rdField w) (rnField w) (imm8Field w)
  | true, false => .strReg (rdField w) (rnField w) (rmField w) (shamtField w)

/-- Single data transfer: the refused modes in the order of the table's rows, then the implemented one
(44_single_data_transfer.md R133). -/
def decodeSingleDataTransfer (w : Word) : Instr :=
  match w.getLsbD 24, w.getLsbD 23, w.getLsbD 22 with
  | false, _, _ => .sdtPostIndexed w
  | true, false, _ => .sdtDownward w
  | true, true, true => .sdtByte w
  | true, true, false => decodeTransfer w

/-- A word of no family, by its bit 26: bits 27:25 are 100, or bits 27:26 are 11 (60_exceptions.md R156). -/
def decodeUnrecognised (w : Word) : Instr :=
  if w.getLsbD 26 then .unrecognised11 w else .unrecognised100 w

/-- The instruction a word stands for; total, since every 32-bit word falls in exactly one row
(30_encoding.md section 5). -/
def decodeWord (w : Word) : Instr :=
  match classify w with
  | .branchExchange => .bx (rmField w)
  | .conditionalBranch => decodeBranch w
  | .dataProcessing => decodeDataProcessing w
  | .singleDataTransfer => decodeSingleDataTransfer w
  | .unrecognised => decodeUnrecognised w

/-! ### Bytes -/

/-- The word of four bytes, the first at the lowest address: little-endian (20_memory.md R35). -/
def wordOfBytes (b0 b1 b2 b3 : Byte) : Word := b3 ++ (b2 ++ (b1 ++ b0))

/-- Byte `k` of a word: bits `8k + 7 : 8k` (R35). -/
def byteOfWord (w : Word) (k : Nat) : Byte := w.extractLsb' (8 * k) 8

/-- The four bytes of a word in memory order (R35). -/
def bytesOfWord (w : Word) : List Byte :=
  [byteOfWord w 0, byteOfWord w 1, byteOfWord w 2, byteOfWord w 3]

/-- The one way a list of bytes is refused: an instruction is one whole word (30_encoding.md R51). -/
inductive DecodeError where
  /-- Fewer than four bytes are left; `bytesLeft` says how many. -/
  | truncated (bytesLeft : Nat)
deriving DecidableEq, Repr

/-- The decoder on bytes: the instruction and the bytes after it. -/
def decode : List Byte → Except DecodeError (Instr × List Byte)
  | b0 :: b1 :: b2 :: b3 :: rest => .ok (decodeWord (wordOfBytes b0 b1 b2 b3), rest)
  | bytes => .error (.truncated bytes.length)

/-! ### The encoder -/

/-- The condition and don't-care bits an assembler writes in bits 31:28 (30_encoding.md R69). -/
def alwaysBits : BitVec 4 := 0b1110#4

/-- The four bits of a register index. -/
def regBits (r : Reg) : BitVec 4 := BitVec.ofFin r

/-- Format BX (30_encoding.md R53). -/
def bxWord (rm : Reg) : Word := alwaysBits ++ (0x12FFF1#24 ++ regBits rm)

/-- Format B (R54). -/
def branchWord (cond : BitVec 4) (link : Bool) (imm24 : BitVec 24) : Word :=
  cond ++ (0b101#3 ++ (BitVec.ofBool link ++ imm24))

/-- Format DP, immediate form (R55). `bit20` is a don't-care bit: 1 for CMP, else 0 (R69). -/
def dpImmWord (opcode : BitVec 4) (bit20 : Bool) (rn rd : Reg) (imm8 : BitVec 8) : Word :=
  alwaysBits ++ (0b00#2 ++ (1#1 ++ (opcode ++ (BitVec.ofBool bit20 ++
    (regBits rn ++ (regBits rd ++ (0#4 ++ imm8)))))))

/-- Format DP, register form (R55). -/
def dpRegWord (opcode : BitVec 4) (bit20 : Bool) (rn rd rm : Reg) : Word :=
  alwaysBits ++ (0b00#2 ++ (0#1 ++ (opcode ++ (BitVec.ofBool bit20 ++
    (regBits rn ++ (regBits rd ++ (0#8 ++ regBits rm)))))))

/-- Format SDT, immediate offset, with P : U : B = 110 (R56). -/
def sdtImmWord (load : Bool) (rn rd : Reg) (imm8 : BitVec 8) : Word :=
  alwaysBits ++ (0b01#2 ++ (0#1 ++ (0b110#3 ++ (0#1 ++ (BitVec.ofBool load ++
    (regBits rn ++ (regBits rd ++ (0#4 ++ imm8))))))))

/-- Format SDT, register offset, with P : U : B = 110 (R56). -/
def sdtRegWord (load : Bool) (rn rd rm : Reg) (shamt : BitVec 5) : Word :=
  alwaysBits ++ (0b01#2 ++ (1#1 ++ (0b110#3 ++ (0#1 ++ (BitVec.ofBool load ++
    (regBits rn ++ (regBits rd ++ (shamt ++ (0#3 ++ regBits rm)))))))))

/-- The word of an instruction. -/
def encodeWord : Instr → Word
  | .bx rm => bxWord rm
  | .beq imm24 => branchWord 0b0000#4 false imm24
  | .bleq imm24 => branchWord 0b0000#4 true imm24
  | .bne imm24 => branchWord 0b0001#4 false imm24
  | .blne imm24 => branchWord 0b0001#4 true imm24
  | .condUndef0010 link imm24 => branchWord 0b0010#4 link imm24
  | .condUndef0011 link imm24 => branchWord 0b0011#4 link imm24
  | .condUndef0100 link imm24 => branchWord 0b0100#4 link imm24
  | .condUndef0101 link imm24 => branchWord 0b0101#4 link imm24
  | .condUndef0110 link imm24 => branchWord 0b0110#4 link imm24
  | .condUndef0111 link imm24 => branchWord 0b0111#4 link imm24
  | .condUndef1000 link imm24 => branchWord 0b1000#4 link imm24
  | .condUndef1001 link imm24 => branchWord 0b1001#4 link imm24
  | .bge imm24 => branchWord 0b1010#4 false imm24
  | .blge imm24 => branchWord 0b1010#4 true imm24
  | .blt imm24 => branchWord 0b1011#4 false imm24
  | .bllt imm24 => branchWord 0b1011#4 true imm24
  | .bgt imm24 => branchWord 0b1100#4 false imm24
  | .blgt imm24 => branchWord 0b1100#4 true imm24
  | .ble imm24 => branchWord 0b1101#4 false imm24
  | .blle imm24 => branchWord 0b1101#4 true imm24
  | .b imm24 => branchWord 0b1110#4 false imm24
  | .bl imm24 => branchWord 0b1110#4 true imm24
  | .condUndef1111 link imm24 => branchWord 0b1111#4 link imm24
  | .dp0000Imm iw => iw
  | .dp0000Reg iw => iw
  | .dp0001Imm iw => iw
  | .dp0001Reg iw => iw
  | .subImm rd rn imm8 => dpImmWord 0b0010#4 false rn rd imm8
  | .subReg rd rn rm => dpRegWord 0b0010#4 false rn rd rm
  | .dp0011Imm iw => iw
  | .dp0011Reg iw => iw
  | .addImm rd rn imm8 => dpImmWord 0b0100#4 false rn rd imm8
  | .addReg rd rn rm => dpRegWord 0b0100#4 false rn rd rm
  | .dp0101Imm iw => iw
  | .dp0101Reg iw => iw
  | .dp0110Imm iw => iw
  | .dp0110Reg iw => iw
  | .dp0111Imm iw => iw
  | .dp0111Reg iw => iw
  | .dp1000Imm iw => iw
  | .dp1000Reg iw => iw
  | .dp1001Imm iw => iw
  | .dp1001Reg iw => iw
  | .cmpImm rd rn imm8 => dpImmWord 0b1010#4 true rn rd imm8
  | .cmpReg rd rn rm => dpRegWord 0b1010#4 true rn rd rm
  | .dp1011Imm iw => iw
  | .dp1011Reg iw => iw
  | .dp1100Imm iw => iw
  | .dp1100Reg iw => iw
  | .movImm rd imm8 => dpImmWord 0b1101#4 false 0 rd imm8
  | .movReg rd rm => dpRegWord 0b1101#4 false 0 rd rm
  | .dp1110Imm iw => iw
  | .dp1110Reg iw => iw
  | .dp1111Imm iw => iw
  | .dp1111Reg iw => iw
  | .ldrImm rd rn imm8 => sdtImmWord true rn rd imm8
  | .ldrReg rd rn rm shamt => sdtRegWord true rn rd rm shamt
  | .strImm rd rn imm8 => sdtImmWord false rn rd imm8
  | .strReg rd rn rm shamt => sdtRegWord false rn rd rm shamt
  | .sdtPostIndexed iw => iw
  | .sdtDownward iw => iw
  | .sdtByte iw => iw
  | .unrecognised100 iw => iw
  | .unrecognised11 iw => iw

/-- The bytes of an instruction, in memory order. -/
def encode (i : Instr) : List Byte := bytesOfWord (encodeWord i)

/-! ### The host's question -/

/-- The instruction the decoder reads from an opcode-table word of `nbits` bits; the bits above `nbits` are
0. Every row of the table has 32 bits, and no instruction is longer (30_encoding.md R51). -/
def decodeTableWord (nbits w : Nat) : Option Instr :=
  if nbits ≤ 32 then
    match decode (bytesOfWord (BitVec.ofNat 32 (w % 2 ^ nbits))) with
    | .ok (i, _) => some i
    | .error _ => none
  else none

end Sys2Proof
end

