-- ==== Sys2Proof/Machine/Ops.lean ====
section
/-! DEFINITION. The named operations over registers, memory, faults and the program counter, shared by all
instructions: spec/10_state.md, spec/20_memory.md, spec/60_exceptions.md R161, spec/45_sequencer.md. -/

namespace Sys2Proof.Machine

/-! ### Registers -/

/-- `x[r]`: what was last written, with no offset added for register 15 (10_state.md R15, R18). -/
def State.reg (s : State) (r : Reg) : Word := s.regs[r.val]

/-- `x[r] <- v`; no register is hardwired (10_state.md R15). -/
def State.setReg (s : State) (r : Reg) (v : Word) : State := { s with regs := s.regs.set r.val v }

/-- The program counter is register 15 (10_state.md R18). -/
def State.pc (s : State) : Word := s.reg Reg.pc

/-- `pc <- v`. -/
def State.setPc (s : State) (v : Word) : State := s.setReg Reg.pc v

/-- `pc <- pc + 4`, modulo 2^32 (10_state.md R19). -/
def State.advance (s : State) : State := s.setPc (s.pc + 4#32)

/-- The PC-advance rule: `if Rd != 15 then pc <- pc + 4`, by the field for every opcode, CMP and STR included
(42_data_processing.md R91, 44_single_data_transfer.md R130). -/
def State.advanceUnlessPc (s : State) (rd : Reg) : State := if rd = Reg.pc then s else s.advance

/-- `x[Rd] <- v`, then the PC-advance rule: how ADD, SUB, MOV and LDR end. With `Rd = 15` the value written is the
new program counter (42_data_processing.md R92, 44_single_data_transfer.md R131). -/
def State.writeResult (s : State) (rd : Reg) (v : Word) : State := (s.setReg rd v).advanceUnlessPc rd

/-- `flags <- f`. -/
def State.setFlags (s : State) (f : Word) : State := { s with flags := f }

/-! ### Memory cells -/

/-- The byte listed at an address, or what an unlisted one reads as. -/
def lookupCell : List Host.Cell → Nat → Byte
  | [], _ => Config.unlistedByte
  | (b, v) :: cells, a => if a = b then v else lookupCell cells a

/-- Writes one byte and keeps the canonical form: addresses strictly rising, and no entry equal to what an
unlisted address reads as. -/
def putCell : List Host.Cell → Nat → Byte → List Host.Cell
  | [], a, v => if v = Config.unlistedByte then [] else [(a, v)]
  | (b, w) :: cells, a, v =>
    if a < b then (if v = Config.unlistedByte then (b, w) :: cells else (a, v) :: (b, w) :: cells)
    else if a = b then (if v = Config.unlistedByte then cells else (a, v) :: cells)
    else (b, w) :: putCell cells a v

/-- The byte at an address. -/
def Memory.byteAt (m : Memory) (a : Nat) : Byte := lookupCell m.cells a

/-- `M[a]` for an aligned `a`, from its four bytes (20_memory.md R35). -/
def Memory.wordAt (m : Memory) (a : Nat) : Word :=
  wordOfBytes (m.byteAt a) (m.byteAt (a + 1)) (m.byteAt (a + 2)) (m.byteAt (a + 3))

/-- `M[a] <- v` for an aligned `a`, as its four bytes (20_memory.md R35). -/
def Memory.putWord (m : Memory) (a : Nat) (v : Word) : Memory :=
  { m with cells := putCell (putCell (putCell (putCell m.cells a (byteOfWord v 0))
      (a + 1) (byteOfWord v 1)) (a + 2) (byteOfWord v 2)) (a + 3) (byteOfWord v 3) }

/-- `M[a] <- 0` for every byte of a range: what reset does to the stack buffer (10_state.md R28). A zero byte
is one that is not listed. -/
def Memory.zeroRange (m : Memory) (lo hi : Nat) : Memory :=
  { m with cells := m.cells.filter fun c => !(decide (lo ≤ c.1) && decide (c.1 < hi)) }

/-! ### The address map -/

/-- An address lies in a range of mapped words. -/
def inRegion (r : Region) (a : Nat) : Bool := decide (r.base ≤ a) && decide (a < r.top)

/-- An address lies in one of the ranges. -/
def covered (rs : List Region) (a : Nat) : Bool := rs.any fun r => inRegion r a

/-- `Mapped(a)` (00_scope.md R9). -/
def Memory.isMapped (m : Memory) (a : Word) : Bool := covered m.mapped a.toNat

/-- Adds a range of words in front of a sorted list that lies above its base, joining the next range when the two
touch. -/
def joinRegion (r : Region) : List Region → List Region
  | [] => [r]
  | q :: rest => if r.top = q.base then { base := r.base, words := r.words + q.words } :: rest else r :: q :: rest

/-- Maps one more word and keeps the ranges sorted, apart and as few as can be. -/
def mapWordIn : List Region → Nat → List Region
  | [], a => [{ base := a, words := 1 }]
  | r :: rest, a =>
    if a < r.base then joinRegion { base := a, words := 1 } (r :: rest)
    else if a < r.top then r :: rest
    else if a = r.top then joinRegion { base := r.base, words := r.words + 1 } rest
    else r :: mapWordIn rest a

/-- Maps the word at an aligned address. No instruction does this: it is the host, building the memory before a
run (20_memory.md R49). -/
def Memory.mapWord (m : Memory) (a : Nat) : Memory := { m with mapped := mapWordIn m.mapped a }

/-! ### The canonical form of memory -/

/-- The ranges of mapped words: nonempty, word-aligned, inside the 32-bit space, in rising order and apart. -/
abbrev mappedWf (rs : List Region) : Prop :=
  rs.Pairwise (fun r q => r.top < q.base) ∧
    ∀ r ∈ rs, r.base % 4 = 0 ∧ 1 ≤ r.words ∧ r.top ≤ 2 ^ 32

/-- The listed bytes: addresses strictly rising, none equal to what an unlisted address reads as. -/
abbrev cellsWf (cells : List Host.Cell) : Prop :=
  cells.Pairwise (fun c d => c.1 < d.1) ∧ ∀ c ∈ cells, c.2 ≠ Config.unlistedByte

/-- The one canonical form of a memory: `M` is defined only where `Mapped` holds (10_state.md R29). -/
abbrev Memory.wf (m : Memory) : Prop :=
  mappedWf m.mapped ∧ cellsWf m.cells ∧ ∀ c ∈ m.cells, covered m.mapped c.1 = true

/-! ### The access primitives -/

/-- `addr[1:0] = 0` (20_memory.md R36). -/
def isAligned (a : Word) : Bool := a.extractLsb' 0 2 == 0#2

/-- The two checks of 20_memory.md R33 and R34: aligned and mapped. -/
def Memory.accessible (m : Memory) (a : Word) : Bool := isAligned a && m.isMapped a

/-- `MemRead(addr, 4)`; `none` is InvalidMemoryAccess(addr) (20_memory.md R33). -/
def State.memRead (s : State) (a : Word) : Option Word :=
  if s.mem.accessible a then some (s.mem.wordAt a.toNat) else none

/-- `MemWrite(addr, 4, v)`; `none` is InvalidMemoryAccess(addr), and then nothing is written
(20_memory.md R34). -/
def State.memWrite (s : State) (a v : Word) : Option State :=
  if s.mem.accessible a then some { s with mem := s.mem.putWord a.toNat v } else none

/-- The fetch of a step reads the word at the program counter (45_sequencer.md R144). -/
def State.fetch (s : State) : Option Word := s.memRead s.pc

/-! ### Faults and the end of a step -/

/-- The number of a fault code (60_exceptions.md R160). -/
def faultNumber : Option FaultKind → Nat
  | none => 0
  | some .unrecognizedInstruction => 1
  | some .invalidMemoryAccess => 2
  | some .undefinedCondition => 3
  | some .unsupportedEncoding => 4

/-- Fault entry: the record is written, the run state becomes Faulted, nothing else changes
(60_exceptions.md R161). There is no return from a fault (R164): only `State.initialize` leaves Faulted. -/
def State.raise (s : State) (k : FaultKind) (info : Word) : State :=
  { s with runState := .faulted, faultCode := some k, faultPc := s.pc, faultInfo := info }

/-- The halt test, once at the end of a completed step, on the whole of `x[15]` (45_sequencer.md R142). A step
that raised a fault is not completed and is Faulted already (R146). -/
def State.haltTest (s : State) : State :=
  if s.runState = .running ∧ s.pc = 0#32 then { s with runState := .halted } else s

/-- What a step does after the executor: the halt test (45_sequencer.md R146, item 8). -/
def completeStep : Host.Outcome State Fault Refusal → Host.Outcome State Fault Refusal
  | .next s => .next s.haltTest
  | .fault f => .fault f
  | .refused r => .refused r

end Sys2Proof.Machine
end

