-- ==== Sys2Proof/Machine/Operands.lean ====
section
/-! DEFINITION. Operand values and addresses, every form the spec gives: spec/30_encoding.md R58 to R60,
spec/42_data_processing.md R86, spec/43_conditional_branch.md R106, spec/44_single_data_transfer.md R126,
R127. All are read from the state as it was when the step began (R146). -/

namespace Sys2Proof.Machine

/-- `zext_8(imm8)`: the immediate operand of data processing and of a transfer, not rotated, not signed
(30_encoding.md R58, R60). -/
def immOperand (imm8 : BitVec 8) : Word := imm8.setWidth 32

/-- The register operand of data processing, not shifted; register 15 reads as the address of the instruction
(42_data_processing.md R86). -/
def regOperand (s : State) (r : Reg) : Word := s.reg r

/-- `lsl(x[Rm], shamt)`, 0 to 31 places, bits shifted out lost (44_single_data_transfer.md R126). -/
def shiftedOffset (s : State) (rm : Reg) (shamt : BitVec 5) : Word := s.reg rm <<< shamt.toNat

/-- `ea = (x[Rn] + offset) mod 2^32` (44_single_data_transfer.md R127). -/
def effectiveAddress (s : State) (rn : Reg) (offset : Word) : Word := s.reg rn + offset

/-- `offset = lsl(sext_24(imm24), 2) + 8` (43_conditional_branch.md R106). -/
def branchOffset (imm24 : BitVec 24) : Word := (imm24.signExtend 32 <<< 2) + 8#32

end Sys2Proof.Machine
end

