-- ==== Sys2Proof/Machine/Branch.lean ====
section
/-! DEFINITION. Conditional branch and branch with link: spec/43_conditional_branch.md R105 to R124. -/

namespace Sys2Proof.Machine

/-- B and BL under any of the sixteen condition codes (R116 to R119). An undefined code faults before anything
is written; a defined one first links, taken or not (R107, R120), then updates the program counter (R117). -/
def branch (cond : BitVec 4) (link : Bool) (imm24 : BitVec 24) (s : State) : State :=
  match condHolds cond s.flags with
  | none => s.raise .undefinedCondition (branchWord cond link imm24)
  | some taken =>
    let target := if taken then s.pc + branchOffset imm24 else s.pc + 4#32
    (if link then s.setReg Reg.lr (s.pc + 4#32) else s).setPc target

/-- BEQ label (R118; condition R109). -/
def execBeq (imm24 : BitVec 24) (s : State) : Host.Outcome State Fault Refusal :=
  .next (branch 0b0000#4 false imm24 s)

/-- BLEQ label (R119, R120; condition R109). -/
def execBleq (imm24 : BitVec 24) (s : State) : Host.Outcome State Fault Refusal :=
  .next (branch 0b0000#4 true imm24 s)

/-- BNE label (R118; condition R110). -/
def execBne (imm24 : BitVec 24) (s : State) : Host.Outcome State Fault Refusal :=
  .next (branch 0b0001#4 false imm24 s)

/-- BLNE label (R119, R120; condition R110). -/
def execBlne (imm24 : BitVec 24) (s : State) : Host.Outcome State Fault Refusal :=
  .next (branch 0b0001#4 true imm24 s)

/-- Branch with the undefined condition code 0010, either link flag (R116). -/
def execCondUndef0010 (link : Bool) (imm24 : BitVec 24) (s : State) : Host.Outcome State Fault Refusal :=
  .next (branch 0b0010#4 link imm24 s)

/-- Branch with the undefined condition code 0011, either link flag (R116). -/
def execCondUndef0011 (link : Bool) (imm24 : BitVec 24) (s : State) : Host.Outcome State Fault Refusal :=
  .next (branch 0b0011#4 link imm24 s)

/-- Branch with the undefined condition code 0100, either link flag (R116). -/
def execCondUndef0100 (link : Bool) (imm24 : BitVec 24) (s : State) : Host.Outcome State Fault Refusal :=
  .next (branch 0b0100#4 link imm24 s)

/-- Branch with the undefined condition code 0101, either link flag (R116). -/
def execCondUndef0101 (link : Bool) (imm24 : BitVec 24) (s : State) : Host.Outcome State Fault Refusal :=
  .next (branch 0b0101#4 link imm24 s)

/-- Branch with the undefined condition code 0110, either link flag (R116). -/
def execCondUndef0110 (link : Bool) (imm24 : BitVec 24) (s : State) : Host.Outcome State Fault Refusal :=
  .next (branch 0b0110#4 link imm24 s)

/-- Branch with the undefined condition code 0111, either link flag (R116). -/
def execCondUndef0111 (link : Bool) (imm24 : BitVec 24) (s : State) : Host.Outcome State Fault Refusal :=
  .next (branch 0b0111#4 link imm24 s)

/-- Branch with the undefined condition code 1000, either link flag (R116). -/
def execCondUndef1000 (link : Bool) (imm24 : BitVec 24) (s : State) : Host.Outcome State Fault Refusal :=
  .next (branch 0b1000#4 link imm24 s)

/-- Branch with the undefined condition code 1001, either link flag (R116). -/
def execCondUndef1001 (link : Bool) (imm24 : BitVec 24) (s : State) : Host.Outcome State Fault Refusal :=
  .next (branch 0b1001#4 link imm24 s)

/-- BGE label (R118; condition R111). -/
def execBge (imm24 : BitVec 24) (s : State) : Host.Outcome State Fault Refusal :=
  .next (branch 0b1010#4 false imm24 s)

/-- BLGE label (R119, R120; condition R111). -/
def execBlge (imm24 : BitVec 24) (s : State) : Host.Outcome State Fault Refusal :=
  .next (branch 0b1010#4 true imm24 s)

/-- BLT label (R118; condition R112). -/
def execBlt (imm24 : BitVec 24) (s : State) : Host.Outcome State Fault Refusal :=
  .next (branch 0b1011#4 false imm24 s)

/-- BLLT label (R119, R120; condition R112). -/
def execBllt (imm24 : BitVec 24) (s : State) : Host.Outcome State Fault Refusal :=
  .next (branch 0b1011#4 true imm24 s)

/-- BGT label (R118; condition R113). -/
def execBgt (imm24 : BitVec 24) (s : State) : Host.Outcome State Fault Refusal :=
  .next (branch 0b1100#4 false imm24 s)

/-- BLGT label (R119, R120; condition R113). -/
def execBlgt (imm24 : BitVec 24) (s : State) : Host.Outcome State Fault Refusal :=
  .next (branch 0b1100#4 true imm24 s)

/-- BLE label (R118; condition R114). -/
def execBle (imm24 : BitVec 24) (s : State) : Host.Outcome State Fault Refusal :=
  .next (branch 0b1101#4 false imm24 s)

/-- BLLE label (R119, R120; condition R114). -/
def execBlle (imm24 : BitVec 24) (s : State) : Host.Outcome State Fault Refusal :=
  .next (branch 0b1101#4 true imm24 s)

/-- B label (R118; condition R115). -/
def execB (imm24 : BitVec 24) (s : State) : Host.Outcome State Fault Refusal :=
  .next (branch 0b1110#4 false imm24 s)

/-- BL label (R119, R120; condition R115). -/
def execBl (imm24 : BitVec 24) (s : State) : Host.Outcome State Fault Refusal :=
  .next (branch 0b1110#4 true imm24 s)

/-- Branch with the undefined condition code 1111, either link flag (R116). -/
def execCondUndef1111 (link : Bool) (imm24 : BitVec 24) (s : State) : Host.Outcome State Fault Refusal :=
  .next (branch 0b1111#4 link imm24 s)

end Sys2Proof.Machine
end

