-- ==== Sys2Proof/Machine/BranchExchange.lean ====
section
/-! DEFINITION. Branch-and-exchange: spec/41_branch_exchange.md R80 to R84. -/

namespace Sys2Proof.Machine

/-- BX Rm: `pc <- x[Rm]`, all 32 bits, and nothing else (R80, R81, R83). -/
def execBx (rm : Reg) (s : State) : Host.Outcome State Fault Refusal := .next (s.setPc (s.reg rm))

end Sys2Proof.Machine
end

