-- ==== Sys2Proof/Machine/DataProcessing.lean ====
section
/-! DEFINITION. Data processing: spec/42_data_processing.md R85 to R104. -/

namespace Sys2Proof.Machine

/-- CMP: the flags of `op1 - op2`, no register but the advance of the program counter, which bits 15:12 decide
(R89, R91, R98). -/
def compare (s : State) (rd : Reg) (op1 op2 : Word) : State :=
  (s.setFlags (flagGen op1 op2)).advanceUnlessPc rd

/-- An opcode that is none of ADD, SUB, CMP, MOV (R99; 60_exceptions.md R159). -/
def unsupportedOpcode (iw : Word) (s : State) : State := s.raise .unsupportedEncoding iw

/-- Opcode 0000, immediate form (R99). -/
def execDp0000Imm (iw : Word) (s : State) : Host.Outcome State Fault Refusal :=
  .next (unsupportedOpcode iw s)

/-- Opcode 0000, register form (R99). -/
def execDp0000Reg (iw : Word) (s : State) : Host.Outcome State Fault Refusal :=
  .next (unsupportedOpcode iw s)

/-- Opcode 0001, immediate form (R99). -/
def execDp0001Imm (iw : Word) (s : State) : Host.Outcome State Fault Refusal :=
  .next (unsupportedOpcode iw s)

/-- Opcode 0001, register form (R99). -/
def execDp0001Reg (iw : Word) (s : State) : Host.Outcome State Fault Refusal :=
  .next (unsupportedOpcode iw s)

/-- SUB Rd, Rn, #imm8: `x[Rd] <- op1 - op2` modulo 2^32 (R88). -/
def execSubImm (rd rn : Reg) (imm8 : BitVec 8) (s : State) : Host.Outcome State Fault Refusal :=
  .next (s.writeResult rd (regOperand s rn - immOperand imm8))

/-- SUB Rd, Rn, Rm: `x[Rd] <- op1 - op2` modulo 2^32 (R88). -/
def execSubReg (rd rn rm : Reg) (s : State) : Host.Outcome State Fault Refusal :=
  .next (s.writeResult rd (regOperand s rn - regOperand s rm))

/-- Opcode 0011, immediate form (R99). -/
def execDp0011Imm (iw : Word) (s : State) : Host.Outcome State Fault Refusal :=
  .next (unsupportedOpcode iw s)

/-- Opcode 0011, register form (R99). -/
def execDp0011Reg (iw : Word) (s : State) : Host.Outcome State Fault Refusal :=
  .next (unsupportedOpcode iw s)

/-- ADD Rd, Rn, #imm8: `x[Rd] <- op1 + op2` modulo 2^32 (R87). -/
def execAddImm (rd rn : Reg) (imm8 : BitVec 8) (s : State) : Host.Outcome State Fault Refusal :=
  .next (s.writeResult rd (regOperand s rn + immOperand imm8))

/-- ADD Rd, Rn, Rm: `x[Rd] <- op1 + op2` modulo 2^32 (R87). -/
def execAddReg (rd rn rm : Reg) (s : State) : Host.Outcome State Fault Refusal :=
  .next (s.writeResult rd (regOperand s rn + regOperand s rm))

/-- Opcode 0101, immediate form (R99). -/
def execDp0101Imm (iw : Word) (s : State) : Host.Outcome State Fault Refusal :=
  .next (unsupportedOpcode iw s)

/-- Opcode 0101, register form (R99). -/
def execDp0101Reg (iw : Word) (s : State) : Host.Outcome State Fault Refusal :=
  .next (unsupportedOpcode iw s)

/-- Opcode 0110, immediate form (R99). -/
def execDp0110Imm (iw : Word) (s : State) : Host.Outcome State Fault Refusal :=
  .next (unsupportedOpcode iw s)

/-- Opcode 0110, register form (R99). -/
def execDp0110Reg (iw : Word) (s : State) : Host.Outcome State Fault Refusal :=
  .next (unsupportedOpcode iw s)

/-- Opcode 0111, immediate form (R99). -/
def execDp0111Imm (iw : Word) (s : State) : Host.Outcome State Fault Refusal :=
  .next (unsupportedOpcode iw s)

/-- Opcode 0111, register form (R99). -/
def execDp0111Reg (iw : Word) (s : State) : Host.Outcome State Fault Refusal :=
  .next (unsupportedOpcode iw s)

/-- Opcode 1000, immediate form (R99). -/
def execDp1000Imm (iw : Word) (s : State) : Host.Outcome State Fault Refusal :=
  .next (unsupportedOpcode iw s)

/-- Opcode 1000, register form (R99). -/
def execDp1000Reg (iw : Word) (s : State) : Host.Outcome State Fault Refusal :=
  .next (unsupportedOpcode iw s)

/-- Opcode 1001, immediate form (R99). -/
def execDp1001Imm (iw : Word) (s : State) : Host.Outcome State Fault Refusal :=
  .next (unsupportedOpcode iw s)

/-- Opcode 1001, register form (R99). -/
def execDp1001Reg (iw : Word) (s : State) : Host.Outcome State Fault Refusal :=
  .next (unsupportedOpcode iw s)

/-- CMP Rn, #imm8 (R89). -/
def execCmpImm (rd rn : Reg) (imm8 : BitVec 8) (s : State) : Host.Outcome State Fault Refusal :=
  .next (compare s rd (regOperand s rn) (immOperand imm8))

/-- CMP Rn, Rm (R89). -/
def execCmpReg (rd rn rm : Reg) (s : State) : Host.Outcome State Fault Refusal :=
  .next (compare s rd (regOperand s rn) (regOperand s rm))

/-- Opcode 1011, immediate form (R99). -/
def execDp1011Imm (iw : Word) (s : State) : Host.Outcome State Fault Refusal :=
  .next (unsupportedOpcode iw s)

/-- Opcode 1011, register form (R99). -/
def execDp1011Reg (iw : Word) (s : State) : Host.Outcome State Fault Refusal :=
  .next (unsupportedOpcode iw s)

/-- Opcode 1100, immediate form (R99). -/
def execDp1100Imm (iw : Word) (s : State) : Host.Outcome State Fault Refusal :=
  .next (unsupportedOpcode iw s)

/-- Opcode 1100, register form (R99). -/
def execDp1100Reg (iw : Word) (s : State) : Host.Outcome State Fault Refusal :=
  .next (unsupportedOpcode iw s)

/-- MOV Rd, #imm8: `x[Rd] <- op2` (R90). -/
def execMovImm (rd : Reg) (imm8 : BitVec 8) (s : State) : Host.Outcome State Fault Refusal :=
  .next (s.writeResult rd (immOperand imm8))

/-- MOV Rd, Rm: `x[Rd] <- op2` (R90). -/
def execMovReg (rd rm : Reg) (s : State) : Host.Outcome State Fault Refusal :=
  .next (s.writeResult rd (regOperand s rm))

/-- Opcode 1110, immediate form (R99). -/
def execDp1110Imm (iw : Word) (s : State) : Host.Outcome State Fault Refusal :=
  .next (unsupportedOpcode iw s)

/-- Opcode 1110, register form (R99). -/
def execDp1110Reg (iw : Word) (s : State) : Host.Outcome State Fault Refusal :=
  .next (unsupportedOpcode iw s)

/-- Opcode 1111, immediate form (R99). -/
def execDp1111Imm (iw : Word) (s : State) : Host.Outcome State Fault Refusal :=
  .next (unsupportedOpcode iw s)

/-- Opcode 1111, register form (R99). -/
def execDp1111Reg (iw : Word) (s : State) : Host.Outcome State Fault Refusal :=
  .next (unsupportedOpcode iw s)

end Sys2Proof.Machine
end

