-- ==== Sys2Proof/Machine/SingleDataTransfer.lean ====
section
/-! DEFINITION. Single data transfer: spec/44_single_data_transfer.md R125 to R139. -/

namespace Sys2Proof.Machine

/-- LDR: reads the word at `ea` into `x[Rd]`, then the PC-advance rule; the base is not written (R128, R130,
R134). A failed read writes no register (60_exceptions.md R157, R162). -/
def load (s : State) (rd : Reg) (ea : Word) : State :=
  match s.memRead ea with
  | none => s.raise .invalidMemoryAccess ea
  | some v => s.writeResult rd v

/-- STR: writes `x[Rd]` at `ea`, then the PC-advance rule, by the field also for Rd = 15 (R129, R130, R132). A
failed write changes nothing (60_exceptions.md R157, R162). -/
def store (s : State) (rd : Reg) (ea : Word) : State :=
  match s.memWrite ea (s.reg rd) with
  | none => s.raise .invalidMemoryAccess ea
  | some t => t.advanceUnlessPc rd

/-- A mode with P = 0, U = 0 or B = 1, refused before anything is read or written (R133; 60_exceptions.md R159). -/
def unsupportedMode (iw : Word) (s : State) : State := s.raise .unsupportedEncoding iw

/-- LDR Rd, [Rn, #imm8] (R128). -/
def execLdrImm (rd rn : Reg) (imm8 : BitVec 8) (s : State) : Host.Outcome State Fault Refusal :=
  .next (load s rd (effectiveAddress s rn (immOperand imm8)))

/-- LDR Rd, [Rn, Rm, LSL #shamt] (R128). -/
def execLdrReg (rd rn rm : Reg) (shamt : BitVec 5) (s : State) : Host.Outcome State Fault Refusal :=
  .next (load s rd (effectiveAddress s rn (shiftedOffset s rm shamt)))

/-- STR Rd, [Rn, #imm8] (R129). -/
def execStrImm (rd rn : Reg) (imm8 : BitVec 8) (s : State) : Host.Outcome State Fault Refusal :=
  .next (store s rd (effectiveAddress s rn (immOperand imm8)))

/-- STR Rd, [Rn, Rm, LSL #shamt] (R129). -/
def execStrReg (rd rn rm : Reg) (shamt : BitVec 5) (s : State) : Host.Outcome State Fault Refusal :=
  .next (store s rd (effectiveAddress s rn (shiftedOffset s rm shamt)))

/-- P = 0, post-indexed (R133). -/
def execSdtPostIndexed (iw : Word) (s : State) : Host.Outcome State Fault Refusal :=
  .next (unsupportedMode iw s)

/-- U = 0, offset subtracted (R133). -/
def execSdtDownward (iw : Word) (s : State) : Host.Outcome State Fault Refusal :=
  .next (unsupportedMode iw s)

/-- B = 1, byte transfer (R133). -/
def execSdtByte (iw : Word) (s : State) : Host.Outcome State Fault Refusal :=
  .next (unsupportedMode iw s)

end Sys2Proof.Machine
end

