-- ==== Sys2Proof/Machine/Unrecognised.lean ====
section
/-! DEFINITION. Words of no family: spec/40_classifier.md R75, spec/60_exceptions.md R156. -/

namespace Sys2Proof.Machine

/-- A word that matches none of the four predicates (60_exceptions.md R156). -/
def unrecognised (iw : Word) (s : State) : State := s.raise .unrecognizedInstruction iw

/-- A word with bits 27:25 = 100 (R156). -/
def execUnrecognised100 (iw : Word) (s : State) : Host.Outcome State Fault Refusal :=
  .next (unrecognised iw s)

/-- A word with bits 27:26 = 11 (R156). -/
def execUnrecognised11 (iw : Word) (s : State) : Host.Outcome State Fault Refusal :=
  .next (unrecognised iw s)

end Sys2Proof.Machine
end

