-- ==== Sys2Proof/Machine/Dispatch.lean ====
section
/-! DEFINITION. The executors by constructor (spec/40_classifier.md R78): exactly one runs in a step. -/

namespace Sys2Proof.Machine

def exec (i : Instr) (s : State) : Host.Outcome State Fault Refusal :=
  match i with
  | .bx rm => Sys2Proof.Machine.execBx rm s
  | .beq imm24 => Sys2Proof.Machine.execBeq imm24 s
  | .bleq imm24 => Sys2Proof.Machine.execBleq imm24 s
  | .bne imm24 => Sys2Proof.Machine.execBne imm24 s
  | .blne imm24 => Sys2Proof.Machine.execBlne imm24 s
  | .condUndef0010 link imm24 => Sys2Proof.Machine.execCondUndef0010 link imm24 s
  | .condUndef0011 link imm24 => Sys2Proof.Machine.execCondUndef0011 link imm24 s
  | .condUndef0100 link imm24 => Sys2Proof.Machine.execCondUndef0100 link imm24 s
  | .condUndef0101 link imm24 => Sys2Proof.Machine.execCondUndef0101 link imm24 s
  | .condUndef0110 link imm24 => Sys2Proof.Machine.execCondUndef0110 link imm24 s
  | .condUndef0111 link imm24 => Sys2Proof.Machine.execCondUndef0111 link imm24 s
  | .condUndef1000 link imm24 => Sys2Proof.Machine.execCondUndef1000 link imm24 s
  | .condUndef1001 link imm24 => Sys2Proof.Machine.execCondUndef1001 link imm24 s
  | .bge imm24 => Sys2Proof.Machine.execBge imm24 s
  | .blge imm24 => Sys2Proof.Machine.execBlge imm24 s
  | .blt imm24 => Sys2Proof.Machine.execBlt imm24 s
  | .bllt imm24 => Sys2Proof.Machine.execBllt imm24 s
  | .bgt imm24 => Sys2Proof.Machine.execBgt imm24 s
  | .blgt imm24 => Sys2Proof.Machine.execBlgt imm24 s
  | .ble imm24 => Sys2Proof.Machine.execBle imm24 s
  | .blle imm24 => Sys2Proof.Machine.execBlle imm24 s
  | .b imm24 => Sys2Proof.Machine.execB imm24 s
  | .bl imm24 => Sys2Proof.Machine.execBl imm24 s
  | .condUndef1111 link imm24 => Sys2Proof.Machine.execCondUndef1111 link imm24 s
  | .dp0000Imm iw => Sys2Proof.Machine.execDp0000Imm iw s
  | .dp0000Reg iw => Sys2Proof.Machine.execDp0000Reg iw s
  | .dp0001Imm iw => Sys2Proof.Machine.execDp0001Imm iw s
  | .dp0001Reg iw => Sys2Proof.Machine.execDp0001Reg iw s
  | .subImm rd rn imm8 => Sys2Proof.Machine.execSubImm rd rn imm8 s
  | .subReg rd rn rm => Sys2Proof.Machine.execSubReg rd rn rm s
  | .dp0011Imm iw => Sys2Proof.Machine.execDp0011Imm iw s
  | .dp0011Reg iw => Sys2Proof.Machine.execDp0011Reg iw s
  | .addImm rd rn imm8 => Sys2Proof.Machine.execAddImm rd rn imm8 s
  | .addReg rd rn rm => Sys2Proof.Machine.execAddReg rd rn rm s
  | .dp0101Imm iw => Sys2Proof.Machine.execDp0101Imm iw s
  | .dp0101Reg iw => Sys2Proof.Machine.execDp0101Reg iw s
  | .dp0110Imm iw => Sys2Proof.Machine.execDp0110Imm iw s
  | .dp0110Reg iw => Sys2Proof.Machine.execDp0110Reg iw s
  | .dp0111Imm iw => Sys2Proof.Machine.execDp0111Imm iw s
  | .dp0111Reg iw => Sys2Proof.Machine.execDp0111Reg iw s
  | .dp1000Imm iw => Sys2Proof.Machine.execDp1000Imm iw s
  | .dp1000Reg iw => Sys2Proof.Machine.execDp1000Reg iw s
  | .dp1001Imm iw => Sys2Proof.Machine.execDp1001Imm iw s
  | .dp1001Reg iw => Sys2Proof.Machine.execDp1001Reg iw s
  | .cmpImm rd rn imm8 => Sys2Proof.Machine.execCmpImm rd rn imm8 s
  | .cmpReg rd rn rm => Sys2Proof.Machine.execCmpReg rd rn rm s
  | .dp1011Imm iw => Sys2Proof.Machine.execDp1011Imm iw s
  | .dp1011Reg iw => Sys2Proof.Machine.execDp1011Reg iw s
  | .dp1100Imm iw => Sys2Proof.Machine.execDp1100Imm iw s
  | .dp1100Reg iw => Sys2Proof.Machine.execDp1100Reg iw s
  | .movImm rd imm8 => Sys2Proof.Machine.execMovImm rd imm8 s
  | .movReg rd rm => Sys2Proof.Machine.execMovReg rd rm s
  | .dp1110Imm iw => Sys2Proof.Machine.execDp1110Imm iw s
  | .dp1110Reg iw => Sys2Proof.Machine.execDp1110Reg iw s
  | .dp1111Imm iw => Sys2Proof.Machine.execDp1111Imm iw s
  | .dp1111Reg iw => Sys2Proof.Machine.execDp1111Reg iw s
  | .ldrImm rd rn imm8 => Sys2Proof.Machine.execLdrImm rd rn imm8 s
  | .ldrReg rd rn rm shamt => Sys2Proof.Machine.execLdrReg rd rn rm shamt s
  | .strImm rd rn imm8 => Sys2Proof.Machine.execStrImm rd rn imm8 s
  | .strReg rd rn rm shamt => Sys2Proof.Machine.execStrReg rd rn rm shamt s
  | .sdtPostIndexed iw => Sys2Proof.Machine.execSdtPostIndexed iw s
  | .sdtDownward iw => Sys2Proof.Machine.execSdtDownward iw s
  | .sdtByte iw => Sys2Proof.Machine.execSdtByte iw s
  | .unrecognised100 iw => Sys2Proof.Machine.execUnrecognised100 iw s
  | .unrecognised11 iw => Sys2Proof.Machine.execUnrecognised11 iw s

end Sys2Proof.Machine
end

