-- ==== Sys2Proof/Machine/Step.lean ====
section
/-! DEFINITION. One step of the sequencer: spec/45_sequencer.md R141, R144 to R149. -/

namespace Sys2Proof.Machine

/-- Step: in Running, fetch, classify and execute, and the halt test at the end of a completed step
(45_sequencer.md R144 to R146); a fetch that fails raises InvalidMemoryAccess with the fetch address
(60_exceptions.md R157). In Halted and Faulted it does nothing (45_sequencer.md R149). -/
def step (s : State) : Host.Outcome State Fault Refusal :=
  match s.runState with
  | .halted => .next s
  | .faulted => .next s
  | .running =>
    match s.fetch with
    | none => .next (s.raise .invalidMemoryAccess s.pc)
    | some iw => completeStep (exec (decodeWord iw) s)

/-- Places one instruction word where the next step fetches: the word at the program counter, which is mapped if
it is not (log 8). A program counter that is not word-aligned holds no instruction, and the state is unchanged. -/
def State.withFetchWord (s : State) (nbits w : Nat) : State :=
  if isAligned s.pc then
    { s with mem := (s.mem.mapWord s.pc.toNat).putWord s.pc.toNat (BitVec.ofNat 32 (w % 2 ^ nbits)) }
  else s

end Sys2Proof.Machine
end

