-- ==== Sys2Proof/Machine/Reset.lean ====
section
/-! DEFINITION. Reset, the host's Initialize operation: spec/70_reset_and_hazards.md R180 to R186, and
the constraints on the parameters it takes. -/

namespace Sys2Proof

/-- The constraint of 00_scope.md R9 on `Mapped`: "every word of the stack buffer is mapped" (10_state.md R24). -/
abbrev Params.stackMapped (p : Params) (m : Machine.Memory) : Prop :=
  ∀ k < p.stackWords, m.isMapped (p.stackWord k) = true

/-- All constraints of 00_scope.md R9 on the parameters: `STACK_BASE` and `STACK_WORDS` in `p`, `Mapped` and `M0` in the
memory. `ENTRY` and the arguments have none. -/
abbrev Params.wf (p : Params) (m : Machine.Memory) : Prop := p.inSpace ∧ p.stackMapped m

end Sys2Proof

namespace Sys2Proof.Machine

/-- The registers after Initialize: all zero, then `x[15]`, `x[14]`, `x[13]` and the four arguments, in the order of
R180. -/
def State.resetRegs (s : State) (p : Params) (entry arg0 arg1 arg2 arg3 : Word) : State :=
  let z : State := { s with regs := Vector.replicate 16 0#32 }
  ((((((z.setPc entry).setReg Reg.lr 0#32).setReg Reg.sp p.stackTop).setReg 0 arg0).setReg 1 arg1).setReg 2
    arg2).setReg 3 arg3

/-- Initialize(entry, arg0, arg1, arg2, arg3), with the stack buffer of `p`: in any run state, always succeeds
(R180, R185). Memory outside the stack buffer is kept (R186), and so is `Mapped`: that the buffer is mapped is a
constraint on the parameters (`Params.wf`), not something Initialize brings about. -/
def State.initialize (s : State) (p : Params) (entry arg0 arg1 arg2 arg3 : Word) : State :=
  { s.resetRegs p entry arg0 arg1 arg2 arg3 with
    flags := 0#32
    mem := s.mem.zeroRange p.stackBase.toNat (p.stackBase.toNat + 4 * p.stackWords)
    faultCode := none
    faultPc := 0#32
    faultInfo := 0#32
    runState := if entry = 0#32 then .halted else .running }

end Sys2Proof.Machine
end

