-- ==== Sys2Proof/Machine/HostInterface.lean ====
section
/-! DEFINITION. What the host sees of the core: spec/45_sequencer.md R140, R147, R148. Initialize is
`State.initialize` (Machine/Reset.lean), Step is `step` (Machine/Step.lean). -/

namespace Sys2Proof.Machine

/-- The answer of Run (45_sequencer.md R147): the value of register 0 when the core halts, the fault record when
it faults, and no answer while it is still running. -/
inductive Report where
  | stillRunning
  | result (value : Word)
  | failure (code : Nat) (pc info : Word)
deriving DecidableEq, Repr

/-- What the host reads between operations (R140, R148). -/
def State.report (s : State) : Report :=
  match s.runState with
  | .running => .stillRunning
  | .halted => .result (s.reg 0)
  | .faulted => .failure (faultNumber s.faultCode) s.faultPc s.faultInfo

/-- The state after one Step. The two other outcomes of `step` do not occur. -/
def State.afterStep (s : State) : State :=
  match step s with
  | .next t => t
  | .fault _ => s
  | .refused _ => s

/-- Run: Step while Running (R147). The core has no bound of its own, so `fuel` bounds the number of steps
(R150). -/
def State.run : Nat → State → State
  | 0, s => s
  | fuel + 1, s => if s.runState = .running then State.run fuel s.afterStep else s

end Sys2Proof.Machine
end

