-- ==== Sys2Proof/Safety.lean ====
section
/-! DEFINITION. The terms claims are stated in: the invariant of the core's state, what an instruction may change,
and the groups of instructions that rules speak of. -/

namespace Sys2Proof

open Sys2Proof.Machine

/-- The fault record and the run state agree: no record outside Faulted, and in Faulted a code and the address of
the instruction that faulted, which `x[15]` still holds (spec/10_state.md R25, spec/60_exceptions.md R161, R162,
R163). -/
abbrev FaultRecordOk (s : State) : Prop :=
  if s.runState = .faulted then s.faultCode ≠ none ∧ s.faultPc = s.pc
  else s.faultCode = none ∧ s.faultPc = 0#32 ∧ s.faultInfo = 0#32

/-- The invariant of the state: the memory is in its canonical form (spec/10_state.md R29), bits 31:4 of `flags`
are 0 (R22), the core is Halted exactly if the program counter is 0 (spec/45_sequencer.md R142, R143, R154), and
the fault record agrees with the run state. -/
structure StateInv (s : State) : Prop where
  memory : s.mem.wf
  flags : s.flags.toNat < 16
  halted : s.runState = .halted ↔ s.pc = 0#32
  record : FaultRecordOk s

/-- Everything but registers, flags and memory is unchanged: the run state and the fault record. -/
abbrev SameControl (s t : State) : Prop :=
  t.runState = s.runState ∧ t.faultCode = s.faultCode ∧ t.faultPc = s.faultPc ∧ t.faultInfo = s.faultInfo

/-- Every register outside the list is unchanged. -/
abbrev SameRegsBut (written : List Reg) (s t : State) : Prop :=
  ∀ r : Reg, r ∉ written → t.reg r = s.reg r

/-- Every byte of memory outside the `n` bytes from `a` up reads as before, and the same words are mapped. -/
abbrev SameMemoryBut (a n : Nat) (s t : State) : Prop :=
  t.mem.mapped = s.mem.mapped ∧
    ∀ b : Nat, b < a ∨ a + n ≤ b → t.mem.byteAt b = s.mem.byteAt b

/-- Every byte of memory reads as before, and the same words are mapped. -/
abbrev SameMemory (s t : State) : Prop := ∀ a : Nat, SameMemoryBut a 0 s t

/-- The program counter after an instruction with the PC-advance test on `rd` that has not written `x[15]`: it
advances by 4 unless the field is 15 (spec/42_data_processing.md R91). -/
abbrev AdvancedUnlessPc (rd : Reg) (s t : State) : Prop :=
  t.pc = if rd = Reg.pc then s.pc else s.pc + 4#32

/-- Fault entry with nothing else changed: a precise fault (spec/60_exceptions.md R161, R162). -/
abbrev Faulted (k : FaultKind) (info : Word) (s t : State) : Prop :=
  t.runState = .faulted ∧ t.faultCode = some k ∧ t.faultPc = s.pc ∧ t.faultInfo = info ∧
    SameRegsBut [] s t ∧ t.flags = s.flags ∧ SameMemory s t

/-- The end of ADD, SUB, MOV and of LDR: `x[Rd]` holds the result, register 15 is the address of the next instruction
unless it is the destination, and nothing else changes (spec/42_data_processing.md R91, R98;
spec/44_single_data_transfer.md R130, R134). -/
abbrev ResultWritten (rd : Reg) (v : Word) (s t : State) : Prop :=
  t.reg rd = v ∧ (rd ≠ Reg.pc → t.pc = s.pc + 4#32) ∧ SameRegsBut [rd, Reg.pc] s t ∧
    t.flags = s.flags ∧ SameControl s t ∧ SameMemory s t

/-- The seven defined conditions by their code, with the condition on the flag bits Z = 3, N = 2, V = 0
(spec/43_conditional_branch.md R109 to R115), and the instructions B<cc> and BL<cc>. -/
structure BranchRow where
  code  : BitVec 4
  holds : Word → Bool
  plain : BitVec 24 → Instr
  link  : BitVec 24 → Instr

/-- EQ, NE, GE, LT, GT, LE, AL (spec/30_encoding.md R61). -/
def branchRowsOf : List BranchRow := [
  ⟨0b0000#4, fun f => f.getLsbD 3 == true, Instr.beq, Instr.bleq⟩,
  ⟨0b0001#4, fun f => f.getLsbD 3 == false, Instr.bne, Instr.blne⟩,
  ⟨0b1010#4, fun f => f.getLsbD 2 == f.getLsbD 0, Instr.bge, Instr.blge⟩,
  ⟨0b1011#4, fun f => f.getLsbD 2 != f.getLsbD 0, Instr.blt, Instr.bllt⟩,
  ⟨0b1100#4, fun f => f.getLsbD 3 == false && f.getLsbD 2 == f.getLsbD 0, Instr.bgt, Instr.blgt⟩,
  ⟨0b1101#4, fun f => f.getLsbD 3 == true || f.getLsbD 2 != f.getLsbD 0, Instr.ble, Instr.blle⟩,
  ⟨0b1110#4, fun _ => true, Instr.b, Instr.bl⟩]

/-- The nine undefined condition codes and their instructions (spec/43_conditional_branch.md R116). -/
def undefinedBranches : List (BitVec 4 × (Bool → BitVec 24 → Instr)) := [
  (0b0010#4, Instr.condUndef0010),
  (0b0011#4, Instr.condUndef0011),
  (0b0100#4, Instr.condUndef0100),
  (0b0101#4, Instr.condUndef0101),
  (0b0110#4, Instr.condUndef0110),
  (0b0111#4, Instr.condUndef0111),
  (0b1000#4, Instr.condUndef1000),
  (0b1001#4, Instr.condUndef1001),
  (0b1111#4, Instr.condUndef1111)]

/-- The twelve unsupported data-processing opcodes in both forms (spec/42_data_processing.md R99). -/
def unsupportedOpcodes : List (Word → Instr) := [
  Instr.dp0000Imm, Instr.dp0000Reg, Instr.dp0001Imm, Instr.dp0001Reg,
  Instr.dp0011Imm, Instr.dp0011Reg, Instr.dp0101Imm, Instr.dp0101Reg,
  Instr.dp0110Imm, Instr.dp0110Reg, Instr.dp0111Imm, Instr.dp0111Reg,
  Instr.dp1000Imm, Instr.dp1000Reg, Instr.dp1001Imm, Instr.dp1001Reg,
  Instr.dp1011Imm, Instr.dp1011Reg, Instr.dp1100Imm, Instr.dp1100Reg,
  Instr.dp1110Imm, Instr.dp1110Reg, Instr.dp1111Imm, Instr.dp1111Reg]

/-- The refused load/store modes (spec/44_single_data_transfer.md R133). -/
def unsupportedModes : List (Word → Instr) := [Instr.sdtPostIndexed, Instr.sdtDownward, Instr.sdtByte]

/-- The words of no family (spec/60_exceptions.md R156). -/
def unrecognisedWords : List (Word → Instr) := [Instr.unrecognised100, Instr.unrecognised11]

/-- The rows of class "implemented" of spec/opcode_table.json; the others are refused with a fault. -/
def Instr.executes : Instr → Bool
  | .bx _ => true
  | .beq _ => true
  | .bleq _ => true
  | .bne _ => true
  | .blne _ => true
  | .condUndef0010 _ _ => false
  | .condUndef0011 _ _ => false
  | .condUndef0100 _ _ => false
  | .condUndef0101 _ _ => false
  | .condUndef0110 _ _ => false
  | .condUndef0111 _ _ => false
  | .condUndef1000 _ _ => false
  | .condUndef1001 _ _ => false
  | .bge _ => true
  | .blge _ => true
  | .blt _ => true
  | .bllt _ => true
  | .bgt _ => true
  | .blgt _ => true
  | .ble _ => true
  | .blle _ => true
  | .b _ => true
  | .bl _ => true
  | .condUndef1111 _ _ => false
  | .dp0000Imm _ => false
  | .dp0000Reg _ => false
  | .dp0001Imm _ => false
  | .dp0001Reg _ => false
  | .subImm _ _ _ => true
  | .subReg _ _ _ => true
  | .dp0011Imm _ => false
  | .dp0011Reg _ => false
  | .addImm _ _ _ => true
  | .addReg _ _ _ => true
  | .dp0101Imm _ => false
  | .dp0101Reg _ => false
  | .dp0110Imm _ => false
  | .dp0110Reg _ => false
  | .dp0111Imm _ => false
  | .dp0111Reg _ => false
  | .dp1000Imm _ => false
  | .dp1000Reg _ => false
  | .dp1001Imm _ => false
  | .dp1001Reg _ => false
  | .cmpImm _ _ _ => true
  | .cmpReg _ _ _ => true
  | .dp1011Imm _ => false
  | .dp1011Reg _ => false
  | .dp1100Imm _ => false
  | .dp1100Reg _ => false
  | .movImm _ _ => true
  | .movReg _ _ => true
  | .dp1110Imm _ => false
  | .dp1110Reg _ => false
  | .dp1111Imm _ => false
  | .dp1111Reg _ => false
  | .ldrImm _ _ _ => true
  | .ldrReg _ _ _ _ => true
  | .strImm _ _ _ => true
  | .strReg _ _ _ _ => true
  | .sdtPostIndexed _ => false
  | .sdtDownward _ => false
  | .sdtByte _ => false
  | .unrecognised100 _ => false
  | .unrecognised11 _ => false

/-- The don't-care bits of an implemented row as a mask ("ignored_bits" of spec/opcode_table.json;
spec/30_encoding.md R57); of a refused row none is claimed. -/
def Instr.dontCare : Instr → Word
  | .bx _ => 0xF0000000#32
  | .beq _ => 0x00000000#32
  | .bleq _ => 0x00000000#32
  | .bne _ => 0x00000000#32
  | .blne _ => 0x00000000#32
  | .condUndef0010 _ _ => 0x00000000#32
  | .condUndef0011 _ _ => 0x00000000#32
  | .condUndef0100 _ _ => 0x00000000#32
  | .condUndef0101 _ _ => 0x00000000#32
  | .condUndef0110 _ _ => 0x00000000#32
  | .condUndef0111 _ _ => 0x00000000#32
  | .condUndef1000 _ _ => 0x00000000#32
  | .condUndef1001 _ _ => 0x00000000#32
  | .bge _ => 0x00000000#32
  | .blge _ => 0x00000000#32
  | .blt _ => 0x00000000#32
  | .bllt _ => 0x00000000#32
  | .bgt _ => 0x00000000#32
  | .blgt _ => 0x00000000#32
  | .ble _ => 0x00000000#32
  | .blle _ => 0x00000000#32
  | .b _ => 0x00000000#32
  | .bl _ => 0x00000000#32
  | .condUndef1111 _ _ => 0x00000000#32
  | .dp0000Imm _ => 0x00000000#32
  | .dp0000Reg _ => 0x00000000#32
  | .dp0001Imm _ => 0x00000000#32
  | .dp0001Reg _ => 0x00000000#32
  | .subImm _ _ _ => 0xF0100F00#32
  | .subReg _ _ _ => 0xF0100FF0#32
  | .dp0011Imm _ => 0x00000000#32
  | .dp0011Reg _ => 0x00000000#32
  | .addImm _ _ _ => 0xF0100F00#32
  | .addReg _ _ _ => 0xF0100FF0#32
  | .dp0101Imm _ => 0x00000000#32
  | .dp0101Reg _ => 0x00000000#32
  | .dp0110Imm _ => 0x00000000#32
  | .dp0110Reg _ => 0x00000000#32
  | .dp0111Imm _ => 0x00000000#32
  | .dp0111Reg _ => 0x00000000#32
  | .dp1000Imm _ => 0x00000000#32
  | .dp1000Reg _ => 0x00000000#32
  | .dp1001Imm _ => 0x00000000#32
  | .dp1001Reg _ => 0x00000000#32
  | .cmpImm _ _ _ => 0xF0100F00#32
  | .cmpReg _ _ _ => 0xF0100FF0#32
  | .dp1011Imm _ => 0x00000000#32
  | .dp1011Reg _ => 0x00000000#32
  | .dp1100Imm _ => 0x00000000#32
  | .dp1100Reg _ => 0x00000000#32
  | .movImm _ _ => 0xF01F0F00#32
  | .movReg _ _ => 0xF01F0FF0#32
  | .dp1110Imm _ => 0x00000000#32
  | .dp1110Reg _ => 0x00000000#32
  | .dp1111Imm _ => 0x00000000#32
  | .dp1111Reg _ => 0x00000000#32
  | .ldrImm _ _ _ => 0xF0200F00#32
  | .ldrReg _ _ _ _ => 0xF0200070#32
  | .strImm _ _ _ => 0xF0200F00#32
  | .strReg _ _ _ _ => 0xF0200070#32
  | .sdtPostIndexed _ => 0x00000000#32
  | .sdtDownward _ => 0x00000000#32
  | .sdtByte _ => 0x00000000#32
  | .unrecognised100 _ => 0x00000000#32
  | .unrecognised11 _ => 0x00000000#32

/-- A row of format B: the conditional-branch family (spec/43_conditional_branch.md). -/
def Instr.isBranch (i : Instr) : Bool := branchRows.contains i.row

/-- CMP in either form. -/
def Instr.isCompare (i : Instr) : Bool := i.row == Row.dataProcessing true 0b1010#4 || i.row == Row.dataProcessing false 0b1010#4

/-- LDR or STR in either form: the only instructions that access data memory (spec/20_memory.md R43). -/
def Instr.accessesMemory (i : Instr) : Bool :=
  i.row == Row.transfer false true || i.row == Row.transfer true true ||
    i.row == Row.transfer false false || i.row == Row.transfer true false

/-- STR in either form. -/
def Instr.isStore (i : Instr) : Bool := i.row == Row.transfer false false || i.row == Row.transfer true false

/-- The ways to put any 32-bit value in register 15: BX, a result of ADD, SUB or MOV with Rd = 15, and a load with
Rd = 15 (spec/10_state.md R19). -/
def Instr.jumpsAnywhere : Instr → Bool
  | .bx _ => true
  | .beq _ => false
  | .bleq _ => false
  | .bne _ => false
  | .blne _ => false
  | .condUndef0010 _ _ => false
  | .condUndef0011 _ _ => false
  | .condUndef0100 _ _ => false
  | .condUndef0101 _ _ => false
  | .condUndef0110 _ _ => false
  | .condUndef0111 _ _ => false
  | .condUndef1000 _ _ => false
  | .condUndef1001 _ _ => false
  | .bge _ => false
  | .blge _ => false
  | .blt _ => false
  | .bllt _ => false
  | .bgt _ => false
  | .blgt _ => false
  | .ble _ => false
  | .blle _ => false
  | .b _ => false
  | .bl _ => false
  | .condUndef1111 _ _ => false
  | .dp0000Imm _ => false
  | .dp0000Reg _ => false
  | .dp0001Imm _ => false
  | .dp0001Reg _ => false
  | .subImm rd _ _ => rd == Reg.pc
  | .subReg rd _ _ => rd == Reg.pc
  | .dp0011Imm _ => false
  | .dp0011Reg _ => false
  | .addImm rd _ _ => rd == Reg.pc
  | .addReg rd _ _ => rd == Reg.pc
  | .dp0101Imm _ => false
  | .dp0101Reg _ => false
  | .dp0110Imm _ => false
  | .dp0110Reg _ => false
  | .dp0111Imm _ => false
  | .dp0111Reg _ => false
  | .dp1000Imm _ => false
  | .dp1000Reg _ => false
  | .dp1001Imm _ => false
  | .dp1001Reg _ => false
  | .cmpImm _ _ _ => false
  | .cmpReg _ _ _ => false
  | .dp1011Imm _ => false
  | .dp1011Reg _ => false
  | .dp1100Imm _ => false
  | .dp1100Reg _ => false
  | .movImm rd _ => rd == Reg.pc
  | .movReg rd _ => rd == Reg.pc
  | .dp1110Imm _ => false
  | .dp1110Reg _ => false
  | .dp1111Imm _ => false
  | .dp1111Reg _ => false
  | .ldrImm rd _ _ => rd == Reg.pc
  | .ldrReg rd _ _ _ => rd == Reg.pc
  | .strImm _ _ _ => false
  | .strReg _ _ _ _ => false
  | .sdtPostIndexed _ => false
  | .sdtDownward _ => false
  | .sdtByte _ => false
  | .unrecognised100 _ => false
  | .unrecognised11 _ => false

end Sys2Proof
end

