-- ==== Sys2Proof/Certificates/Slice0/Obligations.lean ====
section
/-! DEFINITION. The statements for the provers. Each names in its docstring the rules of spec/ it formalises. They range
over every state, and so over every choice of the parameters of spec/00_scope.md R9. -/

open Sys2Proof Sys2Proof.Machine

/-! ### Encoding -/

/-- Decoding the bytes of a well-formed instruction gives it back, with the bytes after it untouched: every operand at
every value survives (spec/30_encoding.md section 2). -/
def Obligations.DecodeOfEncodeIsTheInstruction : Prop :=
  ∀ (i : Instr) (rest : List Byte), i.wellFormed = true → decode (encode i ++ rest) = .ok (i, rest)

/-- The decoder answers only well-formed instructions: each word goes to a row that is the first to match it. -/
def Obligations.DecodedInstructionsAreWellFormed : Prop :=
  ∀ w : Word, (decodeWord w).wellFormed = true

/-- The classifier-based decoder and the ordered opcode table agree on every word: the first row that matches is the
decoded instruction's row (spec/30_encoding.md R63, spec/INDEX.md). -/
def Obligations.DecoderFollowsTheOpcodeTable : Prop :=
  ∀ w : Word, opcodeTable.find? (fun r => r.fits w) = some (decodeWord w).row

/-- A refused word loses no bit in decoding, so that the fault record can hold it whole (spec/60_exceptions.md R156, R158,
R159). -/
def Obligations.RefusedWordsKeepEveryBit : Prop :=
  ∀ w : Word, (decodeWord w).executes = false → encodeWord (decodeWord w) = w

/-- Don't-care bits have no effect: a word that differs from an implemented one in its don't-care bits only decodes to the
same instruction (spec/30_encoding.md R57; the masks are `Instr.dontCare`). -/
def Obligations.DontCareBitsHaveNoEffect : Prop :=
  ∀ w d : Word, (decodeWord w).executes = true → d &&& ~~~(decodeWord w).dontCare = 0#32 →
    decodeWord (w ^^^ d) = decodeWord w

/-- The raw predicates overlap in one way, BX inside data processing, and the ordered tests give those words to BX and each
other word to the family whose predicate holds (spec/40_classifier.md R73, R74). -/
def Obligations.ClassifierOverlapIsBxInDataProcessing : Prop :=
  ∀ w : Word,
    (isBX w = true → isDP w = true) ∧ (isB w && isDP w) = false ∧ (isB w && isSDT w) = false ∧
      (isDP w && isSDT w) = false ∧
      (classify w = .branchExchange ↔ isBX w = true) ∧
      (classify w = .conditionalBranch ↔ isB w = true) ∧
      (classify w = .dataProcessing ↔ isDP w = true ∧ isBX w = false) ∧
      (classify w = .singleDataTransfer ↔ isSDT w = true) ∧
      (classify w = .unrecognised ↔ isB w = false ∧ isDP w = false ∧ isSDT w = false)

/-- Words of spec/95_test_vectors.md sections 2.1 to 2.7 decode to the instructions they are listed as. -/
def Obligations.ListedWordsDecodeAsListed : Prop :=
  decodeWord 0xE12FFF1E#32 = .bx 14 ∧ decodeWord 0xE2800003#32 = .addImm 0 0 3#8 ∧
    decodeWord 0xE0402001#32 = .subReg 2 0 1 ∧ decodeWord 0xE350000A#32 = .cmpImm 0 0 10#8 ∧
    decodeWord 0xE1A0F00E#32 = .movReg 15 14 ∧ decodeWord 0x0A000002#32 = .beq 2#24 ∧
    decodeWord 0xEB00003E#32 = .bl 0x3E#24 ∧ decodeWord 0x2B00003E#32 = .condUndef0010 true 0x3E#24 ∧
    decodeWord 0xE5910004#32 = .ldrImm 0 1 4#8 ∧ decodeWord 0xE7810102#32 = .strReg 0 1 2 2#5 ∧
    decodeWord 0xE49D0004#32 = .sdtPostIndexed 0xE49D0004#32 ∧
    decodeWord 0xE3E00000#32 = .dp1111Imm 0xE3E00000#32 ∧
    decodeWord 0xEF000011#32 = .unrecognised11 0xEF000011#32

/-! ### Branch-and-exchange -/

/-- BX: which words are BX, and its whole effect (spec/41_branch_exchange.md R80, R81, R83). -/
def Obligations.BxSetsThePcAndNothingElse : Prop :=
  (∀ w : Word, w &&& 0x0FFFFFF0#32 = 0x012FFF10#32 → decodeWord w = .bx (w.extractLsb' 0 4).toFin) ∧
  ∀ (rm : Reg) (s : State), ∃ t, exec (.bx rm) s = .next t ∧
    t.pc = s.reg rm ∧ SameRegsBut [Reg.pc] s t ∧ t.flags = s.flags ∧ SameControl s t ∧ SameMemory s t

/-! ### Data processing -/

/-- ADD in both forms: encoding, result, program counter and frame; a jump to a sum of 0 halts the core
(spec/42_data_processing.md R87). -/
def Obligations.AddWritesTheSum : Prop :=
  (∀ w : Word, w &&& 0x0FE00000#32 = 0x02800000#32 → decodeWord w =
    .addImm (w.extractLsb' 12 4).toFin (w.extractLsb' 16 4).toFin (w.extractLsb' 0 8)) ∧
  (∀ w : Word, w &&& 0x0FE00000#32 = 0x00800000#32 → decodeWord w =
    .addReg (w.extractLsb' 12 4).toFin (w.extractLsb' 16 4).toFin (w.extractLsb' 0 4).toFin) ∧
  (∀ (rd rn : Reg) (imm8 : BitVec 8) (s : State), ∃ t, exec (.addImm rd rn imm8) s = .next t ∧
    ResultWritten rd (s.reg rn + imm8.setWidth 32) s t) ∧
  (∀ (rd rn rm : Reg) (s : State), ∃ t, exec (.addReg rd rn rm) s = .next t ∧
    ResultWritten rd (s.reg rn + s.reg rm) s t) ∧
  (∀ (rn : Reg) (imm8 : BitVec 8) (s : State), s.runState = .running → s.reg rn + imm8.setWidth 32 = 0#32 →
    ∃ t, completeStep (exec (.addImm Reg.pc rn imm8) s) = .next t ∧ t.runState = .halted) ∧
  (∀ (rn rm : Reg) (s : State), s.runState = .running → s.reg rn + s.reg rm = 0#32 →
    ∃ t, completeStep (exec (.addReg Reg.pc rn rm) s) = .next t ∧ t.runState = .halted)

/-- SUB in both forms: encoding, result, program counter and frame (spec/42_data_processing.md R88). -/
def Obligations.SubWritesTheDifference : Prop :=
  (∀ w : Word, w &&& 0x0FE00000#32 = 0x02400000#32 → decodeWord w =
    .subImm (w.extractLsb' 12 4).toFin (w.extractLsb' 16 4).toFin (w.extractLsb' 0 8)) ∧
  (∀ w : Word, w &&& 0x0FE00000#32 = 0x00400000#32 → decodeWord w =
    .subReg (w.extractLsb' 12 4).toFin (w.extractLsb' 16 4).toFin (w.extractLsb' 0 4).toFin) ∧
  (∀ (rd rn : Reg) (imm8 : BitVec 8) (s : State), ∃ t, exec (.subImm rd rn imm8) s = .next t ∧
    ResultWritten rd (s.reg rn - imm8.setWidth 32) s t) ∧
  (∀ (rd rn rm : Reg) (s : State), ∃ t, exec (.subReg rd rn rm) s = .next t ∧
    ResultWritten rd (s.reg rn - s.reg rm) s t)

/-- CMP in both forms: encoding, the flag word, the PC-advance test on bits 15:12, and that no other register and no
memory changes; equal operands give Z alone; with bits 15:12 = 15 it finds its own result and changes nothing any more
(spec/42_data_processing.md R89). -/
def Obligations.CmpWritesTheFlagsAndNoRegister : Prop :=
  (∀ w : Word, w &&& 0x0FE00000#32 = 0x03400000#32 → decodeWord w =
    .cmpImm (w.extractLsb' 12 4).toFin (w.extractLsb' 16 4).toFin (w.extractLsb' 0 8)) ∧
  (∀ w : Word, w &&& 0x0FE00000#32 = 0x01400000#32 → decodeWord w =
    .cmpReg (w.extractLsb' 12 4).toFin (w.extractLsb' 16 4).toFin (w.extractLsb' 0 4).toFin) ∧
  (∀ (rd rn : Reg) (imm8 : BitVec 8) (s : State), ∃ t, exec (.cmpImm rd rn imm8) s = .next t ∧
    t.flags = flagGen (s.reg rn) (imm8.setWidth 32) ∧ AdvancedUnlessPc rd s t ∧
    SameRegsBut [Reg.pc] s t ∧ SameControl s t ∧ SameMemory s t) ∧
  (∀ (rd rn rm : Reg) (s : State), ∃ t, exec (.cmpReg rd rn rm) s = .next t ∧
    t.flags = flagGen (s.reg rn) (s.reg rm) ∧ AdvancedUnlessPc rd s t ∧
    SameRegsBut [Reg.pc] s t ∧ SameControl s t ∧ SameMemory s t) ∧
  (∀ a : Word, flagGen a a = 0x8#32) ∧
  (∀ (rn : Reg) (imm8 : BitVec 8) (s t : State), exec (.cmpImm Reg.pc rn imm8) s = .next t →
    exec (.cmpImm Reg.pc rn imm8) t = .next t) ∧
  (∀ (rn rm : Reg) (s t : State), exec (.cmpReg Reg.pc rn rm) s = .next t → exec (.cmpReg Reg.pc rn rm) t = .next t)

/-- MOV in both forms: encoding, result, program counter and frame; `MOV pc, Rm` is `BX Rm`, and `MOV pc, #0` halts
(spec/42_data_processing.md R90). -/
def Obligations.MovWritesTheOperand : Prop :=
  (∀ w : Word, w &&& 0x0FE00000#32 = 0x03A00000#32 → decodeWord w =
    .movImm (w.extractLsb' 12 4).toFin (w.extractLsb' 0 8)) ∧
  (∀ w : Word, w &&& 0x0FE00000#32 = 0x01A00000#32 → decodeWord w =
    .movReg (w.extractLsb' 12 4).toFin (w.extractLsb' 0 4).toFin) ∧
  (∀ (rd : Reg) (imm8 : BitVec 8) (s : State), ∃ t, exec (.movImm rd imm8) s = .next t ∧
    ResultWritten rd (imm8.setWidth 32) s t) ∧
  (∀ (rd rm : Reg) (s : State), ∃ t, exec (.movReg rd rm) s = .next t ∧ ResultWritten rd (s.reg rm) s t) ∧
  (∀ (rm : Reg) (s : State), exec (.movReg Reg.pc rm) s = exec (.bx rm) s) ∧
  (∀ s : State, s.runState = .running →
    ∃ t, completeStep (exec (.movImm Reg.pc 0#8) s) = .next t ∧ t.runState = .halted)

/-- A step of ADD, SUB or MOV with Rd = 15 is a computed jump to exactly the result `v`: `x[14]` is not written, 0 halts the
core, and a target that is misaligned or not mapped makes the next fetch fault (spec/42_data_processing.md R92). -/
def Obligations.DataProcessingToPcIsAComputedJump : Prop :=
  ∀ (s : State) (w v : Word), s.runState = .running → s.fetch = some w →
    ((∃ rn imm8, decodeWord w = .addImm Reg.pc rn imm8 ∧ v = s.reg rn + imm8.setWidth 32) ∨
      (∃ rn rm, decodeWord w = .addReg Reg.pc rn rm ∧ v = s.reg rn + s.reg rm) ∨
      (∃ rn imm8, decodeWord w = .subImm Reg.pc rn imm8 ∧ v = s.reg rn - imm8.setWidth 32) ∨
      (∃ rn rm, decodeWord w = .subReg Reg.pc rn rm ∧ v = s.reg rn - s.reg rm) ∨
      (∃ imm8, decodeWord w = .movImm Reg.pc imm8 ∧ v = imm8.setWidth 32) ∨
      (∃ rm, decodeWord w = .movReg Reg.pc rm ∧ v = s.reg rm)) →
    ∃ t, step s = .next t ∧ t.pc = v ∧ t.reg Reg.lr = s.reg Reg.lr ∧
      t.runState = (if v = 0#32 then .halted else .running) ∧
      (v ≠ 0#32 → (v.toNat % 4 ≠ 0 ∨ s.mem.isMapped v = false) →
        ∃ u, step t = .next u ∧ Faulted .invalidMemoryAccess v t u)

/-- The twelve unsupported opcodes in both forms: every such word is one of the 24 rows, and executing it enters the fault
UnsupportedEncoding with the word, and changes nothing else (spec/42_data_processing.md R99). -/
def Obligations.UnsupportedOpcodesFault : Prop :=
  (∀ w : Word, isDP w = true → isBX w = false →
    w.extractLsb' 21 4 ∉ [0b0100#4, 0b0010#4, 0b1010#4, 0b1101#4] → ∃ mk ∈ unsupportedOpcodes, decodeWord w = mk w) ∧
  ∀ mk ∈ unsupportedOpcodes, ∀ (iw : Word) (s : State), ∃ t, exec (mk iw) s = .next t ∧
    Faulted .unsupportedEncoding iw s t

/-! ### Flags -/

/-- The flag generator: Z, N, C as the borrow, V in both of the rule's forms, and zero above bit 3
(spec/42_data_processing.md R93 to R97). -/
def Obligations.FlagGeneratorBits : Prop :=
  ∀ a b : Word,
    (flagGen a b).getLsbD 3 = decide (a - b = 0#32) ∧
    (flagGen a b).getLsbD 3 = decide (a = b) ∧
    (flagGen a b).getLsbD 2 = (a - b).getLsbD 31 ∧
    (flagGen a b).getLsbD 1 = decide (b.toNat > a.toNat) ∧
    (flagGen a b).getLsbD 0 = (a.getLsbD 31 != b.getLsbD 31 && (a - b).getLsbD 31 == b.getLsbD 31) ∧
    (flagGen a b).getLsbD 0 = decide (¬ (-(2 ^ 31) ≤ a.toInt - b.toInt ∧ a.toInt - b.toInt ≤ 2 ^ 31 - 1)) ∧
    ∀ k ≥ 4, (flagGen a b).getLsbD k = false

/-- CMP produces exactly seven flag words (spec/42_data_processing.md, the sentence under the table of R97). -/
def Obligations.CmpProducesExactlySevenFlagWords : Prop :=
  ∀ f : Word, (∃ a b : Word, flagGen a b = f) ↔ f ∈ [0x0#32, 0x1#32, 0x2#32, 0x4#32, 0x6#32, 0x7#32, 0x8#32]

/-- What a branch sees after `CMP a, b`: the signed comparisons and equality, and no unsigned comparison
(spec/42_data_processing.md R104). -/
def Obligations.ConditionsAfterCmpAreSignedComparisons : Prop :=
  (∀ a b : Word,
    condHolds 0b0000#4 (flagGen a b) = some (decide (a = b)) ∧
    condHolds 0b0001#4 (flagGen a b) = some (decide (a ≠ b)) ∧
    condHolds 0b1010#4 (flagGen a b) = some (decide (a.toInt ≥ b.toInt)) ∧
    condHolds 0b1011#4 (flagGen a b) = some (decide (a.toInt < b.toInt)) ∧
    condHolds 0b1100#4 (flagGen a b) = some (decide (a.toInt > b.toInt)) ∧
    condHolds 0b1101#4 (flagGen a b) = some (decide (a.toInt ≤ b.toInt)) ∧
    ((flagGen a b).getLsbD 2 != (flagGen a b).getLsbD 0) = decide (a.toInt - b.toInt < 0)) ∧
  ∀ r ∈ branchRowsOf,
    (∃ a b : Word, condHolds r.code (flagGen a b) ≠ some (decide (a.toNat < b.toNat))) ∧
    (∃ a b : Word, condHolds r.code (flagGen a b) ≠ some (decide (a.toNat ≤ b.toNat))) ∧
    (∃ a b : Word, condHolds r.code (flagGen a b) ≠ some (decide (a.toNat > b.toNat))) ∧
    (∃ a b : Word, condHolds r.code (flagGen a b) ≠ some (decide (a.toNat ≥ b.toNat)))

/-- Only CMP writes `flags` (spec/10_state.md R21, spec/42_data_processing.md R98): an instruction that changes the flag
word is a CMP. -/
def Obligations.OnlyCmpChangesTheFlags : Prop :=
  ∀ (i : Instr) (s t : State), exec i s = .next t → t.flags ≠ s.flags → i.isCompare = true

/-- Only branches read `flags`, and no condition reads C (spec/10_state.md R21): with another flag word, an instruction that
is no branch does the same, keeping that flag word unless it is a CMP. -/
def Obligations.OnlyBranchesReadTheFlags : Prop :=
  (∀ (i : Instr) (s t : State) (f : Word), i.isBranch = false → exec i s = .next t →
    exec i (s.setFlags f) = .next (if i.isCompare then t else t.setFlags f)) ∧
  (∀ (cond : BitVec 4) (f : Word), condHolds cond (f ^^^ 0x2#32) = condHolds cond f)

/-! ### Branches -/

/-- B under each of the seven conditions: encoding, target or fall-through, and frame (spec/43_conditional_branch.md R109 to
R115, R117, R118). -/
def Obligations.BranchGoesToTheTargetIfTheConditionHolds : Prop :=
  ∀ r ∈ branchRowsOf,
    (∀ w : Word, w &&& 0x0F000000#32 = 0x0A000000#32 → w.extractLsb' 28 4 = r.code →
      decodeWord w = r.plain (w.extractLsb' 0 24)) ∧
    ∀ (imm24 : BitVec 24) (s : State), ∃ t, exec (r.plain imm24) s = .next t ∧
      t.pc = (if r.holds s.flags then s.pc + ((imm24.signExtend 32 <<< 2) + 8#32) else s.pc + 4#32) ∧
      SameRegsBut [Reg.pc] s t ∧ t.flags = s.flags ∧ SameControl s t ∧ SameMemory s t

/-- BL under each of the seven conditions: encoding, the link register written whether or not the branch is taken, target or
fall-through, and frame (spec/43_conditional_branch.md R107, R119, R120). -/
def Obligations.BranchWithLinkAlwaysLinks : Prop :=
  ∀ r ∈ branchRowsOf,
    (∀ w : Word, w &&& 0x0F000000#32 = 0x0B000000#32 → w.extractLsb' 28 4 = r.code →
      decodeWord w = r.link (w.extractLsb' 0 24)) ∧
    ∀ (imm24 : BitVec 24) (s : State), ∃ t, exec (r.link imm24) s = .next t ∧
      t.reg Reg.lr = s.pc + 4#32 ∧
      t.pc = (if r.holds s.flags then s.pc + ((imm24.signExtend 32 <<< 2) + 8#32) else s.pc + 4#32) ∧
      SameRegsBut [Reg.lr, Reg.pc] s t ∧ t.flags = s.flags ∧ SameControl s t ∧ SameMemory s t

/-- The nine undefined condition codes: every branch word with one is the instruction of that code, and executing it enters
the fault UndefinedCondition with the word before anything is written, the link register included
(spec/43_conditional_branch.md R116). -/
def Obligations.UndefinedConditionsFaultBeforeAnyWrite : Prop :=
  ∀ p ∈ undefinedBranches,
    (∀ w : Word, isB w = true → w.extractLsb' 28 4 = p.1 →
      decodeWord w = p.2 (w.getLsbD 24) (w.extractLsb' 0 24) ∧
      ∀ s : State, ∃ t, exec (decodeWord w) s = .next t ∧ Faulted .undefinedCondition w s t) ∧
    ∀ (link : Bool) (imm24 : BitVec 24) (s : State), ∃ t, exec (p.2 link imm24) s = .next t ∧
      Faulted .undefinedCondition (encodeWord (p.2 link imm24)) s t

/-- The decoded branch offset: four times the signed field plus 8, always a multiple of 4, so that the target of a taken
branch at `a` is `a + 4 s + 8` modulo 2^32 (spec/43_conditional_branch.md R106, spec/30_encoding.md R59). -/
def Obligations.BranchOffsetIsFourTimesTheFieldPlusEight : Prop :=
  ∀ imm24 : BitVec 24,
    (branchOffset imm24).toInt = 4 * imm24.toInt + 8 ∧ (branchOffset imm24).toNat % 4 = 0 ∧
      ∀ a : Word, a + branchOffset imm24 = BitVec.ofInt 32 (a.toInt + 4 * imm24.toInt + 8)

/-- From a word-aligned program counter only BX, a data-processing instruction with Rd = 15 or a load with Rd = 15 gives a
misaligned one, so no branch does; and a misaligned program counter makes the next step's fetch fault, whatever is there
(spec/43_conditional_branch.md R123). -/
def Obligations.OnlyJumpsMisalignThePc : Prop :=
  (∀ (i : Instr) (s t : State), exec i s = .next t → s.pc.toNat % 4 = 0 → t.pc.toNat % 4 ≠ 0 →
    i.jumpsAnywhere = true ∧ i.isBranch = false) ∧
  ∀ s : State, s.runState = .running → s.pc.toNat % 4 ≠ 0 →
    ∃ t, step s = .next t ∧ Faulted .invalidMemoryAccess s.pc s t

/-! ### Loads and stores -/

/-- LDR in both forms: encoding; from an aligned, mapped address the loaded word, program counter and frame, the base not
written unless it is Rd; from another address the fault InvalidMemoryAccess with nothing written
(spec/44_single_data_transfer.md R126, R127, R128, R134). -/
def Obligations.LdrLoadsTheWordAtTheEffectiveAddress : Prop :=
  (∀ w : Word, w &&& 0x0FD00000#32 = 0x05900000#32 → decodeWord w =
    .ldrImm (w.extractLsb' 12 4).toFin (w.extractLsb' 16 4).toFin (w.extractLsb' 0 8)) ∧
  (∀ w : Word, w &&& 0x0FD00000#32 = 0x07900000#32 → decodeWord w =
    .ldrReg (w.extractLsb' 12 4).toFin (w.extractLsb' 16 4).toFin (w.extractLsb' 0 4).toFin (w.extractLsb' 7 5)) ∧
  (∀ (rd rn : Reg) (imm8 : BitVec 8) (s : State) (ea : Word), ea = s.reg rn + imm8.setWidth 32 →
    (ea.toNat % 4 = 0 → s.mem.isMapped ea = true →
      ∃ t, exec (.ldrImm rd rn imm8) s = .next t ∧ ResultWritten rd (s.mem.wordAt ea.toNat) s t) ∧
    (ea.toNat % 4 ≠ 0 ∨ s.mem.isMapped ea = false →
      ∃ t, exec (.ldrImm rd rn imm8) s = .next t ∧ Faulted .invalidMemoryAccess ea s t)) ∧
  (∀ (rd rn rm : Reg) (shamt : BitVec 5) (s : State) (ea : Word), ea = s.reg rn + (s.reg rm <<< shamt.toNat) →
    (ea.toNat % 4 = 0 → s.mem.isMapped ea = true →
      ∃ t, exec (.ldrReg rd rn rm shamt) s = .next t ∧ ResultWritten rd (s.mem.wordAt ea.toNat) s t) ∧
    (ea.toNat % 4 ≠ 0 ∨ s.mem.isMapped ea = false →
      ∃ t, exec (.ldrReg rd rn rm shamt) s = .next t ∧ Faulted .invalidMemoryAccess ea s t))

/-- STR in both forms: encoding; to an aligned, mapped address the stored word, the PC-advance test on Rd, and frame, with
every byte outside the four stored ones unchanged; to another address the fault InvalidMemoryAccess with nothing written
(spec/44_single_data_transfer.md R129). The premise is the canonical form of memory, which every step keeps
(`Obligations.EveryStepKeepsTheInvariant`). -/
def Obligations.StrStoresTheWordAtTheEffectiveAddress : Prop :=
  (∀ w : Word, w &&& 0x0FD00000#32 = 0x05800000#32 → decodeWord w =
    .strImm (w.extractLsb' 12 4).toFin (w.extractLsb' 16 4).toFin (w.extractLsb' 0 8)) ∧
  (∀ w : Word, w &&& 0x0FD00000#32 = 0x07800000#32 → decodeWord w =
    .strReg (w.extractLsb' 12 4).toFin (w.extractLsb' 16 4).toFin (w.extractLsb' 0 4).toFin (w.extractLsb' 7 5)) ∧
  (∀ (rd rn : Reg) (imm8 : BitVec 8) (s : State) (ea : Word), s.mem.wf → ea = s.reg rn + imm8.setWidth 32 →
    (ea.toNat % 4 = 0 → s.mem.isMapped ea = true →
      ∃ t, exec (.strImm rd rn imm8) s = .next t ∧ t.mem.wordAt ea.toNat = s.reg rd ∧
        SameMemoryBut ea.toNat 4 s t ∧ AdvancedUnlessPc rd s t ∧ SameRegsBut [Reg.pc] s t ∧
        t.flags = s.flags ∧ SameControl s t) ∧
    (ea.toNat % 4 ≠ 0 ∨ s.mem.isMapped ea = false →
      ∃ t, exec (.strImm rd rn imm8) s = .next t ∧ Faulted .invalidMemoryAccess ea s t)) ∧
  (∀ (rd rn rm : Reg) (shamt : BitVec 5) (s : State) (ea : Word), s.mem.wf →
    ea = s.reg rn + (s.reg rm <<< shamt.toNat) →
    (ea.toNat % 4 = 0 → s.mem.isMapped ea = true →
      ∃ t, exec (.strReg rd rn rm shamt) s = .next t ∧ t.mem.wordAt ea.toNat = s.reg rd ∧
        SameMemoryBut ea.toNat 4 s t ∧ AdvancedUnlessPc rd s t ∧ SameRegsBut [Reg.pc] s t ∧
        t.flags = s.flags ∧ SameControl s t) ∧
    (ea.toNat % 4 ≠ 0 ∨ s.mem.isMapped ea = false →
      ∃ t, exec (.strReg rd rn rm shamt) s = .next t ∧ Faulted .invalidMemoryAccess ea s t))

/-- A misaligned or unmapped address makes the step of any LDR or STR, and the fetch of any step, raise InvalidMemoryAccess
with that address, and nothing is written (spec/20_memory.md R36, R37, spec/60_exceptions.md R157). -/
def Obligations.InaccessibleAddressesFault : Prop :=
  ∀ (s : State) (ea : Word), s.runState = .running → (ea.toNat % 4 ≠ 0 ∨ s.mem.isMapped ea = false) →
    (ea = s.pc → ∃ t, step s = .next t ∧ Faulted .invalidMemoryAccess ea s t) ∧
    ∀ w : Word, s.fetch = some w →
      ((∃ rd rn imm8, (decodeWord w = .ldrImm rd rn imm8 ∨ decodeWord w = .strImm rd rn imm8) ∧
          ea = s.reg rn + imm8.setWidth 32) ∨
        (∃ rd rn rm shamt, (decodeWord w = .ldrReg rd rn rm shamt ∨ decodeWord w = .strReg rd rn rm shamt) ∧
          ea = s.reg rn + (s.reg rm <<< shamt.toNat))) →
      ∃ t, step s = .next t ∧ Faulted .invalidMemoryAccess ea s t

/-- Load/store words with P = 0, U = 0 or B = 1: each is one of the three refused rows, and executing it enters the fault
UnsupportedEncoding with the word, before anything is read or written (spec/44_single_data_transfer.md R133). -/
def Obligations.UnsupportedModesFault : Prop :=
  (∀ w : Word, isSDT w = true → (w.getLsbD 24 = false ∨ w.getLsbD 23 = false ∨ w.getLsbD 22 = true) →
    ∃ mk ∈ unsupportedModes, decodeWord w = mk w) ∧
  ∀ mk ∈ unsupportedModes, ∀ (iw : Word) (s : State), ∃ t, exec (mk iw) s = .next t ∧
    Faulted .unsupportedEncoding iw s t

/-- A load followed by a store of the same register to the same effective address leaves memory as it was, byte for byte
and as data (spec/44_single_data_transfer.md R138). -/
def Obligations.LoadThenStoreRestoresMemory : Prop :=
  ∀ (s t : State) (rd rn : Reg), s.mem.wf →
    (∀ (imm8 : BitVec 8) (ea : Word), ea = s.reg rn + imm8.setWidth 32 → ea.toNat % 4 = 0 →
      s.mem.isMapped ea = true → exec (.ldrImm rd rn imm8) s = .next t → t.reg rn = s.reg rn →
      ∃ u, exec (.strImm rd rn imm8) t = .next u ∧ u.mem = s.mem ∧ u.reg rd = s.mem.wordAt ea.toNat) ∧
    (∀ (rm : Reg) (shamt : BitVec 5) (ea : Word), ea = s.reg rn + (s.reg rm <<< shamt.toNat) →
      ea.toNat % 4 = 0 → s.mem.isMapped ea = true → exec (.ldrReg rd rn rm shamt) s = .next t →
      t.reg rn = s.reg rn → t.reg rm = s.reg rm →
      ∃ u, exec (.strReg rd rn rm shamt) t = .next u ∧ u.mem = s.mem ∧ u.reg rd = s.mem.wordAt ea.toNat)

/-! ### Memory -/

/-- MemWrite: an error at a misaligned or unmapped address; else it changes memory at exactly that word and nothing else of
the state, so that every later read sees the new word there and the old words elsewhere (spec/20_memory.md R34, R41). -/
def Obligations.MemWriteChangesExactlyOneWord : Prop :=
  ∀ (s : State) (a v : Word), s.mem.wf →
    ((a.toNat % 4 ≠ 0 ∨ s.mem.isMapped a = false) → s.memWrite a v = none) ∧
    (a.toNat % 4 = 0 → s.mem.isMapped a = true →
      ∃ t, s.memWrite a v = some t ∧ (∀ b : Word, t.memRead b = if b = a then some v else s.memRead b) ∧
        SameRegsBut [] s t ∧ t.flags = s.flags ∧ SameControl s t ∧ t.mem.mapped = s.mem.mapped)

/-- Byte order: byte `a + k` of a word written at `a` holds bits `8k + 7 : 8k`, and a word read, by a load or by a fetch,
puts them back (spec/20_memory.md R35). -/
def Obligations.WordsAreLittleEndian : Prop :=
  ∀ (m : Memory) (a k : Nat) (v : Word), m.wf → k < 4 →
    (m.putWord a v).byteAt (a + k) = v.extractLsb' (8 * k) 8 ∧
      m.byteAt (a + k) = (m.wordAt a).extractLsb' (8 * k) 8 ∧
      (∀ (s : State) (addr w : Word), s.memRead addr = some w → s.mem.byteAt (addr.toNat + k) = w.extractLsb' (8 * k) 8) ∧
      ∀ (s : State) (w : Word), s.fetch = some w → s.mem.byteAt (s.pc.toNat + k) = w.extractLsb' (8 * k) 8

/-- A word stored is the word the next fetch of that address reads, with nothing in between (spec/20_memory.md R47). -/
def Obligations.AStoreIsSeenByTheNextFetch : Prop :=
  ∀ (s t : State) (ea : Word), s.mem.wf → ea.toNat % 4 = 0 → s.mem.isMapped ea = true →
    (∀ (rd rn : Reg) (imm8 : BitVec 8), ea = s.reg rn + imm8.setWidth 32 →
      exec (.strImm rd rn imm8) s = .next t → (t.setPc ea).fetch = some (s.reg rd)) ∧
    (∀ (rd rn rm : Reg) (shamt : BitVec 5), ea = s.reg rn + (s.reg rm <<< shamt.toNat) →
      exec (.strReg rd rn rm shamt) s = .next t → (t.setPc ea).fetch = some (s.reg rd))

/-- The canonical form is canonical: two memories with the same mapped addresses and the same bytes are equal data. A
property of the model's representation. -/
def Obligations.EqualMemoriesAreEqualData : Prop :=
  ∀ m n : Memory, m.wf → n.wf → (∀ a : Nat, covered m.mapped a = covered n.mapped a) →
    (∀ a : Nat, m.byteAt a = n.byteAt a) → m = n

/-- Only STR changes memory, and nothing changes which words are mapped (spec/20_memory.md R34, R43; spec/10_state.md
R29). -/
def Obligations.OnlyStrChangesMemory : Prop :=
  (∀ (i : Instr) (s t : State), exec i s = .next t → i.isStore = false → t.mem = s.mem) ∧
  ∀ s t : State, step s = .next t → t.mem.mapped = s.mem.mapped

/-- No instruction but LDR and STR touches data memory: with another memory, it does the same and leaves that memory alone
(spec/20_memory.md R31, R43). -/
def Obligations.OtherInstructionsIgnoreMemory : Prop :=
  ∀ (i : Instr) (s t : State) (m : Memory), i.accessesMemory = false → exec i s = .next t →
    exec i { s with mem := m } = .next { t with mem := m }

/-! ### The step -/

/-- When the bytes at an aligned, mapped program counter decode to an instruction, the step of a running core is `exec` of it
at that state, and then the halt test (spec/45_sequencer.md R142, R144, R145). -/
def Obligations.AStepRunsTheDecodedInstruction : Prop :=
  ∀ (s t : State) (i : Instr), s.runState = .running → s.pc.toNat % 4 = 0 → s.mem.isMapped s.pc = true →
    decode [s.mem.byteAt s.pc.toNat, s.mem.byteAt (s.pc.toNat + 1), s.mem.byteAt (s.pc.toNat + 2),
      s.mem.byteAt (s.pc.toNat + 3)] = .ok (i, []) →
    exec i s = .next t →
    step s = .next (if t.runState = .running ∧ t.pc = 0#32 then { t with runState := .halted } else t)

/-- Every step of every state has a next state. In Running no word is left without a behaviour (spec/30_encoding.md section 5,
spec/45_sequencer.md section 3); in Halted and Faulted a step changes nothing (spec/45_sequencer.md R141, R149). It rests on
log 1: a fault of the core is a next state whose run state is Faulted. -/
def Obligations.EveryStateHasANextState : Prop :=
  ∀ s : State, ∃ t, step s = .next t

/-- The run states: Step and Run do nothing in Halted and Faulted; a step of a running core ends Faulted, or Halted with program
counter 0, or Running with another; Initialize gives Halted for entry 0 and else Running (spec/45_sequencer.md R141). -/
def Obligations.RunStateTransitions : Prop :=
  (∀ s : State, s.runState ≠ .running → step s = .next s ∧ ∀ fuel : Nat, State.run fuel s = s) ∧
  (∀ s t : State, s.runState = .running → step s = .next t →
    (t.runState = .faulted ∧ t.faultCode ≠ none) ∨ (t.runState = .halted ∧ t.pc = 0#32) ∨
      (t.runState = .running ∧ t.pc ≠ 0#32)) ∧
  ∀ (s : State) (p : Params) (entry a0 a1 a2 a3 : Word),
    (s.initialize p entry a0 a1 a2 a3).runState = if entry = 0#32 then .halted else .running

/-- A faulting step changes the run state and the fault record and nothing else: no register, flag or byte of memory, and the
program counter still holds the address of the instruction, which is also the recorded one (spec/60_exceptions.md R161,
R162). -/
def Obligations.FaultsArePrecise : Prop :=
  ∀ s t : State, s.runState = .running → step s = .next t → t.runState = .faulted →
    ∃ (k : FaultKind) (info : Word), Faulted k info s t ∧ t.mem = s.mem ∧ t.pc = t.faultPc

/-- The order of the faults of one step (spec/60_exceptions.md R165): a failed fetch before everything; then unrecognised
words; then unsupported encodings and undefined conditions, whatever the address of a refused transfer; a fault of the
data access only when none of these applies. -/
def Obligations.FaultPriority : Prop :=
  ∀ s : State, s.runState = .running →
    (s.fetch = none → ∃ t, step s = .next t ∧ Faulted .invalidMemoryAccess s.pc s t) ∧
    ∀ w : Word, s.fetch = some w →
      (classify w = .unrecognised → ∃ t, step s = .next t ∧ Faulted .unrecognizedInstruction w s t) ∧
      (classify w = .dataProcessing → (decodeWord w).executes = false →
        ∃ t, step s = .next t ∧ Faulted .unsupportedEncoding w s t) ∧
      (classify w = .singleDataTransfer → (decodeWord w).executes = false →
        ∃ t, step s = .next t ∧ Faulted .unsupportedEncoding w s t) ∧
      (classify w = .conditionalBranch → (decodeWord w).executes = false →
        ∃ t, step s = .next t ∧ Faulted .undefinedCondition w s t) ∧
      (∀ t, step s = .next t → t.faultCode = some .invalidMemoryAccess → s.faultCode = none →
        (decodeWord w).executes = true ∧ (decodeWord w).accessesMemory = true)

/-- The single-instruction livelocks (spec/45_sequencer.md R150, spec/70_reset_and_hazards.md R200): BX pc, and a branch to
itself whose condition holds, leave the whole state as it was; CMP and STR with bits 15:12 = 15 reach after one step a state
that every later step leaves as it is. For STR the rule is stated where the store does not hit the STR's own word: there the
next step fetches the word just written (spec/20_memory.md R47; log 12). -/
def Obligations.LivelocksChangeNothing : Prop :=
  ∀ (s : State) (w : Word), StateInv s → s.runState = .running → s.fetch = some w →
    (decodeWord w = .bx Reg.pc → step s = .next s) ∧
    (∀ r ∈ branchRowsOf, decodeWord w = r.plain 0xFFFFFE#24 → r.holds s.flags = true → step s = .next s) ∧
    ((∃ rn imm8, decodeWord w = .cmpImm Reg.pc rn imm8) ∨ (∃ rn rm, decodeWord w = .cmpReg Reg.pc rn rm) →
      ∃ t, step s = .next t ∧ t.pc = s.pc ∧ step t = .next t) ∧
    (∀ ea : Word, ((∃ rn imm8, decodeWord w = .strImm Reg.pc rn imm8 ∧ ea = s.reg rn + imm8.setWidth 32) ∨
        (∃ rn rm shamt, decodeWord w = .strReg Reg.pc rn rm shamt ∧ ea = s.reg rn + (s.reg rm <<< shamt.toNat))) →
      ea.toNat % 4 = 0 → s.mem.isMapped ea = true → ea ≠ s.pc →
      ∃ t, step s = .next t ∧ t.pc = s.pc ∧ t.mem.wordAt ea.toNat = s.pc ∧ step t = .next t)

/-- Register 15 as an operand reads as the address of the instruction itself, with nothing added
(spec/42_data_processing.md R101, spec/44_single_data_transfer.md R137). -/
def Obligations.RegisterFifteenReadsAsTheOwnAddress : Prop :=
  (∀ (rd : Reg) (imm8 : BitVec 8) (s : State), ∃ t, exec (.addImm rd Reg.pc imm8) s = .next t ∧
    t.reg rd = s.pc + imm8.setWidth 32) ∧
  (∀ (rd rn : Reg) (s : State), ∃ t, exec (.addReg rd rn Reg.pc) s = .next t ∧ t.reg rd = s.reg rn + s.pc) ∧
  (∀ (rd : Reg) (s : State), ∃ t, exec (.movReg rd Reg.pc) s = .next t ∧ t.reg rd = s.pc) ∧
  (∀ (rd : Reg) (imm8 : BitVec 8) (s : State) (ea : Word), ea = s.pc + imm8.setWidth 32 → ea.toNat % 4 = 0 →
    s.mem.isMapped ea = true →
    ∃ t, exec (.ldrImm rd Reg.pc imm8) s = .next t ∧ t.reg rd = s.mem.wordAt ea.toNat) ∧
  (∀ (rd rn : Reg) (shamt : BitVec 5) (s : State) (ea : Word), ea = s.reg rn + (s.pc <<< shamt.toNat) →
    ea.toNat % 4 = 0 → s.mem.isMapped ea = true →
    ∃ t, exec (.ldrReg rd rn Reg.pc shamt) s = .next t ∧ t.reg rd = s.mem.wordAt ea.toNat)

/-- Words of no family: which they are, and that executing one enters the fault UnrecognizedInstruction with the word
(spec/60_exceptions.md R156). -/
def Obligations.UnrecognisedWordsFault : Prop :=
  (∀ w : Word, (w.extractLsb' 25 3 = 0b100#3 ∨ w.extractLsb' 26 2 = 0b11#2) ↔
    ∃ mk ∈ unrecognisedWords, decodeWord w = mk w) ∧
  ∀ mk ∈ unrecognisedWords, ∀ (iw : Word) (s : State), ∃ t, exec (mk iw) s = .next t ∧
    Faulted .unrecognizedInstruction iw s t

/-- The fault codes (spec/60_exceptions.md R160). -/
def Obligations.FaultCodesAreNumbered : Prop :=
  faultNumber none = 0 ∧ faultNumber (some .unrecognizedInstruction) = 1 ∧
    faultNumber (some .invalidMemoryAccess) = 2 ∧ faultNumber (some .undefinedCondition) = 3 ∧
    faultNumber (some .unsupportedEncoding) = 4

/-- Run does not step past the end of a run: more fuel gives the same state, and the host reads the same report
(spec/45_sequencer.md R147, R148). -/
def Obligations.ARunThatEndedStaysEnded : Prop :=
  ∀ (n k : Nat) (s : State), (State.run n s).runState ≠ .running →
    State.run (n + k) s = State.run n s ∧ State.run k (State.run n s) = State.run n s ∧
      (State.run (n + k) s).report =
        (if (State.run n s).runState = .halted then .result ((State.run n s).reg 0)
          else .failure (faultNumber (State.run n s).faultCode) (State.run n s).faultPc (State.run n s).faultInfo)

/-- The word placed for the next fetch is the one the next step runs. A property of the model's own loader (log 8). -/
def Obligations.AFetchWordIsTheNextInstruction : Prop :=
  ∀ (s : State) (w : Nat), s.mem.wf → s.runState = .running → s.pc.toNat % 4 = 0 →
    (s.withFetchWord 32 w).fetch = some (BitVec.ofNat 32 w) ∧ (s.withFetchWord 32 w).mem.wf ∧
      step (s.withFetchWord 32 w) =
        completeStep (exec (decodeWord (BitVec.ofNat 32 w)) (s.withFetchWord 32 w))

/-! ### Reset and the invariant -/

/-- Initialize: every register, the flag word, the fault record, the run state, the zeroed stack buffer, and memory outside it
kept, from any state and for any stack buffer whose numbers meet their constraints (spec/10_state.md R28,
spec/70_reset_and_hazards.md R180, R181, R186). -/
def Obligations.InitializeSetsTheResetValues : Prop :=
  ∀ (s : State) (p : Params) (entry a0 a1 a2 a3 : Word), p.inSpace →
    ∃ t, t = s.initialize p entry a0 a1 a2 a3 ∧
      t.reg 0 = a0 ∧ t.reg 1 = a1 ∧ t.reg 2 = a2 ∧ t.reg 3 = a3 ∧
      (∀ r : Reg, 4 ≤ r.val → r.val ≤ 12 → t.reg r = 0#32) ∧
      (t.reg Reg.sp).toNat = p.stackBase.toNat + 4 * p.stackWords ∧ t.reg Reg.lr = 0#32 ∧ t.pc = entry ∧
      t.flags = 0#32 ∧ t.faultCode = none ∧ t.faultPc = 0#32 ∧ t.faultInfo = 0#32 ∧
      t.runState = (if entry = 0#32 then .halted else .running) ∧
      (∀ a : Nat, t.mem.byteAt a =
        if p.stackBase.toNat ≤ a ∧ a < p.stackBase.toNat + 4 * p.stackWords then 0#8 else s.mem.byteAt a) ∧
      t.mem.mapped = s.mem.mapped

/-- Initialize discards everything of the previous run but memory outside the stack buffer: two states whose memories agree
there become equal (spec/70_reset_and_hazards.md R185). -/
def Obligations.InitializeForgetsThePreviousRun : Prop :=
  ∀ (s u : State) (p : Params) (entry a0 a1 a2 a3 : Word), s.mem.wf → u.mem.wf → s.mem.mapped = u.mem.mapped →
    (∀ a : Nat, ¬ (p.stackBase.toNat ≤ a ∧ a < p.stackBase.toNat + 4 * p.stackWords) →
      s.mem.byteAt a = u.mem.byteAt a) →
    s.initialize p entry a0 a1 a2 a3 = u.initialize p entry a0 a1 a2 a3

/-- `State.reset` is what Initialize gives, with the parameters the model chose (log 3 to 7), on any state whose memory is
the chosen initial image. -/
def Obligations.ResetIsInitializeOfTheChosenParameters : Prop :=
  ∀ s : State, s.mem = Memory.reset →
    s.initialize Config.params Config.entry Config.arg0 Config.arg1 Config.arg2 Config.arg3 = State.reset

/-- The reset state meets the invariant. -/
def Obligations.ResetMeetsTheInvariant : Prop := StateInv State.reset

/-- Initialize gives a state that meets the invariant, from any state with a memory in canonical form, for any parameters
(spec/10_state.md R22, R28; spec/45_sequencer.md R143). -/
def Obligations.InitializeEstablishesTheInvariant : Prop :=
  ∀ (s : State) (p : Params) (entry a0 a1 a2 a3 : Word), s.mem.wf → StateInv (s.initialize p entry a0 a1 a2 a3)

/-- Every step keeps the invariant: canonical memory, bits 31:4 of `flags` zero, Halted exactly at program counter 0, so that
a running core never fetches from address 0, and a fault record that agrees with the run state (spec/10_state.md R22, R29;
spec/45_sequencer.md R142, R154; spec/60_exceptions.md R161 to R163). -/
def Obligations.EveryStepKeepsTheInvariant : Prop :=
  ∀ s t : State, StateInv s → step s = .next t → StateInv t

/-- The stack buffer: for parameters that meet all their constraints, "every word of the stack buffer is mapped" among them,
every word of it reads as zero after Initialize, and neither Initialize nor any step unmaps one (spec/00_scope.md R9,
spec/10_state.md R24, R28). -/
def Obligations.TheStackBufferIsMappedAndReadsZeroAfterInitialize : Prop :=
  ∀ (s : State) (p : Params), p.wf s.mem →
    (∀ entry a0 a1 a2 a3 : Word, p.wf (s.initialize p entry a0 a1 a2 a3).mem ∧
      ∀ k < p.stackWords, (s.initialize p entry a0 a1 a2 a3).memRead (p.stackWord k) = some 0#32) ∧
    ∀ t : State, step s = .next t → p.wf t.mem
end

