-- ==== Sys2Proof/Laws/Decode.lean ====
section
/-! SUPPORT. The laws of fields, rows and the classifier: a field of a concatenation, a row's mask and pattern as
conditions on fields, and what each classifier predicate says of the bits the executors look at. -/

namespace Sys2Proof

/-! ### Fields of a concatenation -/

/-- A field inside the low part. -/
theorem field_append_low {n m : Nat} (x : BitVec n) (y : BitVec m) {lo len : Nat} (h : lo + len ≤ m) :
    (x ++ y).extractLsb' lo len = y.extractLsb' lo len := by
  apply BitVec.eq_of_getLsbD_eq
  intro i hi
  simp only [BitVec.getLsbD_extractLsb', BitVec.getLsbD_append, hi, decide_true, Bool.true_and,
    show lo + i < m by omega, if_true]

/-- A field inside the high part. -/
theorem field_append_high {n m : Nat} (x : BitVec n) (y : BitVec m) {lo len : Nat} (h : m ≤ lo) :
    (x ++ y).extractLsb' lo len = x.extractLsb' (lo - m) len := by
  apply BitVec.eq_of_getLsbD_eq
  intro i hi
  simp only [BitVec.getLsbD_extractLsb', BitVec.getLsbD_append, hi, decide_true, Bool.true_and,
    show ¬ lo + i < m by omega, if_false, show lo + i - m = lo - m + i by omega]

/-- The whole of a vector as a field. -/
theorem field_whole {n : Nat} (x : BitVec n) : x.extractLsb' 0 n = x := BitVec.extractLsb'_eq_self

/-- A field of a field. -/
theorem field_field {n : Nat} (w : BitVec n) {lo len lo' len' : Nat} (h : lo' + len' ≤ len) :
    (w.extractLsb' lo len).extractLsb' lo' len' = w.extractLsb' (lo + lo') len' := by
  apply BitVec.eq_of_getLsbD_eq
  intro i hi
  simp only [BitVec.getLsbD_extractLsb', hi, decide_true, Bool.true_and, show lo' + i < len by omega,
    Nat.add_assoc]

/-- A field of a word that has another field equal to `c`, where the first lies inside the second. -/
theorem field_of_field_eq {n : Nat} {w : BitVec n} {lo len : Nat} {c : BitVec len}
    (h : w.extractLsb' lo len = c) {lo' len' : Nat} (hlo : lo ≤ lo') (hlen : lo' - lo + len' ≤ len) :
    w.extractLsb' lo' len' = c.extractLsb' (lo' - lo) len' := by
  rw [← h, field_field w hlen, show lo + (lo' - lo) = lo' by omega]

/-- A single bit as a field of length 1. -/
theorem bit_eq_iff {n : Nat} (w : BitVec n) (k : Nat) (b : Bool) :
    w.getLsbD k = b ↔ w.extractLsb' k 1 = BitVec.ofBool b := by
  constructor
  · rintro rfl
    apply BitVec.eq_of_getLsbD_eq
    intro i hi
    obtain rfl : i = 0 := by omega
    simp
  · intro h
    have := congrArg (fun x => x.getLsbD 0) h
    simpa using this

@[simp] theorem toFin_regBits (r : Reg) : (regBits r).toFin = r := rfl

/-! ### Rows as conditions on fields -/

/-- A mask that is one run of ones tests one field. -/
theorem and_mask_eq_iff {w mask value : Word} (k n : Nat)
    (hm : ∀ i < 32, mask.getLsbD i = decide (k ≤ i ∧ i < k + n)) (hv : value &&& mask = value) (hk : k + n ≤ 32) :
    (w &&& mask = value) ↔ w.extractLsb' k n = value.extractLsb' k n := by
  constructor
  · rintro rfl
    apply BitVec.eq_of_getLsbD_eq
    intro i hi
    simp only [BitVec.getLsbD_extractLsb', hi, decide_true, Bool.true_and, BitVec.getLsbD_and]
    rw [hm (k + i) (by omega)]
    simp [hi]
  · intro h
    apply BitVec.eq_of_getLsbD_eq
    intro i hi
    have hvi := congrArg (fun x => x.getLsbD i) hv
    simp only [BitVec.getLsbD_and, hm i hi] at hvi ⊢
    by_cases hin : k ≤ i ∧ i < k + n
    · have := congrArg (fun x => x.getLsbD (i - k)) h
      simp only [BitVec.getLsbD_extractLsb', show i - k < n by omega, decide_true, Bool.true_and,
        show k + (i - k) = i by omega] at this
      simp [hin, this]
    · simp only [hin, decide_false, Bool.and_false] at hvi ⊢
      exact hvi

/-- A mask of two parts tests both. -/
theorem and_or_eq_iff (w m1 m2 value : Word) (hv : value &&& (m1 ||| m2) = value) :
    (w &&& (m1 ||| m2) = value) ↔ w &&& m1 = value &&& m1 ∧ w &&& m2 = value &&& m2 := by
  constructor
  · rintro rfl
    constructor <;>
    · apply BitVec.eq_of_getLsbD_eq
      intro i hi
      simp only [BitVec.getLsbD_and, BitVec.getLsbD_or]
      cases w.getLsbD i <;> cases m1.getLsbD i <;> cases m2.getLsbD i <;> rfl
  · rintro ⟨h1, h2⟩
    rw [← hv]
    apply BitVec.eq_of_getLsbD_eq
    intro i hi
    have e1 := congrArg (fun x => x.getLsbD i) h1
    have e2 := congrArg (fun x => x.getLsbD i) h2
    simp only [BitVec.getLsbD_and, BitVec.getLsbD_or] at e1 e2 ⊢
    revert e1 e2
    cases w.getLsbD i <;> cases m1.getLsbD i <;> cases m2.getLsbD i <;> cases value.getLsbD i <;> simp

theorem fits_iff (r : Row) (w : Word) : r.fits w = true ↔ w &&& r.mask = r.value := by
  simp [Row.fits]

/-- The BX row is the BX predicate (40_classifier.md R72). -/
theorem fits_bx_iff (w : Word) : Row.bx.fits w = true ↔ isBX w = true := by
  rw [fits_iff, Row.bx, and_mask_eq_iff 4 24 (by decide) (by decide) (by decide)]
  simp [isBX]

/-- The row of an undefined condition: the condition field and the family. -/
theorem fits_undefinedCondition_iff (cond : BitVec 4) (w : Word) :
    (Row.undefinedCondition cond).fits w = true ↔ condField w = cond ∧ isB w = true := by
  rw [fits_iff, Row.undefinedCondition]
  simp only
  rw [and_mask_eq_iff 25 7 (by decide) (by revert cond; decide) (by decide)]
  have e : (cond ++ (0b101#3 ++ 0#25) : Word).extractLsb' 25 7 = cond ++ 0b101#3 := by
    revert cond; decide
  rw [e]
  simp only [condField, isB, beq_iff_eq]
  constructor
  · intro h
    have h1 := field_of_field_eq h (lo' := 28) (len' := 4) (by decide) (by decide)
    have h2 := field_of_field_eq h (lo' := 25) (len' := 3) (by decide) (by decide)
    have k : ∀ c : BitVec 4, (c ++ 0b101#3).extractLsb' 3 4 = c ∧ (c ++ 0b101#3).extractLsb' 0 3 = 0b101#3 := by
      decide
    exact ⟨h1.trans (k cond).1, h2.trans (k cond).2⟩
  · rintro ⟨rfl, h⟩
    rw [← h, BitVec.extractLsb'_append_extractLsb'_eq_extractLsb' (by decide)]

/-- The row of a branch with a defined condition: the condition field, the family and the link flag. -/
theorem fits_branch_iff (cond : BitVec 4) (link : Bool) (w : Word) :
    (Row.branch cond link).fits w = true ↔ condField w = cond ∧ isB w = true ∧ linkField w = link := by
  rw [fits_iff, Row.branch]
  simp only
  rw [and_mask_eq_iff 24 8 (by decide) (by revert cond link; decide) (by decide)]
  have e : (cond ++ (0b101#3 ++ (BitVec.ofBool link ++ 0#24)) : Word).extractLsb' 24 8 =
      cond ++ (0b101#3 ++ BitVec.ofBool link) := by revert cond link; decide
  rw [e]
  simp only [condField, isB, linkField, beq_iff_eq, bit_eq_iff]
  constructor
  · intro h
    have h1 := field_of_field_eq h (lo' := 28) (len' := 4) (by decide) (by decide)
    have h2 := field_of_field_eq h (lo' := 25) (len' := 3) (by decide) (by decide)
    have h3 := field_of_field_eq h (lo' := 24) (len' := 1) (by decide) (by decide)
    have k : ∀ (c : BitVec 4) (l : Bool), (c ++ (0b101#3 ++ BitVec.ofBool l)).extractLsb' 4 4 = c ∧
        (c ++ (0b101#3 ++ BitVec.ofBool l)).extractLsb' 1 3 = 0b101#3 ∧
        (c ++ (0b101#3 ++ BitVec.ofBool l)).extractLsb' 0 1 = BitVec.ofBool l := by decide
    exact ⟨h1.trans (k cond link).1, h2.trans (k cond link).2.1, h3.trans (k cond link).2.2⟩
  · rintro ⟨rfl, h2, h3⟩
    rw [← h2, ← h3, BitVec.extractLsb'_append_extractLsb'_eq_extractLsb' (by decide),
      BitVec.extractLsb'_append_extractLsb'_eq_extractLsb' (by decide)]

/-- The row of a data-processing opcode: the family, the form and the opcode field. -/
theorem fits_dataProcessing_iff (immediate : Bool) (opcode : BitVec 4) (w : Word) :
    (Row.dataProcessing immediate opcode).fits w = true ↔
      isDP w = true ∧ bit25 w = immediate ∧ opcodeField w = opcode := by
  rw [fits_iff, Row.dataProcessing]
  simp only
  rw [and_mask_eq_iff 21 7 (by decide) (by revert immediate opcode; decide) (by decide)]
  have e : (0b000000#6 ++ (BitVec.ofBool immediate ++ (opcode ++ 0#21)) : Word).extractLsb' 21 7 =
      0b00#2 ++ (BitVec.ofBool immediate ++ opcode) := by revert immediate opcode; decide
  rw [e]
  simp only [isDP, bit25, opcodeField, beq_iff_eq, bit_eq_iff]
  constructor
  · intro h
    have h1 := field_of_field_eq h (lo' := 26) (len' := 2) (by decide) (by decide)
    have h2 := field_of_field_eq h (lo' := 25) (len' := 1) (by decide) (by decide)
    have h3 := field_of_field_eq h (lo' := 21) (len' := 4) (by decide) (by decide)
    have k : ∀ (i : Bool) (o : BitVec 4), (0b00#2 ++ (BitVec.ofBool i ++ o)).extractLsb' 5 2 = 0b00#2 ∧
        (0b00#2 ++ (BitVec.ofBool i ++ o)).extractLsb' 4 1 = BitVec.ofBool i ∧
        (0b00#2 ++ (BitVec.ofBool i ++ o)).extractLsb' 0 4 = o := by decide
    exact ⟨h1.trans (k immediate opcode).1, h2.trans (k immediate opcode).2.1, h3.trans (k immediate opcode).2.2⟩
  · rintro ⟨h1, h2, rfl⟩
    rw [← h1, ← h2, BitVec.extractLsb'_append_extractLsb'_eq_extractLsb' (by decide),
      BitVec.extractLsb'_append_extractLsb'_eq_extractLsb' (by decide)]

/-- The row of the implemented load/store mode: the family, the form, P : U : B = 110 and the load flag. -/
theorem fits_transfer_iff (register load : Bool) (w : Word) :
    (Row.transfer register load).fits w = true ↔
      isSDT w = true ∧ bit25 w = register ∧ w.extractLsb' 22 3 = 0b110#3 ∧ loadField w = load := by
  have hmask : (0x0FD00000#32) = 0x0FC00000#32 ||| 0x00100000#32 := by decide
  rw [fits_iff, Row.transfer]
  simp only
  rw [hmask, and_or_eq_iff _ _ _ _ (by revert register load; decide),
    and_mask_eq_iff 22 6 (by decide) (by revert register load; decide) (by decide),
    and_mask_eq_iff 20 1 (by decide) (by revert register load; decide) (by decide)]
  have e1 : ((0b000001#6 ++ (BitVec.ofBool register ++ (0b110#3 ++ (0#1 ++ (BitVec.ofBool load ++ 0#20)))) : Word)
      &&& 0x0FC00000#32).extractLsb' 22 6 = 0b01#2 ++ (BitVec.ofBool register ++ 0b110#3) := by
    revert register load; decide
  have e2 : ((0b000001#6 ++ (BitVec.ofBool register ++ (0b110#3 ++ (0#1 ++ (BitVec.ofBool load ++ 0#20)))) : Word)
      &&& 0x00100000#32).extractLsb' 20 1 = BitVec.ofBool load := by
    revert register load; decide
  rw [e1, e2]
  simp only [isSDT, bit25, loadField, beq_iff_eq, bit_eq_iff]
  constructor
  · rintro ⟨h, h4⟩
    have h1 := field_of_field_eq h (lo' := 26) (len' := 2) (by decide) (by decide)
    have h2 := field_of_field_eq h (lo' := 25) (len' := 1) (by decide) (by decide)
    have h3 := field_of_field_eq h (lo' := 22) (len' := 3) (by decide) (by decide)
    have k : ∀ r : Bool, (0b01#2 ++ (BitVec.ofBool r ++ 0b110#3)).extractLsb' 4 2 = 0b01#2 ∧
        (0b01#2 ++ (BitVec.ofBool r ++ 0b110#3)).extractLsb' 3 1 = BitVec.ofBool r ∧
        (0b01#2 ++ (BitVec.ofBool r ++ 0b110#3)).extractLsb' 0 3 = 0b110#3 := by decide
    exact ⟨h1.trans (k register).1, h2.trans (k register).2.1, h3.trans (k register).2.2, h4⟩
  · rintro ⟨h1, h2, h3, h4⟩
    refine ⟨?_, h4⟩
    rw [← h1, ← h2, ← h3, BitVec.extractLsb'_append_extractLsb'_eq_extractLsb' (by decide),
      BitVec.extractLsb'_append_extractLsb'_eq_extractLsb' (by decide)]

/-- A mask of the SDT family and one mode bit. -/
theorem fits_sdtBit_iff (k : Nat) (b : Bool) (r : Row) (w : Word) (hk : k < 26)
    (hm : r.mask = 0x0C000000#32 ||| 1#32 <<< k)
    (hv : r.value = 0x04000000#32 ||| (if b then 1#32 <<< k else 0#32)) :
    r.fits w = true ↔ isSDT w = true ∧ w.getLsbD k = b := by
  rw [fits_iff, hm, hv]
  have hd : ∀ k < 26, ∀ b : Bool, (0x04000000#32 ||| (if b then 1#32 <<< k else 0#32)) &&& (0x0C000000#32 ||| 1#32 <<< k) =
        (0x04000000#32 ||| (if b then 1#32 <<< k else 0#32)) ∧
      (0x04000000#32 ||| (if b then 1#32 <<< k else 0#32)) &&& 0x0C000000#32 = 0x04000000#32 ∧
      (0x04000000#32 ||| (if b then 1#32 <<< k else 0#32)) &&& (1#32 <<< k) =
        (if b then 1#32 <<< k else 0#32) ∧
      (if b then 1#32 <<< k else 0#32) &&& (1#32 <<< k) = (if b then 1#32 <<< k else 0#32) ∧
      (if b then 1#32 <<< k else 0#32).extractLsb' k 1 = BitVec.ofBool b := by decide
  have hmk : ∀ k < 26, ∀ i < 32, (1#32 <<< k).getLsbD i = decide (k ≤ i ∧ i < k + 1) := by decide
  obtain ⟨d2, d3, d4, d5, d6⟩ := hd k hk b
  rw [and_or_eq_iff _ _ _ _ d2, d3, d4,
    and_mask_eq_iff 26 2 (by decide) (by decide) (by decide),
    and_mask_eq_iff k 1 (hmk k hk) d5 (by omega), d6, bit_eq_iff]
  simp [isSDT]

theorem fits_postIndexed_iff (w : Word) :
    Row.postIndexed.fits w = true ↔ isSDT w = true ∧ w.getLsbD 24 = false :=
  fits_sdtBit_iff 24 false _ w (by decide) (by decide) (by decide)

theorem fits_downward_iff (w : Word) :
    Row.downward.fits w = true ↔ isSDT w = true ∧ w.getLsbD 23 = false :=
  fits_sdtBit_iff 23 false _ w (by decide) (by decide) (by decide)

theorem fits_byte_iff (w : Word) : Row.byte.fits w = true ↔ isSDT w = true ∧ w.getLsbD 22 = true :=
  fits_sdtBit_iff 22 true _ w (by decide) (by decide) (by decide)

theorem fits_unrecognised100_iff (w : Word) :
    Row.unrecognised100.fits w = true ↔ w.extractLsb' 25 3 = 0b100#3 := by
  rw [fits_iff, Row.unrecognised100, and_mask_eq_iff 25 3 (by decide) (by decide) (by decide)]
  simp

theorem fits_unrecognised11_iff (w : Word) :
    Row.unrecognised11.fits w = true ↔ w.extractLsb' 26 2 = 0b11#2 := by
  rw [fits_iff, Row.unrecognised11, and_mask_eq_iff 26 2 (by decide) (by decide) (by decide)]
  simp

/-! ### The classifier -/

/-- A BX word lies in the data-processing space, register form, opcode 1001 (40_classifier.md R74,
30_encoding.md R62). -/
theorem fields_of_isBX {w : Word} (h : isBX w = true) :
    w.extractLsb' 25 3 = 0b000#3 ∧ w.extractLsb' 26 2 = 0b00#2 ∧ bit25 w = false ∧ opcodeField w = 0b1001#4 := by
  rw [isBX, beq_iff_eq] at h
  refine ⟨?_, ?_, ?_, ?_⟩
  · rw [field_of_field_eq h (lo' := 25) (len' := 3) (by decide) (by decide)]; decide
  · rw [field_of_field_eq h (lo' := 26) (len' := 2) (by decide) (by decide)]; decide
  · rw [bit25, bit_eq_iff, field_of_field_eq h (lo' := 25) (len' := 1) (by decide) (by decide)]; decide
  · rw [opcodeField, field_of_field_eq h (lo' := 21) (len' := 4) (by decide) (by decide)]; decide

/-- Bits 27:26 of a word with given bits 27:25. -/
theorem bits27_26_of_bits27_25 {w : Word} {c : BitVec 3} (h : w.extractLsb' 25 3 = c) :
    w.extractLsb' 26 2 = c.extractLsb' 1 2 :=
  field_of_field_eq h (by decide) (by decide)

/-- The family by bits 27:26 and 27:25, BX words apart. -/
theorem classify_eq (w : Word) (h : isBX w = false) :
    classify w = if w.extractLsb' 25 3 = 0b101#3 then .conditionalBranch
      else if w.extractLsb' 26 2 = 0b00#2 then .dataProcessing
      else if w.extractLsb' 26 2 = 0b01#2 then .singleDataTransfer else .unrecognised := by
  simp [classify, h, isB, isDP, isSDT]

theorem isBX_eq_false_of_field {w : Word} {c : BitVec 3} (h : w.extractLsb' 25 3 = c) (hc : c ≠ 0b000#3) :
    isBX w = false := by
  cases hb : isBX w
  · rfl
  · exact absurd ((h.symm.trans (fields_of_isBX hb).1)) hc

theorem decodeWord_of_isBX {w : Word} (h : isBX w = true) : decodeWord w = .bx (rmField w) := by
  simp [decodeWord, classify, h]

theorem decodeWord_of_isB {w : Word} (h : isB w = true) : decodeWord w = decodeBranch w := by
  have h' : w.extractLsb' 25 3 = 0b101#3 := by simpa [isB] using h
  rw [decodeWord, classify_eq w (isBX_eq_false_of_field h' (by decide)), if_pos h']

theorem decodeWord_of_isDP {w : Word} (h : isDP w = true) (hb : isBX w = false) :
    decodeWord w = decodeDataProcessing w := by
  have h' : w.extractLsb' 26 2 = 0b00#2 := by simpa [isDP] using h
  have hn : w.extractLsb' 25 3 ≠ 0b101#3 := fun hc => by
    rw [bits27_26_of_bits27_25 hc] at h'
    exact absurd h' (by decide)
  rw [decodeWord, classify_eq w hb, if_neg hn, if_pos h']

theorem decodeWord_of_isSDT {w : Word} (h : isSDT w = true) : decodeWord w = decodeSingleDataTransfer w := by
  have h' : w.extractLsb' 26 2 = 0b01#2 := by simpa [isSDT] using h
  have hb : isBX w = false := by
    cases hb : isBX w
    · rfl
    · rw [(fields_of_isBX hb).2.1] at h'
      exact absurd h' (by decide)
  have hn : w.extractLsb' 25 3 ≠ 0b101#3 := fun hc => by
    rw [bits27_26_of_bits27_25 hc] at h'
    exact absurd h' (by decide)
  rw [decodeWord, classify_eq w hb, if_neg hn, if_neg (by rw [h']; decide), if_pos h']

theorem decodeWord_of_unrecognised100 {w : Word} (h : w.extractLsb' 25 3 = 0b100#3) :
    decodeWord w = .unrecognised100 w := by
  have h26 : w.getLsbD 26 = false := by
    rw [bit_eq_iff, field_of_field_eq h (lo' := 26) (len' := 1) (by decide) (by decide)]; decide
  rw [decodeWord, classify_eq w (isBX_eq_false_of_field h (by decide)), bits27_26_of_bits27_25 h, h]
  exact if_neg (by rw [h26]; decide)

theorem decodeWord_of_unrecognised11 {w : Word} (h : w.extractLsb' 26 2 = 0b11#2) :
    decodeWord w = .unrecognised11 w := by
  have hb : isBX w = false := by
    cases hb : isBX w
    · rfl
    · rw [(fields_of_isBX hb).2.1] at h
      exact absurd h (by decide)
  have hn : w.extractLsb' 25 3 ≠ 0b101#3 := fun hc => by
    rw [bits27_26_of_bits27_25 hc] at h
    exact absurd h (by decide)
  have h26 : w.getLsbD 26 = true := by
    rw [bit_eq_iff, field_of_field_eq h (lo' := 26) (len' := 1) (by decide) (by decide)]; decide
  rw [decodeWord, classify_eq w hb, if_neg hn, if_neg (by rw [h]; decide), if_neg (by rw [h]; decide)]
  exact if_pos h26

/-- Every word is BX, or of one of the other kinds by its bits 27:25. -/
theorem word_cases (w : Word) :
    isBX w = true ∨ isB w = true ∨ (isDP w = true ∧ isBX w = false) ∨ isSDT w = true ∨
      w.extractLsb' 25 3 = 0b100#3 ∨ w.extractLsb' 26 2 = 0b11#2 := by
  cases hb : isBX w
  · have h3 : ∀ c : BitVec 3, c = 0b101#3 ∨ c.extractLsb' 1 2 = 0b00#2 ∨ c.extractLsb' 1 2 = 0b01#2 ∨
        c = 0b100#3 ∨ c.extractLsb' 1 2 = 0b11#2 := by decide
    have h26 := bits27_26_of_bits27_25 (w := w) rfl
    have := h3 (w.extractLsb' 25 3)
    rw [← h26] at this
    simpa [isB, isDP, isSDT] using this
  · exact .inl rfl

end Sys2Proof
end

