-- ==== Sys2Proof/Laws/State.lean ====
section
/-! SUPPORT. One lemma per field per update of the state, so that no proof unfolds a record update, and the laws of
reading and writing registers. -/

namespace Sys2Proof.Machine

variable (s : State) (r q : Reg) (v : Word) (k : FaultKind)

/-! ### Fields after an update -/

@[simp] theorem State.setReg_flags : (s.setReg r v).flags = s.flags := rfl
@[simp] theorem State.setReg_runState : (s.setReg r v).runState = s.runState := rfl
@[simp] theorem State.setReg_faultCode : (s.setReg r v).faultCode = s.faultCode := rfl
@[simp] theorem State.setReg_faultPc : (s.setReg r v).faultPc = s.faultPc := rfl
@[simp] theorem State.setReg_faultInfo : (s.setReg r v).faultInfo = s.faultInfo := rfl
@[simp] theorem State.setReg_mem : (s.setReg r v).mem = s.mem := rfl

@[simp] theorem State.setPc_flags : (s.setPc v).flags = s.flags := rfl
@[simp] theorem State.setPc_runState : (s.setPc v).runState = s.runState := rfl
@[simp] theorem State.setPc_faultCode : (s.setPc v).faultCode = s.faultCode := rfl
@[simp] theorem State.setPc_faultPc : (s.setPc v).faultPc = s.faultPc := rfl
@[simp] theorem State.setPc_faultInfo : (s.setPc v).faultInfo = s.faultInfo := rfl
@[simp] theorem State.setPc_mem : (s.setPc v).mem = s.mem := rfl

@[simp] theorem State.advance_flags : (s.advance).flags = s.flags := rfl
@[simp] theorem State.advance_runState : (s.advance).runState = s.runState := rfl
@[simp] theorem State.advance_faultCode : (s.advance).faultCode = s.faultCode := rfl
@[simp] theorem State.advance_faultPc : (s.advance).faultPc = s.faultPc := rfl
@[simp] theorem State.advance_faultInfo : (s.advance).faultInfo = s.faultInfo := rfl
@[simp] theorem State.advance_mem : (s.advance).mem = s.mem := rfl

@[simp] theorem State.setFlags_flags : (s.setFlags v).flags = v := rfl
@[simp] theorem State.setFlags_regs : (s.setFlags v).regs = s.regs := rfl
@[simp] theorem State.setFlags_runState : (s.setFlags v).runState = s.runState := rfl
@[simp] theorem State.setFlags_faultCode : (s.setFlags v).faultCode = s.faultCode := rfl
@[simp] theorem State.setFlags_faultPc : (s.setFlags v).faultPc = s.faultPc := rfl
@[simp] theorem State.setFlags_faultInfo : (s.setFlags v).faultInfo = s.faultInfo := rfl
@[simp] theorem State.setFlags_mem : (s.setFlags v).mem = s.mem := rfl

@[simp] theorem State.raise_runState : (s.raise k v).runState = .faulted := rfl
@[simp] theorem State.raise_faultCode : (s.raise k v).faultCode = some k := rfl
@[simp] theorem State.raise_faultPc : (s.raise k v).faultPc = s.pc := rfl
@[simp] theorem State.raise_faultInfo : (s.raise k v).faultInfo = v := rfl
@[simp] theorem State.raise_regs : (s.raise k v).regs = s.regs := rfl
@[simp] theorem State.raise_flags : (s.raise k v).flags = s.flags := rfl
@[simp] theorem State.raise_mem : (s.raise k v).mem = s.mem := rfl

@[simp] theorem State.advanceUnlessPc_flags : (s.advanceUnlessPc r).flags = s.flags := by
  unfold State.advanceUnlessPc; split <;> rfl
@[simp] theorem State.advanceUnlessPc_runState : (s.advanceUnlessPc r).runState = s.runState := by
  unfold State.advanceUnlessPc; split <;> rfl
@[simp] theorem State.advanceUnlessPc_faultCode : (s.advanceUnlessPc r).faultCode = s.faultCode := by
  unfold State.advanceUnlessPc; split <;> rfl
@[simp] theorem State.advanceUnlessPc_faultPc : (s.advanceUnlessPc r).faultPc = s.faultPc := by
  unfold State.advanceUnlessPc; split <;> rfl
@[simp] theorem State.advanceUnlessPc_faultInfo : (s.advanceUnlessPc r).faultInfo = s.faultInfo := by
  unfold State.advanceUnlessPc; split <;> rfl
@[simp] theorem State.advanceUnlessPc_mem : (s.advanceUnlessPc r).mem = s.mem := by
  unfold State.advanceUnlessPc; split <;> rfl

@[simp] theorem State.writeResult_flags : (s.writeResult r v).flags = s.flags := by
  simp [State.writeResult]
@[simp] theorem State.writeResult_runState : (s.writeResult r v).runState = s.runState := by
  simp [State.writeResult]
@[simp] theorem State.writeResult_faultCode : (s.writeResult r v).faultCode = s.faultCode := by
  simp [State.writeResult]
@[simp] theorem State.writeResult_faultPc : (s.writeResult r v).faultPc = s.faultPc := by
  simp [State.writeResult]
@[simp] theorem State.writeResult_faultInfo : (s.writeResult r v).faultInfo = s.faultInfo := by
  simp [State.writeResult]
@[simp] theorem State.writeResult_mem : (s.writeResult r v).mem = s.mem := by
  simp [State.writeResult]

@[simp] theorem State.haltTest_regs : (s.haltTest).regs = s.regs := by
  unfold State.haltTest; split <;> rfl
@[simp] theorem State.haltTest_flags : (s.haltTest).flags = s.flags := by
  unfold State.haltTest; split <;> rfl
@[simp] theorem State.haltTest_faultCode : (s.haltTest).faultCode = s.faultCode := by
  unfold State.haltTest; split <;> rfl
@[simp] theorem State.haltTest_faultPc : (s.haltTest).faultPc = s.faultPc := by
  unfold State.haltTest; split <;> rfl
@[simp] theorem State.haltTest_faultInfo : (s.haltTest).faultInfo = s.faultInfo := by
  unfold State.haltTest; split <;> rfl
@[simp] theorem State.haltTest_mem : (s.haltTest).mem = s.mem := by
  unfold State.haltTest; split <;> rfl

/-! ### Registers -/

/-- A read after a write of a register. -/
theorem State.reg_setReg : (s.setReg r v).reg q = if q = r then v else s.reg q := by
  simp only [State.reg, State.setReg, Vector.getElem_set, Fin.val_inj]
  exact if_congr eq_comm rfl rfl

@[simp] theorem State.reg_setReg_self : (s.setReg r v).reg r = v := by simp [State.reg_setReg]

theorem State.reg_setReg_ne (h : q ≠ r) : (s.setReg r v).reg q = s.reg q := by simp [State.reg_setReg, h]

@[simp] theorem State.reg_setFlags : (s.setFlags v).reg r = s.reg r := rfl
@[simp] theorem State.reg_raise (w : Word) : (s.raise k w).reg r = s.reg r := rfl
@[simp] theorem State.reg_haltTest : s.haltTest.reg r = s.reg r := by simp [State.reg]
@[simp] theorem State.pc_setFlags : (s.setFlags v).pc = s.pc := rfl
@[simp] theorem State.pc_raise (w : Word) : (s.raise k w).pc = s.pc := rfl
@[simp] theorem State.pc_haltTest : s.haltTest.pc = s.pc := by simp [State.pc]
@[simp] theorem State.pc_setPc : (s.setPc v).pc = v := by simp [State.pc, State.setPc]
@[simp] theorem State.pc_advance : s.advance.pc = s.pc + 4#32 := by simp [State.advance]

/-- The program counter is register 15. -/
theorem State.reg_pc : s.reg Reg.pc = s.pc := rfl

theorem State.pc_setReg : (s.setReg r v).pc = if r = Reg.pc then v else s.pc := by
  simp only [State.pc, State.reg_setReg]
  exact if_congr eq_comm rfl rfl

theorem State.reg_setPc : (s.setPc v).reg q = if q = Reg.pc then v else s.reg q := by
  simp [State.setPc, State.reg_setReg]

theorem State.reg_advance : s.advance.reg q = if q = Reg.pc then s.pc + 4#32 else s.reg q := by
  simp [State.advance, State.reg_setPc]

/-- The PC-advance rule: register 15 by the test on the field, every other register unchanged. -/
theorem State.reg_advanceUnlessPc :
    (s.advanceUnlessPc r).reg q =
      if q = Reg.pc then (if r = Reg.pc then s.pc else s.pc + 4#32) else s.reg q := by
  unfold State.advanceUnlessPc
  split
  · next h => by_cases hq : q = Reg.pc <;> simp [hq, State.reg_pc]
  · next h => simp [State.reg_advance]

theorem State.pc_advanceUnlessPc :
    (s.advanceUnlessPc r).pc = if r = Reg.pc then s.pc else s.pc + 4#32 := by
  simp [← State.reg_pc (s.advanceUnlessPc r), State.reg_advanceUnlessPc]

/-- All registers after the write of a result: the destination, the advanced program counter where the destination
is another register, and nothing else. -/
theorem State.reg_writeResult :
    (s.writeResult r v).reg q =
      if q = r then v else if q = Reg.pc then s.pc + 4#32 else s.reg q := by
  simp only [State.writeResult, State.reg_advanceUnlessPc, State.reg_setReg, State.pc_setReg]
  by_cases h1 : q = r <;> by_cases h2 : q = Reg.pc <;> by_cases h3 : r = Reg.pc <;> simp_all

theorem State.pc_writeResult :
    (s.writeResult r v).pc = if r = Reg.pc then v else s.pc + 4#32 := by
  rw [← State.reg_pc, State.reg_writeResult]
  by_cases h : r = Reg.pc <;> simp [h, eq_comm]

/-- Two states with equal registers, read one by one, and equal other fields are equal. -/
theorem State.ext_reg {s t : State} (hr : ∀ r : Reg, s.reg r = t.reg r) (hf : s.flags = t.flags)
    (hs : s.runState = t.runState) (hc : s.faultCode = t.faultCode) (hp : s.faultPc = t.faultPc)
    (hi : s.faultInfo = t.faultInfo) (hm : s.mem = t.mem) : s = t := by
  cases s; cases t
  simp only [State.mk.injEq]
  refine ⟨Vector.ext fun i hi => ?_, hf, hs, hc, hp, hi, hm⟩
  exact hr ⟨i, hi⟩

/-! ### The halt test -/

/-- What the halt test can do: halt a running core whose program counter is 0, else nothing. -/
theorem State.haltTest_cases :
    (s.runState = .running ∧ s.pc = 0#32 ∧ s.haltTest = { s with runState := .halted }) ∨
      (¬ (s.runState = .running ∧ s.pc = 0#32) ∧ s.haltTest = s) := by
  by_cases h : s.runState = .running ∧ s.pc = 0#32
  · exact .inl ⟨h.1, h.2, by simp [State.haltTest, h]⟩
  · exact .inr ⟨h, by simp [State.haltTest, h]⟩

end Sys2Proof.Machine
end

