-- ==== Sys2Proof/Laws/Memory.lean ====
section
/-! SUPPORT. The laws of memory: a read after a write, what a write leaves alone, and that every operation keeps the
canonical form `Memory.wf`. -/

namespace Sys2Proof.Machine

/-! ### Cells -/

theorem lookupCell_of_forall_lt {cells : List Host.Cell} {a : Nat} (h : ∀ c ∈ cells, a < c.1) :
    lookupCell cells a = Config.unlistedByte := by
  induction cells with
  | nil => rfl
  | cons c cells ih =>
    obtain ⟨b, w⟩ := c
    have hb : a < b := h (b, w) (by simp)
    simp only [lookupCell, Nat.ne_of_lt hb, if_false]
    exact ih fun c hc => h c (by simp [hc])

/-- A read after a write of one byte. -/
theorem lookupCell_putCell {cells : List Host.Cell} (h : cells.Pairwise (fun c d => c.1 < d.1))
    (a b : Nat) (v : Byte) :
    lookupCell (putCell cells a v) b = if b = a then v else lookupCell cells b := by
  induction cells with
  | nil =>
    simp only [putCell]
    split <;> by_cases hb : b = a <;> simp_all [lookupCell]
  | cons c cells ih =>
    obtain ⟨d, w⟩ := c
    obtain ⟨hd, hp⟩ := List.pairwise_cons.mp h
    simp only [putCell]
    by_cases h1 : a < d
    · have hne : a ≠ d := Nat.ne_of_lt h1
      have hun : lookupCell cells a = Config.unlistedByte :=
        lookupCell_of_forall_lt fun c hc => Nat.lt_trans h1 (hd c hc)
      rw [if_pos h1]
      split <;> by_cases hb : b = a <;> simp_all [lookupCell]
    · rw [if_neg h1]
      by_cases h2 : a = d
      · subst h2
        rw [if_pos rfl]
        have hun : lookupCell cells a = Config.unlistedByte := lookupCell_of_forall_lt hd
        split <;> by_cases hb : b = a <;> simp_all [lookupCell]
      · rw [if_neg h2]
        simp only [lookupCell, ih hp]
        by_cases hb : b = d
        · subst hb
          simp [Ne.symm h2]
        · simp [hb]

theorem mem_putCell {cells : List Host.Cell} {a : Nat} {v : Byte} {c : Host.Cell}
    (hc : c ∈ putCell cells a v) : (c = (a, v) ∧ v ≠ Config.unlistedByte) ∨ c ∈ cells := by
  induction cells with
  | nil =>
    simp only [putCell] at hc
    split at hc <;> simp_all
  | cons d cells ih =>
    obtain ⟨b, w⟩ := d
    simp only [putCell] at hc
    split at hc
    · split at hc
      · exact .inr hc
      · rcases List.mem_cons.mp hc with rfl | hc
        · exact .inl ⟨rfl, ‹_›⟩
        · exact .inr hc
    · split at hc
      · split at hc
        · exact .inr (List.mem_cons_of_mem _ hc)
        · rcases List.mem_cons.mp hc with rfl | hc
          · exact .inl ⟨rfl, ‹_›⟩
          · exact .inr (List.mem_cons_of_mem _ hc)
      · rcases List.mem_cons.mp hc with rfl | hc
        · exact .inr (by simp)
        · exact (ih hc).imp_right (List.mem_cons_of_mem _)

/-- A write of one byte keeps the canonical form of the cells. -/
theorem putCell_wf {cells : List Host.Cell} (h : cellsWf cells) (a : Nat) (v : Byte) :
    cellsWf (putCell cells a v) := by
  refine ⟨?_, fun c hc => ?_⟩
  · have hp := h.1
    clear h
    induction cells with
    | nil =>
      simp only [putCell]
      split <;> simp
    | cons d cells ih =>
      obtain ⟨b, w⟩ := d
      obtain ⟨hd, hp'⟩ := List.pairwise_cons.mp hp
      simp only [putCell]
      split
      · next hab =>
        split
        · exact hp
        · refine List.pairwise_cons.mpr ⟨fun c hc => ?_, hp⟩
          rcases List.mem_cons.mp hc with rfl | hc
          · exact hab
          · exact Nat.lt_trans hab (hd c hc)
      · next hab =>
        split
        · next heq =>
          split
          · exact hp'
          · exact List.pairwise_cons.mpr ⟨fun c hc => heq ▸ hd c hc, hp'⟩
        · next hne =>
          refine List.pairwise_cons.mpr ⟨fun c hc => ?_, ih hp'⟩
          rcases mem_putCell hc with ⟨rfl, -⟩ | hc
          · simp only
            omega
          · exact hd c hc
  · rcases mem_putCell hc with ⟨rfl, hv⟩ | hc
    · exact hv
    · exact h.2 c hc

/-- Writing back the byte that is there changes nothing. -/
theorem putCell_lookupCell {cells : List Host.Cell} (h : cellsWf cells) (a : Nat) :
    putCell cells a (lookupCell cells a) = cells := by
  obtain ⟨hp, hv⟩ := h
  induction cells with
  | nil => simp [lookupCell, putCell]
  | cons d cells ih =>
    obtain ⟨b, w⟩ := d
    obtain ⟨hd, hp'⟩ := List.pairwise_cons.mp hp
    by_cases hab : a < b
    · have : lookupCell ((b, w) :: cells) a = Config.unlistedByte :=
        lookupCell_of_forall_lt fun c hc => by
          rcases List.mem_cons.mp hc with rfl | hc
          · exact hab
          · exact Nat.lt_trans hab (hd c hc)
      simp [this, putCell, hab]
    · by_cases heq : a = b
      · subst heq
        have hw : w ≠ Config.unlistedByte := hv (a, w) (by simp)
        simp [lookupCell, putCell, hw]
      · have := ih hp' fun c hc => hv c (by simp [hc])
        simp [lookupCell, putCell, hab, heq, this]

theorem lookupCell_filter (cells : List Host.Cell) (p : Nat → Bool) (a : Nat) :
    lookupCell (cells.filter fun c => p c.1) a =
      if p a then lookupCell cells a else Config.unlistedByte := by
  induction cells with
  | nil => simp [lookupCell]
  | cons d cells ih =>
    obtain ⟨b, w⟩ := d
    by_cases hb : p b = true
    · by_cases hab : a = b
      · subst hab
        simp [hb, lookupCell]
      · simp [hb, lookupCell, hab, ih]
    · by_cases hab : a = b
      · subst hab
        simp [hb, ih]
      · simp [hb, lookupCell, hab, ih]

/-! ### Bytes and words -/

/-- The four bytes of a word put together give the word. -/
@[simp] theorem wordOfBytes_byteOfWord (v : Word) :
    wordOfBytes (byteOfWord v 0) (byteOfWord v 1) (byteOfWord v 2) (byteOfWord v 3) = v := by
  apply BitVec.eq_of_getLsbD_eq
  intro i hi
  simp only [wordOfBytes, byteOfWord, BitVec.getLsbD_append, BitVec.getLsbD_extractLsb']
  by_cases h1 : i < 8
  · simp [h1, show i < 8 + (8 + 8) by omega, show i < 8 + 8 by omega]
  · by_cases h2 : i < 16
    · simp [h1, h2, show i < 24 by omega, show i - 8 < 8 by omega, show 8 + (i - 8) = i by omega]
    · by_cases h3 : i < 24
      · simp [h2, h3, show i - 16 < 8 by omega, show 16 + (i - 16) = i by omega]
      · simp [h3, show i - 24 < 8 by omega, show 24 + (i - 24) = i by omega]

theorem byteOfWord_wordOfBytes (b0 b1 b2 b3 : Byte) :
    byteOfWord (wordOfBytes b0 b1 b2 b3) 0 = b0 ∧ byteOfWord (wordOfBytes b0 b1 b2 b3) 1 = b1 ∧
      byteOfWord (wordOfBytes b0 b1 b2 b3) 2 = b2 ∧ byteOfWord (wordOfBytes b0 b1 b2 b3) 3 = b3 := by
  refine ⟨?_, ?_, ?_, ?_⟩ <;>
  · apply BitVec.eq_of_getLsbD_eq
    intro i hi
    simp only [wordOfBytes, byteOfWord, BitVec.getLsbD_append, BitVec.getLsbD_extractLsb']
    simp [hi, show ¬ 8 + i < 8 by omega, show ¬ 16 + i < 16 by omega, show ¬ 24 + i < 24 by omega,
      show 8 + i < 16 by omega, show 16 + i < 24 by omega, show 8 + i < 24 by omega,
      show i < 16 by omega, show i < 24 by omega]

/-- The bytes after a word write: those of the word, little-endian, and every other as before. -/
theorem Memory.byteAt_putWord {m : Memory} (h : cellsWf m.cells) (a b : Nat) (v : Word) :
    (m.putWord a v).byteAt b =
      if b = a + 3 then byteOfWord v 3 else if b = a + 2 then byteOfWord v 2
      else if b = a + 1 then byteOfWord v 1 else if b = a then byteOfWord v 0 else m.byteAt b := by
  have h0 := putCell_wf h a (byteOfWord v 0)
  have h1 := putCell_wf h0 (a + 1) (byteOfWord v 1)
  have h2 := putCell_wf h1 (a + 2) (byteOfWord v 2)
  simp only [Memory.putWord, Memory.byteAt, lookupCell_putCell h2.1, lookupCell_putCell h1.1,
    lookupCell_putCell h0.1, lookupCell_putCell h.1]

/-- A word write leaves every byte outside its four alone. -/
theorem Memory.byteAt_putWord_of_outside {m : Memory} (h : cellsWf m.cells) {a b : Nat} (v : Word)
    (hb : b < a ∨ a + 4 ≤ b) : (m.putWord a v).byteAt b = m.byteAt b := by
  rw [Memory.byteAt_putWord h, if_neg (by omega), if_neg (by omega), if_neg (by omega), if_neg (by omega)]

/-- A word read after a word write at the same address. -/
theorem Memory.wordAt_putWord_self {m : Memory} (h : cellsWf m.cells) (a : Nat) (v : Word) :
    (m.putWord a v).wordAt a = v := by
  simp [Memory.wordAt, Memory.byteAt_putWord h]

/-- A word write leaves every word that does not overlap it alone. -/
theorem Memory.wordAt_putWord_of_apart {m : Memory} (h : cellsWf m.cells) {a b : Nat} (v : Word)
    (hb : b + 4 ≤ a ∨ a + 4 ≤ b) : (m.putWord a v).wordAt b = m.wordAt b := by
  simp only [Memory.wordAt]
  rw [Memory.byteAt_putWord_of_outside h, Memory.byteAt_putWord_of_outside h,
    Memory.byteAt_putWord_of_outside h, Memory.byteAt_putWord_of_outside h] <;> omega

/-- Writing back the word that is there changes nothing. -/
theorem Memory.putWord_wordAt {m : Memory} (h : cellsWf m.cells) (a : Nat) :
    m.putWord a (m.wordAt a) = m := by
  obtain ⟨e0, e1, e2, e3⟩ := byteOfWord_wordOfBytes (m.byteAt a) (m.byteAt (a + 1)) (m.byteAt (a + 2))
    (m.byteAt (a + 3))
  simp only [Memory.putWord, Memory.wordAt, e0, e1, e2, e3]
  simp only [Memory.byteAt, putCell_lookupCell h]

@[simp] theorem Memory.putWord_mapped (m : Memory) (a : Nat) (v : Word) :
    (m.putWord a v).mapped = m.mapped := rfl

@[simp] theorem Memory.isMapped_putWord (m : Memory) (a : Nat) (v b : Word) :
    (m.putWord a v).isMapped b = m.isMapped b := rfl

@[simp] theorem Memory.accessible_putWord (m : Memory) (a : Nat) (v b : Word) :
    (m.putWord a v).accessible b = m.accessible b := rfl

/-- The bytes after a range is zeroed. -/
theorem Memory.byteAt_zeroRange (m : Memory) (lo hi a : Nat) :
    (m.zeroRange lo hi).byteAt a = if lo ≤ a ∧ a < hi then 0#8 else m.byteAt a := by
  have := lookupCell_filter m.cells (fun b => !(decide (lo ≤ b) && decide (b < hi))) a
  simp only [Memory.byteAt, Memory.zeroRange, this]
  by_cases h : lo ≤ a ∧ a < hi
  · simp [h, Config.unlistedByte]
  · simp only [if_neg h]
    rw [if_pos]
    have : a < lo ∨ hi ≤ a := by omega
    simpa using this

@[simp] theorem Memory.zeroRange_mapped (m : Memory) (lo hi : Nat) :
    (m.zeroRange lo hi).mapped = m.mapped := rfl

/-! ### Alignment -/

theorem isAligned_iff (a : Word) : isAligned a = true ↔ a.toNat % 4 = 0 := by
  simp only [isAligned, beq_iff_eq, ← BitVec.toNat_inj, BitVec.extractLsb'_toNat]
  simp

/-- An access succeeds exactly at aligned, mapped addresses. -/
theorem Memory.accessible_iff (m : Memory) (a : Word) :
    m.accessible a = true ↔ a.toNat % 4 = 0 ∧ m.isMapped a = true := by
  simp [Memory.accessible, isAligned_iff]

/-! ### The map -/

theorem covered_cons (r : Region) (rs : List Region) (a : Nat) :
    covered (r :: rs) a = (inRegion r a || covered rs a) := rfl

theorem inRegion_iff (r : Region) (a : Nat) : inRegion r a = true ↔ r.base ≤ a ∧ a < r.top := by
  simp [inRegion]

theorem covered_iff (rs : List Region) (a : Nat) :
    covered rs a = true ↔ ∃ r ∈ rs, r.base ≤ a ∧ a < r.top := by
  simp [covered, inRegion_iff]

/-- A mapped word lies in one range whole. -/
theorem covered_of_word {rs : List Region} (h : mappedWf rs) {a : Nat} (ha : a % 4 = 0)
    (hc : covered rs a = true) {b : Nat} (hb : a ≤ b) (hb' : b < a + 4) : covered rs b = true := by
  rw [covered_iff] at hc ⊢
  obtain ⟨r, hr, h1, h2⟩ := hc
  have := h.2 r hr
  refine ⟨r, hr, by omega, ?_⟩
  simp only [Region.top] at *
  omega

theorem joinRegion_covered (r : Region) (rs : List Region) (a : Nat) :
    covered (joinRegion r rs) a = (inRegion r a || covered rs a) := by
  cases rs with
  | nil => rfl
  | cons q rest =>
    simp only [joinRegion]
    split
    · next h =>
      rw [covered_cons, covered_cons, Bool.eq_iff_iff]
      simp only [Bool.or_eq_true, inRegion_iff, Region.top] at h ⊢
      rw [← or_assoc]
      refine or_congr ?_ Iff.rfl
      omega
    · rfl

theorem joinRegion_wf {r : Region} {rs : List Region} (h : mappedWf rs)
    (hr : r.base % 4 = 0 ∧ 1 ≤ r.words ∧ r.top ≤ 2 ^ 32) (hlt : ∀ q ∈ rs, r.top ≤ q.base) :
    mappedWf (joinRegion r rs) := by
  cases rs with
  | nil => exact ⟨by simp [joinRegion], by simpa [joinRegion] using hr⟩
  | cons q rest =>
    obtain ⟨hq, hp⟩ := List.pairwise_cons.mp h.1
    have hqr := h.2 q (by simp)
    have hrq := hlt q (by simp)
    simp only [joinRegion]
    split
    · next heq =>
      refine ⟨List.pairwise_cons.mpr ⟨fun c hc => ?_, hp⟩, fun c hc => ?_⟩
      · have := hq c hc
        simp only [Region.top] at *
        omega
      · rcases List.mem_cons.mp hc with rfl | hc
        · simp only [Region.top] at *
          omega
        · exact h.2 c (by simp [hc])
    · next hne =>
      refine ⟨List.pairwise_cons.mpr ⟨fun c hc => ?_, h.1⟩, fun c hc => ?_⟩
      · rcases List.mem_cons.mp hc with rfl | hc
        · omega
        · have := hq c hc
          simp only [Region.top] at *
          omega
      · rcases List.mem_cons.mp hc with rfl | hc
        · exact hr
        · exact h.2 c hc

/-- What mapping a word adds: its four addresses. -/
theorem mapWordIn_covered {rs : List Region} (h : mappedWf rs) {a : Nat} (ha : a % 4 = 0) (b : Nat) :
    covered (mapWordIn rs a) b = (covered rs b || decide (a ≤ b ∧ b < a + 4)) := by
  induction rs with
  | nil =>
    rw [Bool.eq_iff_iff]
    simp [mapWordIn, covered, inRegion, Region.top]
  | cons r rest ih =>
    obtain ⟨hr, hp⟩ := List.pairwise_cons.mp h.1
    have hrw := h.2 r (by simp)
    have hrest : mappedWf rest := ⟨hp, fun q hq => h.2 q (by simp [hq])⟩
    simp only [mapWordIn]
    split
    · rw [joinRegion_covered, covered_cons, Bool.eq_iff_iff]
      cases covered rest b
      · simp only [Bool.or_eq_true, inRegion_iff, Region.top, decide_eq_true_eq, Bool.false_eq_true, or_false] at *
        omega
      · simp
    · split
      · rw [covered_cons, Bool.eq_iff_iff]
        cases covered rest b
        · simp only [Bool.or_eq_true, inRegion_iff, Region.top, decide_eq_true_eq, Bool.false_eq_true, or_false] at *
          omega
        · simp
      · split
        · rw [joinRegion_covered, covered_cons, Bool.eq_iff_iff]
          cases covered rest b
          · simp only [Bool.or_eq_true, inRegion_iff, Region.top, decide_eq_true_eq, Bool.false_eq_true, or_false] at *
            omega
          · simp
        · rw [covered_cons, covered_cons, ih hrest]
          simp [Bool.or_assoc]

/-- Mapping a word keeps the canonical form of the map. -/
theorem mapWordIn_wf {rs : List Region} (h : mappedWf rs) {a : Nat} (ha : a % 4 = 0)
    (ha' : a + 4 ≤ 2 ^ 32) : mappedWf (mapWordIn rs a) := by
  induction rs with
  | nil => exact ⟨by simp [mapWordIn], by simp [mapWordIn, Region.top, ha]; omega⟩
  | cons r rest ih =>
    obtain ⟨hr, hp⟩ := List.pairwise_cons.mp h.1
    have hrw := h.2 r (by simp)
    have hrest : mappedWf rest := ⟨hp, fun q hq => h.2 q (by simp [hq])⟩
    simp only [mapWordIn]
    split
    · next hlt =>
      refine joinRegion_wf h ⟨ha, Nat.le_refl 1, by simp [Region.top]; omega⟩ fun q hq => ?_
      rcases List.mem_cons.mp hq with rfl | hq
      · simp only [Region.top] at *
        omega
      · have := hr q hq
        simp only [Region.top] at *
        omega
    · split
      · exact h
      · split
        · next heq =>
          refine joinRegion_wf hrest ⟨hrw.1, Nat.le_add_left 1 r.words, ?_⟩ fun q hq => ?_
          · simp only [Region.top] at *
            omega
          · have := hr q hq
            have := (h.2 q (by simp [hq])).1
            simp only [Region.top] at *
            omega
        · next hne =>
          refine ⟨List.pairwise_cons.mpr ⟨fun q hq => ?_, (ih hrest).1⟩, fun q hq => ?_⟩
          · have hb : covered (mapWordIn rest a) q.base = true := by
              rw [covered_iff]
              refine ⟨q, hq, Nat.le_refl _, ?_⟩
              have := (ih hrest).2 q hq
              simp only [Region.top]
              omega
            rw [mapWordIn_covered hrest ha, Bool.or_eq_true, covered_iff, decide_eq_true_eq] at hb
            rcases hb with ⟨c, hc, hc1, -⟩ | hb
            · exact Nat.lt_of_lt_of_le (hr c hc) hc1
            · omega
          · rcases List.mem_cons.mp hq with rfl | hq
            · exact hrw
            · exact (ih hrest).2 q hq

/-! ### The canonical form -/

/-- A word write at a mapped, aligned address keeps the canonical form. -/
theorem Memory.putWord_wf {m : Memory} (h : m.wf) {a : Word} (ha : m.accessible a = true) (v : Word) :
    (m.putWord a.toNat v).wf := by
  obtain ⟨hal, hma⟩ := (m.accessible_iff a).mp ha
  have h0 := putCell_wf h.2.1 a.toNat (byteOfWord v 0)
  have h1 := putCell_wf h0 (a.toNat + 1) (byteOfWord v 1)
  have h2 := putCell_wf h1 (a.toNat + 2) (byteOfWord v 2)
  have h3 := putCell_wf h2 (a.toNat + 3) (byteOfWord v 3)
  refine ⟨h.1, h3, fun c hc => ?_⟩
  have hcov : ∀ b, a.toNat ≤ b → b < a.toNat + 4 → covered m.mapped b = true :=
    fun b hb hb' => covered_of_word h.1 hal hma hb hb'
  rcases mem_putCell hc with ⟨rfl, -⟩ | hc
  · exact hcov _ (by simp) (by simp)
  rcases mem_putCell hc with ⟨rfl, -⟩ | hc
  · exact hcov _ (by simp) (by simp)
  rcases mem_putCell hc with ⟨rfl, -⟩ | hc
  · exact hcov _ (by simp) (by simp)
  rcases mem_putCell hc with ⟨rfl, -⟩ | hc
  · exact hcov _ (by simp) (by simp)
  · exact h.2.2 c hc

/-- Zeroing a range keeps the canonical form. -/
theorem Memory.zeroRange_wf {m : Memory} (h : m.wf) (lo hi : Nat) : (m.zeroRange lo hi).wf := by
  refine ⟨h.1, ⟨h.2.1.1.filter _, fun c hc => ?_⟩, fun c hc => ?_⟩
  · exact h.2.1.2 c (List.mem_filter.mp hc).1
  · exact h.2.2 c (List.mem_filter.mp hc).1

/-- Mapping a word keeps the canonical form. -/
theorem Memory.mapWord_wf {m : Memory} (h : m.wf) {a : Word} (ha : a.toNat % 4 = 0) :
    (m.mapWord a.toNat).wf := by
  have := a.isLt
  refine ⟨mapWordIn_wf h.1 ha (by omega), h.2.1, fun c hc => ?_⟩
  simp only [Memory.mapWord, mapWordIn_covered h.1 ha, Bool.or_eq_true]
  exact .inl (h.2.2 c hc)

/-- A mapped word can be accessed. -/
theorem Memory.accessible_mapWord {m : Memory} (h : m.wf) {a : Word} (ha : a.toNat % 4 = 0) :
    (m.mapWord a.toNat).accessible a = true := by
  rw [Memory.accessible_iff]
  refine ⟨ha, ?_⟩
  simp only [Memory.isMapped, Memory.mapWord, mapWordIn_covered h.1 ha, Bool.or_eq_true, decide_eq_true_eq]
  exact .inr ⟨Nat.le_refl _, by omega⟩

/-- The memory of the reset state is in canonical form. -/
theorem Memory.reset_wf : Memory.reset.wf := by
  refine ⟨⟨List.pairwise_singleton _ _, fun r hr => ?_⟩, ⟨List.Pairwise.nil, ?_⟩, ?_⟩
  · rw [List.mem_singleton.mp hr]
    decide
  · intro c hc
    cases hc
  · intro c hc
    cases hc

/-! ### The access primitives -/

/-- MemRead answers the word exactly at an aligned, mapped address (20_memory.md R33). -/
theorem State.memRead_eq_some_iff (s : State) (a v : Word) :
    s.memRead a = some v ↔ s.mem.accessible a = true ∧ s.mem.wordAt a.toNat = v := by
  unfold State.memRead
  split <;> simp_all

theorem State.memRead_eq_none_iff (s : State) (a : Word) :
    s.memRead a = none ↔ s.mem.accessible a = false := by
  unfold State.memRead
  split <;> simp_all

/-- MemWrite answers exactly at an aligned, mapped address, and changes the memory there only (R34). -/
theorem State.memWrite_eq_some_iff (s t : State) (a v : Word) :
    s.memWrite a v = some t ↔
      s.mem.accessible a = true ∧ t = { s with mem := s.mem.putWord a.toNat v } := by
  unfold State.memWrite
  split
  · next h => simpa [h] using eq_comm
  · next h => simp [h]

theorem State.memWrite_eq_none_iff (s : State) (a v : Word) :
    s.memWrite a v = none ↔ s.mem.accessible a = false := by
  unfold State.memWrite
  split <;> simp_all

end Sys2Proof.Machine
end

