-- ==== Sys2Proof/Laws/Exec.lean ====
section
/-! SUPPORT. What each shared operation of the executors can do, said once; what `exec` and `step` can do, as one
inversion lemma each. Provers cite these instead of unfolding the meanings. -/

namespace Sys2Proof.Machine

/-! ### Branches -/

/-- A branch faults on an undefined code, and on a defined one writes the link register if it links, taken or not,
and the program counter (43_conditional_branch.md R116 to R120). -/
theorem branch_cases (cond : BitVec 4) (link : Bool) (imm24 : BitVec 24) (s : State) :
    (condHolds cond s.flags = none ∧
        branch cond link imm24 s = s.raise .undefinedCondition (branchWord cond link imm24)) ∨
      ∃ taken, condHolds cond s.flags = some taken ∧
        branch cond link imm24 s =
          (if link then s.setReg Reg.lr (s.pc + 4#32) else s).setPc
            (if taken then s.pc + branchOffset imm24 else s.pc + 4#32) := by
  unfold branch
  cases h : condHolds cond s.flags with
  | none => exact .inl ⟨rfl, rfl⟩
  | some taken => exact .inr ⟨taken, rfl, rfl⟩

/-- The registers after a branch that completes. -/
theorem reg_linkThenSetPc (link : Bool) (v : Word) (s : State) (r : Reg) :
    ((if link then s.setReg Reg.lr (s.pc + 4#32) else s).setPc v).reg r =
      if r = Reg.pc then v else if r = Reg.lr ∧ link = true then s.pc + 4#32 else s.reg r := by
  rw [State.reg_setPc]
  cases link <;> simp [State.reg_setReg]

/-! ### Data processing -/

/-- The registers after CMP: only the advance of the program counter (42_data_processing.md R89, R98). -/
theorem reg_compare (s : State) (rd r : Reg) (a b : Word) :
    (compare s rd a b).reg r =
      if r = Reg.pc then (if rd = Reg.pc then s.pc else s.pc + 4#32) else s.reg r := by
  simp [compare, State.reg_advanceUnlessPc]

@[simp] theorem compare_flags (s : State) (rd : Reg) (a b : Word) :
    (compare s rd a b).flags = flagGen a b := by simp [compare]
@[simp] theorem compare_runState (s : State) (rd : Reg) (a b : Word) :
    (compare s rd a b).runState = s.runState := by simp [compare]
@[simp] theorem compare_faultCode (s : State) (rd : Reg) (a b : Word) :
    (compare s rd a b).faultCode = s.faultCode := by simp [compare]
@[simp] theorem compare_faultPc (s : State) (rd : Reg) (a b : Word) :
    (compare s rd a b).faultPc = s.faultPc := by simp [compare]
@[simp] theorem compare_faultInfo (s : State) (rd : Reg) (a b : Word) :
    (compare s rd a b).faultInfo = s.faultInfo := by simp [compare]
@[simp] theorem compare_mem (s : State) (rd : Reg) (a b : Word) :
    (compare s rd a b).mem = s.mem := by simp [compare]

/-! ### Loads and stores -/

/-- A load faults on an address it cannot access, and else writes the word there as its result
(44_single_data_transfer.md R128). -/
theorem load_cases (s : State) (rd : Reg) (ea : Word) :
    (s.mem.accessible ea = false ∧ load s rd ea = s.raise .invalidMemoryAccess ea) ∨
      (s.mem.accessible ea = true ∧ load s rd ea = s.writeResult rd (s.mem.wordAt ea.toNat)) := by
  cases h : s.mem.accessible ea
  · exact .inl ⟨rfl, by simp [load, State.memRead, h]⟩
  · exact .inr ⟨rfl, by simp [load, State.memRead, h]⟩

/-- A store faults on an address it cannot access, and else writes the word there and advances by the field
(44_single_data_transfer.md R129, R130). -/
theorem store_cases (s : State) (rd : Reg) (ea : Word) :
    (s.mem.accessible ea = false ∧ store s rd ea = s.raise .invalidMemoryAccess ea) ∨
      (s.mem.accessible ea = true ∧ store s rd ea =
        State.advanceUnlessPc { s with mem := s.mem.putWord ea.toNat (s.reg rd) } rd) := by
  cases h : s.mem.accessible ea
  · exact .inl ⟨rfl, by simp [store, State.memWrite, h]⟩
  · exact .inr ⟨rfl, by simp [store, State.memWrite, h]⟩

/-! ### Every instruction -/

/-- What an instruction can do: fault, set the program counter, write a result, compare, branch, load or store. -/
theorem exec_cases (i : Instr) (s : State) :
    ∃ t, exec i s = .next t ∧
      ((∃ k info, t = s.raise k info) ∨ (∃ v, t = s.setPc v) ∨ (∃ rd v, t = s.writeResult rd v) ∨
        (∃ rd a b, t = compare s rd a b) ∨ (∃ cond link imm24, t = branch cond link imm24 s) ∨
        (∃ rd ea, t = load s rd ea) ∨ (∃ rd ea, t = store s rd ea)) := by
  cases i
  case bx rm => exact ⟨_, rfl, .inr (.inl ⟨_, rfl⟩)⟩
  case addImm | addReg | subImm | subReg | movImm | movReg =>
    exact ⟨_, rfl, .inr (.inr (.inl ⟨_, _, rfl⟩))⟩
  case cmpImm | cmpReg => exact ⟨_, rfl, .inr (.inr (.inr (.inl ⟨_, _, _, rfl⟩)))⟩
  case ldrImm | ldrReg => exact ⟨_, rfl, .inr (.inr (.inr (.inr (.inr (.inl ⟨_, _, rfl⟩)))))⟩
  case strImm | strReg => exact ⟨_, rfl, .inr (.inr (.inr (.inr (.inr (.inr ⟨_, _, rfl⟩)))))⟩
  all_goals first
    | exact ⟨_, rfl, .inl ⟨_, _, rfl⟩⟩
    | exact ⟨_, rfl, .inr (.inr (.inr (.inr (.inl ⟨_, _, _, rfl⟩))))⟩

/-! ### One step -/

/-- What a step can do: nothing outside Running; else a failed fetch faults, and a fetched word is decoded and
executed, and the halt test made (45_sequencer.md R144 to R149). -/
theorem step_cases (s : State) :
    (s.runState ≠ .running ∧ step s = .next s) ∨
      (s.runState = .running ∧ s.fetch = none ∧ step s = .next (s.raise .invalidMemoryAccess s.pc)) ∨
      ∃ iw t, s.runState = .running ∧ s.fetch = some iw ∧ exec (decodeWord iw) s = .next t ∧
        step s = .next t.haltTest := by
  cases hr : s.runState
  · cases hf : s.fetch with
    | none => exact .inr (.inl ⟨rfl, rfl, by simp [step, hr, hf]⟩)
    | some iw =>
      obtain ⟨t, ht, -⟩ := exec_cases (decodeWord iw) s
      exact .inr (.inr ⟨iw, t, rfl, rfl, ht, by simp [step, hr, hf, ht, completeStep]⟩)
  · exact .inl ⟨by simp, by simp [step, hr]⟩
  · exact .inl ⟨by simp, by simp [step, hr]⟩

/-- A fetch succeeds exactly at an aligned, mapped program counter, and then it is the word there. -/
theorem State.fetch_eq_some_iff (s : State) (v : Word) :
    s.fetch = some v ↔ s.mem.accessible s.pc = true ∧ s.mem.wordAt s.pc.toNat = v :=
  s.memRead_eq_some_iff s.pc v

theorem State.fetch_eq_none_iff (s : State) : s.fetch = none ↔ s.mem.accessible s.pc = false :=
  s.memRead_eq_none_iff s.pc

/-- The halt test leaves a state that is not Running as it is. -/
theorem State.haltTest_raise (s : State) (k : FaultKind) (info : Word) :
    (s.raise k info).haltTest = s.raise k info := by simp [State.haltTest]

/-- A step whose word is fetched and whose execution answers `t` ends with the halt test on `t`. -/
theorem step_of_exec {s t : State} {iw : Word} (hr : s.runState = .running) (hf : s.fetch = some iw)
    (he : exec (decodeWord iw) s = .next t) : step s = .next t.haltTest := by
  simp [step, hr, hf, he, completeStep]

/-- A step whose fetch fails. -/
theorem step_of_fetch_none {s : State} (hr : s.runState = .running) (hf : s.fetch = none) :
    step s = .next (s.raise .invalidMemoryAccess s.pc) := by simp [step, hr, hf]

/-- A step outside Running. -/
theorem step_of_not_running {s : State} (hr : s.runState ≠ .running) : step s = .next s := by
  rcases step_cases s with ⟨-, h⟩ | ⟨h, -, -⟩ | ⟨_, _, h, -, -⟩
  · exact h
  · exact absurd h hr
  · exact absurd h hr

/-! ### Initialize -/

variable (s : State) (p : Params) (entry a0 a1 a2 a3 : Word)

/-- All registers after Initialize, in any state (70_reset_and_hazards.md R180). -/
theorem State.reg_initialize (r : Reg) : (s.initialize p entry a0 a1 a2 a3).reg r =
    if r = 3 then a3 else if r = 2 then a2 else if r = 1 then a1 else if r = 0 then a0
    else if r = Reg.sp then p.stackTop else if r = Reg.lr then 0#32 else if r = Reg.pc then entry else 0#32 := by
  have h : (s.initialize p entry a0 a1 a2 a3).reg r = (s.resetRegs p entry a0 a1 a2 a3).reg r := rfl
  have hz : State.reg { s with regs := Vector.replicate 16 0#32 } r = 0#32 := by simp [State.reg]
  simp only [h, State.resetRegs, State.reg_setReg, State.reg_setPc, hz]

@[simp] theorem State.initialize_flags : (s.initialize p entry a0 a1 a2 a3).flags = 0#32 := rfl
@[simp] theorem State.initialize_faultCode : (s.initialize p entry a0 a1 a2 a3).faultCode = none := rfl
@[simp] theorem State.initialize_faultPc : (s.initialize p entry a0 a1 a2 a3).faultPc = 0#32 := rfl
@[simp] theorem State.initialize_faultInfo : (s.initialize p entry a0 a1 a2 a3).faultInfo = 0#32 := rfl
@[simp] theorem State.initialize_runState : (s.initialize p entry a0 a1 a2 a3).runState =
    if entry = 0#32 then .halted else .running := rfl
@[simp] theorem State.initialize_mem : (s.initialize p entry a0 a1 a2 a3).mem =
    s.mem.zeroRange p.stackBase.toNat (p.stackBase.toNat + 4 * p.stackWords) := rfl

/-- Initialize keeps the map. -/
@[simp] theorem State.initialize_mapped : (s.initialize p entry a0 a1 a2 a3).mem.mapped = s.mem.mapped := rfl

end Sys2Proof.Machine

namespace Sys2Proof

/-! ### The stack buffer -/

/-- A word of the stack buffer as a number: nothing wraps (10_state.md R24, 00_scope.md R9). -/
theorem Params.toNat_stackWord {p : Params} (h : p.inSpace) {k : Nat} (hk : k < p.stackWords) :
    (p.stackWord k).toNat = p.stackBase.toNat + 4 * k := by
  obtain ⟨-, -, -, hi⟩ := h
  simp only [Params.stackWord, BitVec.toNat_add, BitVec.toNat_ofNat]
  omega

/-- Whether the stack buffer is mapped depends on the map only. -/
theorem Params.wf_congr {p : Params} {m n : Machine.Memory} (h : m.mapped = n.mapped) : p.wf m ↔ p.wf n := by
  simp only [Params.wf, Params.stackMapped, Machine.Memory.isMapped, h]

/-- A stack buffer that lies in one range of mapped words meets the constraint on `Mapped`. -/
theorem Params.wf_of_region {p : Params} {m : Machine.Memory} {r : Region} (h : p.inSpace) (hr : r ∈ m.mapped)
    (hb : r.base ≤ p.stackBase.toNat ∧ p.stackBase.toNat + 4 * p.stackWords ≤ r.top) : p.wf m := by
  refine ⟨h, fun k hk => (Machine.covered_iff _ _).2 ⟨r, hr, ?_⟩⟩
  rw [Params.toNat_stackWord h hk]
  omega

end Sys2Proof
end

