-- ==== Sys2Proof/Tests/Slice0.lean ====
section
/-! SUPPORT. The author's own tests. Expected results come from the tables of spec/95_test_vectors.md and from the
formats of spec/30_encoding.md; the comment above each test says which. The witness theorems at the end show for each
obligation with hypotheses a concrete case that meets all of them. -/

namespace Sys2Proof.Tests

open Sys2Proof Sys2Proof.Machine

/-! ### The smoke test of WellFormed: each check refuses an ill-formed term -/

/-- Data processing: each constructor with the word of its own row in the other form (bit 25 flipped). -/
theorem test_wellFormed_refuses_other_form : ∀ i ∈ [
    Instr.dp0000Imm 0xE0000123#32, Instr.dp0000Reg 0xE2000123#32, Instr.dp0001Imm 0xE0200123#32, Instr.dp0001Reg 0xE2200123#32, Instr.dp0011Imm 0xE0600123#32, Instr.dp0011Reg 0xE2600123#32, Instr.dp0101Imm 0xE0A00123#32, Instr.dp0101Reg 0xE2A00123#32, Instr.dp0110Imm 0xE0C00123#32, Instr.dp0110Reg 0xE2C00123#32, Instr.dp0111Imm 0xE0E00123#32, Instr.dp0111Reg 0xE2E00123#32, Instr.dp1000Imm 0xE1000123#32, Instr.dp1000Reg 0xE3000123#32, Instr.dp1001Imm 0xE1200123#32, Instr.dp1001Reg 0xE3200123#32, Instr.dp1011Imm 0xE1600123#32, Instr.dp1011Reg 0xE3600123#32, Instr.dp1100Imm 0xE1800123#32, Instr.dp1100Reg 0xE3800123#32, Instr.dp1110Imm 0xE1C00123#32, Instr.dp1110Reg 0xE3C00123#32, Instr.dp1111Imm 0xE1E00123#32, Instr.dp1111Reg 0xE3E00123#32],
    i.wellFormed = false := by decide

/-- Data processing: each constructor with the word of the next opcode (bit 21 flipped). -/
theorem test_wellFormed_refuses_other_opcode : ∀ i ∈ [
    Instr.dp0000Imm 0xE2200123#32, Instr.dp0000Reg 0xE0200123#32, Instr.dp0001Imm 0xE2000123#32, Instr.dp0001Reg 0xE0000123#32, Instr.dp0011Imm 0xE2400123#32, Instr.dp0011Reg 0xE0400123#32, Instr.dp0101Imm 0xE2800123#32, Instr.dp0101Reg 0xE0800123#32, Instr.dp0110Imm 0xE2E00123#32, Instr.dp0110Reg 0xE0E00123#32, Instr.dp0111Imm 0xE2C00123#32, Instr.dp0111Reg 0xE0C00123#32, Instr.dp1000Imm 0xE3200123#32, Instr.dp1000Reg 0xE1200123#32, Instr.dp1001Imm 0xE3000123#32, Instr.dp1001Reg 0xE1000123#32, Instr.dp1011Imm 0xE3400123#32, Instr.dp1011Reg 0xE1400123#32, Instr.dp1100Imm 0xE3A00123#32, Instr.dp1100Reg 0xE1A00123#32, Instr.dp1110Imm 0xE3E00123#32, Instr.dp1110Reg 0xE1E00123#32, Instr.dp1111Imm 0xE3C00123#32, Instr.dp1111Reg 0xE1C00123#32],
    i.wellFormed = false := by decide

/-- A BX word is not opcode 1001 (30_encoding.md R62), and the words around it are. -/
theorem test_wellFormed_refuses_bx_as_opcode_1001 :
    (Instr.dp1001Reg 0xE12FFF1E#32).wellFormed = false ∧ (Instr.dp1001Reg 0xE12FFF3E#32).wellFormed = true ∧
      (Instr.dp1001Reg 0xE13FFF1E#32).wellFormed = true := by decide

/-- Refused load/store modes: a word with the mode's bit the other way, and a word that an earlier row takes. -/
theorem test_wellFormed_refuses_modes :
    (Instr.sdtPostIndexed 0xE5910004#32).wellFormed = false ∧ (Instr.sdtPostIndexed 0xE8BD8000#32).wellFormed = false ∧
      (Instr.sdtDownward 0xE5910004#32).wellFormed = false ∧ (Instr.sdtDownward 0xE4110004#32).wellFormed = false ∧
      (Instr.sdtByte 0xE5910004#32).wellFormed = false ∧ (Instr.sdtByte 0xE5510000#32).wellFormed = false ∧
      (Instr.sdtByte 0xE4D10000#32).wellFormed = false := by decide

/-- Unrecognised words: the word of the other row, and a branch. -/
theorem test_wellFormed_refuses_unrecognised :
    (Instr.unrecognised100 0xEF000011#32).wellFormed = false ∧ (Instr.unrecognised100 0xEA000000#32).wellFormed = false ∧
      (Instr.unrecognised11 0xE8BD8000#32).wellFormed = false ∧ (Instr.unrecognised11 0xEA000000#32).wellFormed = false := by
  decide

/-! ### Decoding: one word for each constructor, from the formats of 30_encoding.md section 2 and the words of
95_test_vectors.md -/

/-- BX and B (R53, R54, R61): Rm in bits 3:0, imm24 in bits 23:0, L in bit 24, cond in bits 31:28. -/
theorem test_decode_branches :
    decodeWord 0xE12FFF13#32 = .bx 3 ∧
      decodeWord 0x0A800001#32 = .beq 0x800001#24 ∧
      decodeWord 0x0B800001#32 = .bleq 0x800001#24 ∧
      decodeWord 0x1A800001#32 = .bne 0x800001#24 ∧
      decodeWord 0x1B800001#32 = .blne 0x800001#24 ∧
      decodeWord 0x2B00003E#32 = .condUndef0010 true 0x00003E#24 ∧
      decodeWord 0x2AFFFFFE#32 = .condUndef0010 false 0xFFFFFE#24 ∧
      decodeWord 0x3B00003E#32 = .condUndef0011 true 0x00003E#24 ∧
      decodeWord 0x3AFFFFFE#32 = .condUndef0011 false 0xFFFFFE#24 ∧
      decodeWord 0x4B00003E#32 = .condUndef0100 true 0x00003E#24 ∧
      decodeWord 0x4AFFFFFE#32 = .condUndef0100 false 0xFFFFFE#24 ∧
      decodeWord 0x5B00003E#32 = .condUndef0101 true 0x00003E#24 ∧
      decodeWord 0x5AFFFFFE#32 = .condUndef0101 false 0xFFFFFE#24 ∧
      decodeWord 0x6B00003E#32 = .condUndef0110 true 0x00003E#24 ∧
      decodeWord 0x6AFFFFFE#32 = .condUndef0110 false 0xFFFFFE#24 ∧
      decodeWord 0x7B00003E#32 = .condUndef0111 true 0x00003E#24 ∧
      decodeWord 0x7AFFFFFE#32 = .condUndef0111 false 0xFFFFFE#24 ∧
      decodeWord 0x8B00003E#32 = .condUndef1000 true 0x00003E#24 ∧
      decodeWord 0x8AFFFFFE#32 = .condUndef1000 false 0xFFFFFE#24 ∧
      decodeWord 0x9B00003E#32 = .condUndef1001 true 0x00003E#24 ∧
      decodeWord 0x9AFFFFFE#32 = .condUndef1001 false 0xFFFFFE#24 ∧
      decodeWord 0xAA800001#32 = .bge 0x800001#24 ∧
      decodeWord 0xAB800001#32 = .blge 0x800001#24 ∧
      decodeWord 0xBA800001#32 = .blt 0x800001#24 ∧
      decodeWord 0xBB800001#32 = .bllt 0x800001#24 ∧
      decodeWord 0xCA800001#32 = .bgt 0x800001#24 ∧
      decodeWord 0xCB800001#32 = .blgt 0x800001#24 ∧
      decodeWord 0xDA800001#32 = .ble 0x800001#24 ∧
      decodeWord 0xDB800001#32 = .blle 0x800001#24 ∧
      decodeWord 0xEA800001#32 = .b 0x800001#24 ∧
      decodeWord 0xEB800001#32 = .bl 0x800001#24 ∧
      decodeWord 0xFB00003E#32 = .condUndef1111 true 0x00003E#24 ∧
      decodeWord 0xFAFFFFFE#32 = .condUndef1111 false 0xFFFFFE#24 := by decide

/-- Data processing (R55, R62): Rn in bits 19:16, Rd in bits 15:12, imm8 in bits 7:0, Rm in bits 3:0; the words of the
refused opcodes keep every bit. -/
theorem test_decode_data_processing :
    decodeWord 0xE2142A07#32 = .dp0000Imm 0xE2142A07#32 ∧
      decodeWord 0xE0142A07#32 = .dp0000Reg 0xE0142A07#32 ∧
      decodeWord 0xE2342A07#32 = .dp0001Imm 0xE2342A07#32 ∧
      decodeWord 0xE0342A07#32 = .dp0001Reg 0xE0342A07#32 ∧
      decodeWord 0xE2442FA7#32 = .subImm 2 4 0xA7#8 ∧
      decodeWord 0xE0442F07#32 = .subReg 2 4 7 ∧
      decodeWord 0xE2742A07#32 = .dp0011Imm 0xE2742A07#32 ∧
      decodeWord 0xE0742A07#32 = .dp0011Reg 0xE0742A07#32 ∧
      decodeWord 0xE2842FA7#32 = .addImm 2 4 0xA7#8 ∧
      decodeWord 0xE0842F07#32 = .addReg 2 4 7 ∧
      decodeWord 0xE2B42A07#32 = .dp0101Imm 0xE2B42A07#32 ∧
      decodeWord 0xE0B42A07#32 = .dp0101Reg 0xE0B42A07#32 ∧
      decodeWord 0xE2D42A07#32 = .dp0110Imm 0xE2D42A07#32 ∧
      decodeWord 0xE0D42A07#32 = .dp0110Reg 0xE0D42A07#32 ∧
      decodeWord 0xE2F42A07#32 = .dp0111Imm 0xE2F42A07#32 ∧
      decodeWord 0xE0F42A07#32 = .dp0111Reg 0xE0F42A07#32 ∧
      decodeWord 0xE3142A07#32 = .dp1000Imm 0xE3142A07#32 ∧
      decodeWord 0xE1142A07#32 = .dp1000Reg 0xE1142A07#32 ∧
      decodeWord 0xE3342A07#32 = .dp1001Imm 0xE3342A07#32 ∧
      decodeWord 0xE1342A07#32 = .dp1001Reg 0xE1342A07#32 ∧
      decodeWord 0xE3442FA7#32 = .cmpImm 2 4 0xA7#8 ∧
      decodeWord 0xE1442F07#32 = .cmpReg 2 4 7 ∧
      decodeWord 0xE3742A07#32 = .dp1011Imm 0xE3742A07#32 ∧
      decodeWord 0xE1742A07#32 = .dp1011Reg 0xE1742A07#32 ∧
      decodeWord 0xE3942A07#32 = .dp1100Imm 0xE3942A07#32 ∧
      decodeWord 0xE1942A07#32 = .dp1100Reg 0xE1942A07#32 ∧
      decodeWord 0xE3A42FA7#32 = .movImm 2 0xA7#8 ∧
      decodeWord 0xE1A42F07#32 = .movReg 2 7 ∧
      decodeWord 0xE3D42A07#32 = .dp1110Imm 0xE3D42A07#32 ∧
      decodeWord 0xE1D42A07#32 = .dp1110Reg 0xE1D42A07#32 ∧
      decodeWord 0xE3F42A07#32 = .dp1111Imm 0xE3F42A07#32 ∧
      decodeWord 0xE1F42A07#32 = .dp1111Reg 0xE1F42A07#32 := by decide

/-- Single data transfer (R56, R66) and unrecognised words (R64): Rn in bits 19:16, Rd in bits 15:12, imm8 in bits 7:0,
shamt in bits 11:7, Rm in bits 3:0; P, U, B in bits 24, 23, 22. -/
theorem test_decode_transfers_and_unrecognised :
    decodeWord 0xE5942FA7#32 = .ldrImm 2 4 0xA7#8 ∧
      decodeWord 0xE7942807#32 = .ldrReg 2 4 7 16#5 ∧
      decodeWord 0xE5842FA7#32 = .strImm 2 4 0xA7#8 ∧
      decodeWord 0xE78420F7#32 = .strReg 2 4 7 1#5 ∧
      decodeWord 0xE49D0004#32 = .sdtPostIndexed 0xE49D0004#32 ∧
      decodeWord 0xE6110112#32 = .sdtPostIndexed 0xE6110112#32 ∧
      decodeWord 0xE5110004#32 = .sdtDownward 0xE5110004#32 ∧
      decodeWord 0xE5510000#32 = .sdtDownward 0xE5510000#32 ∧
      decodeWord 0xE5D10000#32 = .sdtByte 0xE5D10000#32 ∧
      decodeWord 0xE7F000F0#32 = .sdtByte 0xE7F000F0#32 ∧
      decodeWord 0xE8BD8000#32 = .unrecognised100 0xE8BD8000#32 ∧
      decodeWord 0xEF000011#32 = .unrecognised11 0xEF000011#32 ∧
      decodeWord 0xEC000000#32 = .unrecognised11 0xEC000000#32 ∧
      decodeWord 0xFFFFFFFF#32 = .unrecognised11 0xFFFFFFFF#32 := by decide

/-- The classifier column of 95_test_vectors.md section 2.1. -/
theorem test_classify :
    classify 0xF12FFF1F#32 = .branchExchange ∧ classify 0xE12FFF0E#32 = .dataProcessing ∧
      classify 0xE0000091#32 = .dataProcessing ∧ classify 0xE1D010B0#32 = .dataProcessing ∧
      classify 0xFA000000#32 = .conditionalBranch ∧ classify 0xE7F000F0#32 = .singleDataTransfer ∧
      classify 0xE8BD8000#32 = .unrecognised ∧ classify 0xEE000000#32 = .unrecognised := by decide

/-- Bytes in memory order (20_memory.md R35), the bytes after the word kept, and too few bytes refused by name. -/
theorem test_decode_bytes :
    decode [0x13#8, 0xFF#8, 0x2F#8, 0xE1#8, 0x55#8] = .ok (.bx 3, [0x55#8]) ∧
      decode [0x13#8, 0xFF#8, 0x2F#8] = .error (.truncated 3) := ⟨rfl, rfl⟩

/-- Words of the assembler syntax of R69. -/
theorem test_encode :
    encodeWord (.bx 14) = 0xE12FFF1E#32 ∧ encodeWord (.addImm 0 0 3#8) = 0xE2800003#32 ∧
      encodeWord (.cmpImm 0 0 10#8) = 0xE350000A#32 ∧ encodeWord (.movReg 15 14) = 0xE1A0F00E#32 ∧
      encodeWord (.bleq 0x00003E#24) = 0x0B00003E#32 ∧ encodeWord (.strReg 0 1 2 2#5) = 0xE7810102#32 := by decide

/-- The host's question, on a word of the table. -/
theorem test_decodeTableWord :
    decodeTableWord 32 0x012FFF10 = some (.bx 0) ∧ decodeTableWord 32 0x0C000000 = some (.unrecognised11 0x0C000000#32) :=
  ⟨rfl, rfl⟩

/-! ### Steps, from the tables of 95_test_vectors.md sections 2.2 to 2.8 -/

/-- The state of the conventions of 95_test_vectors.md, with the word `w` at 0x1000 and what the column "before" lists. -/
def before (w : Word) (f : Word) (regs : List (Reg × Word)) (words : List (Nat × Word)) : State :=
  let m : Memory := { mapped := [⟨0x1000, 0x400⟩, ⟨0x8000, 0x40⟩, ⟨0x1F000, 0x400⟩], cells := [] }
  regs.foldl (fun s r => s.setReg r.1 r.2)
    { State.reset with flags := f, mem := words.foldl (fun m c => m.putWord c.1 c.2) (m.putWord 0x1000 w) }

/-- The state after a completed step: what the column "after one Step" lists changed and nothing else. -/
def changed (s : State) (f : Word) (regs : List (Reg × Word)) (words : List (Nat × Word)) : State :=
  regs.foldl (fun s r => s.setReg r.1 r.2)
    { s with flags := f, mem := words.foldl (fun m c => m.putWord c.1 c.2) s.mem }

/-- The state after a step that faults at 0x1000. -/
def failed (s : State) (k : FaultKind) (info : Word) : State :=
  { s with runState := .faulted, faultCode := some k, faultPc := 0x1000#32, faultInfo := info }

/-- Section 2.2: flags kept; an odd target kept whole; the condition bits ignored. -/
theorem test_step_bx :
    (before 0xE12FFF1E#32 0x7#32 [(14, 0x1234#32)] []).afterStep =
        changed (before 0xE12FFF1E#32 0x7#32 [(14, 0x1234#32)] []) 0x7#32 [(15, 0x1234#32)] [] ∧
      (before 0x012FFF13#32 0x0#32 [(3, 0x1235#32)] []).afterStep =
        changed (before 0x012FFF13#32 0x0#32 [(3, 0x1235#32)] []) 0x0#32 [(15, 0x1235#32)] [] := by decide

/-- Section 2.3: a sum that wraps and writes no flag; bits 11:8 ignored. -/
theorem test_step_add :
    (before 0xE0802001#32 0x7#32 [(0, 0xFFFFFFFF#32), (1, 0x1#32), (2, 0x55#32)] []).afterStep =
        changed (before 0xE0802001#32 0x7#32 [(0, 0xFFFFFFFF#32), (1, 0x1#32), (2, 0x55#32)] []) 0x7#32 [(2, 0x0#32), (15, 0x1004#32)] [] ∧
      (before 0xE2810C01#32 0x0#32 [(1, 0x10#32)] []).afterStep =
        changed (before 0xE2810C01#32 0x0#32 [(1, 0x10#32)] []) 0x0#32 [(0, 0x11#32), (15, 0x1004#32)] [] := by decide

/-- Section 2.3: register 15 reads as the own address; a computed jump. -/
theorem test_step_add_pc :
    (before 0xE28F0008#32 0x0#32 [] []).afterStep =
        changed (before 0xE28F0008#32 0x0#32 [] []) 0x0#32 [(0, 0x1008#32), (15, 0x1004#32)] [] ∧
      (before 0xE28FF008#32 0x0#32 [] []).afterStep =
        changed (before 0xE28FF008#32 0x0#32 [] []) 0x0#32 [(15, 0x1008#32)] [] := by decide

/-- Section 2.3: a difference that wraps, in both forms. -/
theorem test_step_sub :
    (before 0xE2400001#32 0x7#32 [(0, 0x0#32)] []).afterStep =
        changed (before 0xE2400001#32 0x7#32 [(0, 0x0#32)] []) 0x7#32 [(0, 0xFFFFFFFF#32), (15, 0x1004#32)] [] ∧
      (before 0xE0402001#32 0x0#32 [(0, 0x3#32), (1, 0x5#32)] []).afterStep =
        changed (before 0xE0402001#32 0x0#32 [(0, 0x3#32), (1, 0x5#32)] []) 0x0#32 [(2, 0xFFFFFFFE#32), (15, 0x1004#32)] [] := by decide

/-- Section 2.3: the immediate zero-extended; Rn ignored. -/
theorem test_step_mov :
    (before 0xE3A000FF#32 0x0#32 [] []).afterStep =
        changed (before 0xE3A000FF#32 0x0#32 [] []) 0x0#32 [(0, 0xFF#32), (15, 0x1004#32)] [] ∧
      (before 0xE1A71000#32 0x0#32 [(0, 0xCAFEBABE#32), (7, 0x55#32)] []).afterStep =
        changed (before 0xE1A71000#32 0x0#32 [(0, 0xCAFEBABE#32), (7, 0x55#32)] []) 0x0#32 [(1, 0xCAFEBABE#32), (15, 0x1004#32)] [] := by decide

/-- Section 2.3: E4; signed overflow; bits 15:12 not written; bits 15:12 = 15 do not advance. -/
theorem test_step_cmp :
    (before 0xE3500005#32 0x0#32 [(0, 0x3#32)] []).afterStep =
        changed (before 0xE3500005#32 0x0#32 [(0, 0x3#32)] []) 0x6#32 [(15, 0x1004#32)] [] ∧
      (before 0xE1500001#32 0x0#32 [(0, 0x80000000#32), (1, 0x1#32)] []).afterStep =
        changed (before 0xE1500001#32 0x0#32 [(0, 0x80000000#32), (1, 0x1#32)] []) 0x1#32 [(15, 0x1004#32)] [] ∧
      (before 0xE3501001#32 0x0#32 [(0, 0x1#32), (1, 0x77#32)] []).afterStep =
        changed (before 0xE3501001#32 0x0#32 [(0, 0x1#32), (1, 0x77#32)] []) 0x8#32 [(15, 0x1004#32)] [] ∧
      (before 0xE350F001#32 0x0#32 [(0, 0x1#32)] []).afterStep =
        changed (before 0xE350F001#32 0x0#32 [(0, 0x1#32)] []) 0x8#32 [] [] := by decide

/-- Section 2.4: rows of the flag generator, one for each flag word CMP can produce. -/
theorem test_flagGen :
    flagGen 5#32 5#32 = 0x8#32 ∧ flagGen 3#32 5#32 = 0x6#32 ∧ flagGen 5#32 3#32 = 0x0#32 ∧
      flagGen 0x80000000#32 1#32 = 0x1#32 ∧ flagGen 0x7FFFFFFF#32 0xFFFFFFFF#32 = 0x7#32 ∧
      flagGen 0xFFFFFFFF#32 1#32 = 0x4#32 ∧ flagGen 1#32 0xFFFFFFFF#32 = 0x2#32 := by decide

/-- Section 2.5: offsets, and the rows 0x1, 0x7, 0x8 of the condition table (EQ, NE, GE, LT, GT, LE, AL). -/
theorem test_branch_operands :
    branchOffset 0x00003E#24 = 0x100#32 ∧ branchOffset 0xFFFFFE#24 = 0#32 ∧
      branchOffset 0x7FFFFF#24 = 0x02000004#32 ∧ branchOffset 0x800000#24 = 0xFE000008#32 ∧
      [0#4, 1#4, 10#4, 11#4, 12#4, 13#4, 14#4].map (fun c => condHolds c 0x1#32) =
        [some false, some true, some false, some true, some false, some true, some true] ∧
      [0#4, 1#4, 10#4, 11#4, 12#4, 13#4, 14#4].map (fun c => condHolds c 0x7#32) =
        [some false, some true, some true, some false, some true, some false, some true] ∧
      [0#4, 1#4, 10#4, 11#4, 12#4, 13#4, 14#4].map (fun c => condHolds c 0x8#32) =
        [some true, some false, some true, some false, some false, some true, some true] := by decide

/-- Section 2.5: each condition once. -/
theorem test_step_branch :
    (before 0x0A000002#32 0x8#32 [] []).afterStep =
        changed (before 0x0A000002#32 0x8#32 [] []) 0x8#32 [(15, 0x1010#32)] [] ∧
      (before 0x1A000002#32 0x8#32 [] []).afterStep =
        changed (before 0x1A000002#32 0x8#32 [] []) 0x8#32 [(15, 0x1004#32)] [] ∧
      (before 0xAA000002#32 0x1#32 [] []).afterStep =
        changed (before 0xAA000002#32 0x1#32 [] []) 0x1#32 [(15, 0x1004#32)] [] ∧
      (before 0xBA000002#32 0x1#32 [] []).afterStep =
        changed (before 0xBA000002#32 0x1#32 [] []) 0x1#32 [(15, 0x1010#32)] [] ∧
      (before 0xCA000002#32 0x2#32 [] []).afterStep =
        changed (before 0xCA000002#32 0x2#32 [] []) 0x2#32 [(15, 0x1010#32)] [] ∧
      (before 0xDA000002#32 0x8#32 [] []).afterStep =
        changed (before 0xDA000002#32 0x8#32 [] []) 0x8#32 [(15, 0x1010#32)] [] ∧
      (before 0xEAFFFFFA#32 0x0#32 [] []).afterStep =
        changed (before 0xEAFFFFFA#32 0x0#32 [] []) 0x0#32 [(15, 0xFF0#32)] [] := by decide

/-- Section 2.5: the link register is written taken or not. -/
theorem test_step_branch_link :
    (before 0xEB00003E#32 0x0#32 [(14, 0xAAAA0000#32)] []).afterStep =
        changed (before 0xEB00003E#32 0x0#32 [(14, 0xAAAA0000#32)] []) 0x0#32 [(14, 0x1004#32), (15, 0x1100#32)] [] ∧
      (before 0x0B00003E#32 0x0#32 [(14, 0xAAAA0000#32)] []).afterStep =
        changed (before 0x0B00003E#32 0x0#32 [(14, 0xAAAA0000#32)] []) 0x0#32 [(14, 0x1004#32), (15, 0x1004#32)] [] := by decide

/-- Section 2.6: the largest aligned offset; shamt 31 loses every bit; bits 6:5 ignored; Rd = Rn with bit 21 set. -/
theorem test_step_ldr :
    (before 0xE59100FC#32 0x7#32 [(1, 0x8000#32)] [(0x80FC, 0xBADF00D#32)]).afterStep =
        changed (before 0xE59100FC#32 0x7#32 [(1, 0x8000#32)] [(0x80FC, 0xBADF00D#32)]) 0x7#32 [(0, 0xBADF00D#32), (15, 0x1004#32)] [] ∧
      (before 0xE7910F82#32 0x0#32 [(1, 0x8000#32), (2, 0x2#32)] [(0x8000, 0x55#32)]).afterStep =
        changed (before 0xE7910F82#32 0x0#32 [(1, 0x8000#32), (2, 0x2#32)] [(0x8000, 0x55#32)]) 0x0#32 [(0, 0x55#32), (15, 0x1004#32)] [] ∧
      (before 0xE7910122#32 0x0#32 [(1, 0x8000#32), (2, 0x1#32)] [(0x8004, 0x66#32)]).afterStep =
        changed (before 0xE7910122#32 0x0#32 [(1, 0x8000#32), (2, 0x1#32)] [(0x8004, 0x66#32)]) 0x0#32 [(0, 0x66#32), (15, 0x1004#32)] [] ∧
      (before 0xE5B10004#32 0x0#32 [(1, 0x8000#32)] [(0x8004, 0x88#32)]).afterStep =
        changed (before 0xE5B10004#32 0x0#32 [(1, 0x8000#32)] [(0x8004, 0x88#32)]) 0x0#32 [(0, 0x88#32), (15, 0x1004#32)] [] := by decide

/-- Section 2.6: a jump through memory. -/
theorem test_step_ldr_pc :
    (before 0xE591F000#32 0x0#32 [(1, 0x8000#32)] [(0x8000, 0x1800#32)]).afterStep =
        changed (before 0xE591F000#32 0x0#32 [(1, 0x8000#32)] [(0x8000, 0x1800#32)]) 0x0#32 [(15, 0x1800#32)] [] := by decide

/-- Section 2.6: both forms; a store of the base; STR pc stores the own address and does not advance. -/
theorem test_step_str :
    (before 0xE5810004#32 0x7#32 [(0, 0xCAFEBABE#32), (1, 0x8000#32)] []).afterStep =
        changed (before 0xE5810004#32 0x7#32 [(0, 0xCAFEBABE#32), (1, 0x8000#32)] []) 0x7#32 [(15, 0x1004#32)] [(0x8004, 0xCAFEBABE#32)] ∧
      (before 0xE7810102#32 0x0#32 [(0, 0x7#32), (1, 0x8000#32), (2, 0x2#32)] []).afterStep =
        changed (before 0xE7810102#32 0x0#32 [(0, 0x7#32), (1, 0x8000#32), (2, 0x2#32)] []) 0x0#32 [(15, 0x1004#32)] [(0x8008, 0x7#32)] ∧
      (before 0xE5811000#32 0x0#32 [(1, 0x8000#32)] []).afterStep =
        changed (before 0xE5811000#32 0x0#32 [(1, 0x8000#32)] []) 0x0#32 [(15, 0x1004#32)] [(0x8000, 0x8000#32)] ∧
      (before 0xE581F000#32 0x0#32 [(1, 0x8000#32)] []).afterStep =
        changed (before 0xE581F000#32 0x0#32 [(1, 0x8000#32)] []) 0x0#32 [] [(0x8000, 0x1000#32)] := by decide

/-- Section 2.6: misaligned and unmapped loads and stores. -/
theorem test_step_access_faults :
    (before 0xE5910001#32 0x0#32 [(1, 0x8000#32)] []).afterStep =
        failed (before 0xE5910001#32 0x0#32 [(1, 0x8000#32)] []) .invalidMemoryAccess 0x00008001#32 ∧
      (before 0xE59D0000#32 0x0#32 [] []).afterStep =
        failed (before 0xE59D0000#32 0x0#32 [] []) .invalidMemoryAccess 0x00020000#32 ∧
      (before 0xE5810000#32 0x0#32 [(0, 0x1#32), (1, 0x9000#32)] []).afterStep =
        failed (before 0xE5810000#32 0x0#32 [(0, 0x1#32), (1, 0x9000#32)] []) .invalidMemoryAccess 0x00009000#32 ∧
      (before 0xE5810002#32 0x0#32 [(0, 0x1#32), (1, 0x8000#32)] []).afterStep =
        failed (before 0xE5810002#32 0x0#32 [(0, 0x1#32), (1, 0x8000#32)] []) .invalidMemoryAccess 0x00008002#32 := by decide

/-- Sections 2.3, 2.5, 2.6, 2.7: one word of each refused group, the last two with a bad address too. -/
theorem test_step_refused_words :
    (before 0xE2000001#32 0x0#32 [(0, 0x3#32)] []).afterStep =
        failed (before 0xE2000001#32 0x0#32 [(0, 0x3#32)] []) .unsupportedEncoding 0xE2000001#32 ∧
      (before 0xE1800001#32 0x0#32 [(0, 0x3#32)] []).afterStep =
        failed (before 0xE1800001#32 0x0#32 [(0, 0x3#32)] []) .unsupportedEncoding 0xE1800001#32 ∧
      (before 0x2B00003E#32 0x0#32 [(14, 0xAAAA0000#32)] []).afterStep =
        failed (before 0x2B00003E#32 0x0#32 [(14, 0xAAAA0000#32)] []) .undefinedCondition 0x2B00003E#32 ∧
      (before 0xFA000000#32 0x0#32 [] []).afterStep =
        failed (before 0xFA000000#32 0x0#32 [] []) .undefinedCondition 0xFA000000#32 ∧
      (before 0xE8BD8000#32 0x0#32 [] []).afterStep =
        failed (before 0xE8BD8000#32 0x0#32 [] []) .unrecognizedInstruction 0xE8BD8000#32 ∧
      (before 0xEF000011#32 0x0#32 [] []).afterStep =
        failed (before 0xEF000011#32 0x0#32 [] []) .unrecognizedInstruction 0xEF000011#32 ∧
      (before 0xE49D0004#32 0x0#32 [] []).afterStep =
        failed (before 0xE49D0004#32 0x0#32 [] []) .unsupportedEncoding 0xE49D0004#32 ∧
      (before 0xE5510000#32 0x0#32 [(1, 0x9000#32)] []).afterStep =
        failed (before 0xE5510000#32 0x0#32 [(1, 0x9000#32)] []) .unsupportedEncoding 0xE5510000#32 ∧
      (before 0xE5D10000#32 0x0#32 [(1, 0x9000#32)] []).afterStep =
        failed (before 0xE5D10000#32 0x0#32 [(1, 0x9000#32)] []) .unsupportedEncoding 0xE5D10000#32 := by decide

/-- From the vectors' state, a step of the word `w` enters the fault `k` with that word. -/
abbrev Refuses (k : FaultKind) (w : Word) : Prop := (before w 0#32 [] []).afterStep = failed (before w 0#32 [] []) k w

/-- R99: the rows of opcodes 0000 to 0111, on the row's own match word. -/
theorem test_refused_opcodes_low :
    Refuses .unsupportedEncoding 0x02000000#32 ∧
      Refuses .unsupportedEncoding 0x00000000#32 ∧
      Refuses .unsupportedEncoding 0x02200000#32 ∧
      Refuses .unsupportedEncoding 0x00200000#32 ∧
      Refuses .unsupportedEncoding 0x02600000#32 ∧
      Refuses .unsupportedEncoding 0x00600000#32 ∧
      Refuses .unsupportedEncoding 0x02A00000#32 ∧
      Refuses .unsupportedEncoding 0x00A00000#32 ∧
      Refuses .unsupportedEncoding 0x02C00000#32 ∧
      Refuses .unsupportedEncoding 0x00C00000#32 ∧
      Refuses .unsupportedEncoding 0x02E00000#32 ∧
      Refuses .unsupportedEncoding 0x00E00000#32 := by decide

/-- R99: the rows of opcodes 1000 to 1111. -/
theorem test_refused_opcodes_high :
    Refuses .unsupportedEncoding 0x03000000#32 ∧
      Refuses .unsupportedEncoding 0x01000000#32 ∧
      Refuses .unsupportedEncoding 0x03200000#32 ∧
      Refuses .unsupportedEncoding 0x01200000#32 ∧
      Refuses .unsupportedEncoding 0x03600000#32 ∧
      Refuses .unsupportedEncoding 0x01600000#32 ∧
      Refuses .unsupportedEncoding 0x03800000#32 ∧
      Refuses .unsupportedEncoding 0x01800000#32 ∧
      Refuses .unsupportedEncoding 0x03C00000#32 ∧
      Refuses .unsupportedEncoding 0x01C00000#32 ∧
      Refuses .unsupportedEncoding 0x03E00000#32 ∧
      Refuses .unsupportedEncoding 0x01E00000#32 := by decide

/-- R133, R116, R156: the refused modes, the undefined conditions and the words of no family. -/
theorem test_refused_modes_and_words :
    Refuses .unsupportedEncoding 0x04000000#32 ∧
      Refuses .unsupportedEncoding 0x05000000#32 ∧
      Refuses .unsupportedEncoding 0x05C00000#32 ∧
      Refuses .undefinedCondition 0x2A000000#32 ∧
      Refuses .undefinedCondition 0x3A000000#32 ∧
      Refuses .undefinedCondition 0x4A000000#32 ∧
      Refuses .undefinedCondition 0x5A000000#32 ∧
      Refuses .undefinedCondition 0x6A000000#32 ∧
      Refuses .undefinedCondition 0x7A000000#32 ∧
      Refuses .undefinedCondition 0x8A000000#32 ∧
      Refuses .undefinedCondition 0x9A000000#32 ∧
      Refuses .undefinedCondition 0xFA000000#32 ∧
      Refuses .unrecognizedInstruction 0x08000000#32 ∧
      Refuses .unrecognizedInstruction 0x0C000000#32 := by decide

/-- Section 2.2 and 2.8: a step that ends with program counter 0 halts, also by wrapping at the top of the space. -/
theorem test_step_halts :
    (before 0xE12FFF1E#32 0#32 [] []).afterStep =
        { (changed (before 0xE12FFF1E#32 0#32 [] []) 0#32 [(15, 0#32)] []) with runState := .halted } ∧
      (let s := { State.reset.setReg 15 0xFFFFFFFC#32 with
          mem := Memory.reset.putWord 0xFFFFFFFC 0xE3A00001#32 }
       s.afterStep = { (s.setReg 0 1#32).setReg 15 0#32 with runState := .halted }) := by decide

/-- Section 2.7: fetch from an unmapped and from a misaligned address. -/
theorem test_step_fetch_faults :
    (let s := before 0#32 0#32 [(15, 0x9000#32)] []
     s.afterStep = { s with
      runState := .faulted, faultCode := some .invalidMemoryAccess, faultPc := 0x9000#32, faultInfo := 0x9000#32 }) ∧
      (let s := before 0#32 0#32 [(15, 0x1002#32)] []
       s.afterStep = { s with
        runState := .faulted, faultCode := some .invalidMemoryAccess, faultPc := 0x1002#32, faultInfo := 0x1002#32 }) := by
  decide

/-- Section 2.8: a Step in Halted or Faulted changes nothing. -/
theorem test_step_after_the_end :
    (let s := { State.reset with runState := .halted }; s.afterStep = s) ∧
      (let s := State.reset.raise .undefinedCondition 7#32; s.afterStep = s) := by decide

/-- Section 2.8: Initialize after a run, with the stack buffer zeroed and other memory kept; and entry 0. -/
theorem test_initialize :
    (let s := before 0#32 0x7#32 [(5, 9#32)] [(0x1FFF8, 7#32), (0x8000, 5#32)]
     let t := s.initialize Config.params 0x1000#32 1#32 2#32 3#32 4#32
     [t.reg 0, t.reg 1, t.reg 2, t.reg 3, t.reg 5, t.reg 13, t.reg 15] =
        [1#32, 2#32, 3#32, 4#32, 0#32, 0x20000#32, 0x1000#32] ∧
      t.flags = 0#32 ∧ t.runState = .running ∧ t.mem.wordAt 0x1FFF8 = 0#32 ∧ t.mem.wordAt 0x8000 = 5#32) ∧
      (State.reset.initialize Config.params 0#32 9#32 0#32 0#32 0#32).report = .result 9#32 := by decide

/-- Program P1 (E9) of Part 3, by Run: the result is 8. -/
theorem test_run :
    ((before 0xE3A00005#32 0#32 [] [(0x1004, 0xE2800003#32), (0x1008, 0xE12FFF1E#32)]).run 4).report = .result 8#32 := by
  decide

/-- withFetchWord from reset: the placed word runs first. -/
theorem test_withFetchWord :
    (State.reset.withFetchWord 32 0xE3A00005).afterStep.reg 0 = 5#32 ∧
      (State.reset.withFetchWord 32 0xE3A00005).afterStep.pc = 0x1004#32 := by decide
/-! ### Witnesses: for each obligation with hypotheses, concrete cases that meet all of them, at the ends of the ranges -/

/-- A state of the vectors with 0x8000 in register 1, for the witnesses below. -/
def sample (w : Word) : State := before w 0#32 [(1, 0x8000#32), (2, 4#32), (3, 0x80FC#32)] [(0x80FC, 0x11223344#32)]

theorem sample_wf (w : Word) : (sample w).mem.wf := by
  have h : (before 0#32 0#32 [] []).mem.wf := by decide
  have h0 : (({ mapped := [⟨0x1000, 0x400⟩, ⟨0x8000, 0x40⟩, ⟨0x1F000, 0x400⟩], cells := [] } : Memory)).wf := h
  exact Memory.putWord_wf (a := 0x80FC#32) (Memory.putWord_wf (a := 0x1000#32) h0 (by decide) w)
    (by rw [Memory.accessible_putWord]; decide) _

theorem sample_inv : StateInv (sample 0xE12FFF1F#32) where
  memory := sample_wf _
  flags := by decide
  halted := by decide
  record := by decide

theorem witness_DecodeOfEncodeIsTheInstruction :
    (Instr.strReg 15 15 15 31#5).wellFormed = true ∧ (Instr.dp1001Reg 0xFFFFFFEF#32 |>.wellFormed) = false ∧
      (Instr.dp1001Reg 0xE12FFF3E#32).wellFormed = true ∧ (Instr.sdtByte 0xFFFFFFFF#32).wellFormed = false ∧
      (Instr.sdtByte 0xF7FFFFFF#32).wellFormed = true := by decide

theorem witness_RefusedWordsKeepEveryBit :
    (decodeWord 0xFFFFFFFF#32).executes = false ∧ (decodeWord 0x00000000#32).executes = false ∧
      (decodeWord 0x2B00003E#32).executes = false := by decide

theorem witness_DontCareBitsHaveNoEffect :
    (decodeWord 0xE2800003#32).executes = true ∧ 0xF0100F00#32 &&& ~~~(decodeWord 0xE2800003#32).dontCare = 0#32 ∧
      (decodeWord 0xE12FFF1E#32).executes = true ∧ 0xF0000000#32 &&& ~~~(decodeWord 0xE12FFF1E#32).dontCare = 0#32 := by
  decide

theorem witness_ClassifierOverlapIsBxInDataProcessing :
    isBX 0xE12FFF1E#32 = true ∧ isB 0xEA000000#32 = true ∧ (isDP 0xE13FFF1E#32 && !isBX 0xE13FFF1E#32) = true ∧
      isSDT 0xE5910004#32 = true ∧ (isB 0xEF000011#32 || isDP 0xEF000011#32 || isSDT 0xEF000011#32) = false := by decide

theorem witness_BxSetsThePcAndNothingElse :
    0x012FFF10#32 &&& 0x0FFFFFF0#32 = 0x012FFF10#32 ∧ 0xF12FFF1F#32 &&& 0x0FFFFFF0#32 = 0x012FFF10#32 := by decide

theorem witness_AddWritesTheSum :
    0xF29FFFFF#32 &&& 0x0FE00000#32 = 0x02800000#32 ∧ 0x009FFFFF#32 &&& 0x0FE00000#32 = 0x00800000#32 ∧
      (before 0#32 0#32 [(5, 0xFFFFFFFF#32), (6, 1#32)] []).runState = .running ∧
      (before 0#32 0#32 [(5, 0xFFFFFFFF#32), (6, 1#32)] []).reg 5 + BitVec.setWidth 32 1#8 = 0#32 ∧
      (before 0#32 0#32 [(5, 0xFFFFFFFF#32), (6, 1#32)] []).reg 5 +
        (before 0#32 0#32 [(5, 0xFFFFFFFF#32), (6, 1#32)] []).reg 6 = 0#32 := by decide

theorem witness_SubWritesTheDifference :
    0xF25FFFFF#32 &&& 0x0FE00000#32 = 0x02400000#32 ∧ 0x005FFFFF#32 &&& 0x0FE00000#32 = 0x00400000#32 := by decide

theorem witness_CmpWritesTheFlagsAndNoRegister :
    0xF35FFFFF#32 &&& 0x0FE00000#32 = 0x03400000#32 ∧ 0x015FFFFF#32 &&& 0x0FE00000#32 = 0x01400000#32 ∧
      (∃ t, exec (.cmpImm Reg.pc 0 1#8) (sample 0#32) = .next t) ∧
      ∃ t, exec (.cmpReg Reg.pc 15 1) (sample 0#32) = .next t := ⟨by decide, by decide, ⟨_, rfl⟩, _, rfl⟩

theorem witness_MovWritesTheOperand :
    0xF3BFFFFF#32 &&& 0x0FE00000#32 = 0x03A00000#32 ∧ 0x01BFFFFF#32 &&& 0x0FE00000#32 = 0x01A00000#32 ∧
      (sample 0#32).runState = .running := by decide

/-- Each of the six forms, and a result that is 0, misaligned, and not mapped. -/
theorem witness_DataProcessingToPcIsAComputedJump :
    (sample 0xE281F0FF#32).fetch = some 0xE281F0FF#32 ∧ (sample 0xE081F002#32).fetch = some 0xE081F002#32 ∧
      (sample 0xE242F004#32).fetch = some 0xE242F004#32 ∧ (sample 0xE041F002#32).fetch = some 0xE041F002#32 ∧
      (sample 0xE3A0F001#32).fetch = some 0xE3A0F001#32 ∧ (sample 0xE1A0F003#32).fetch = some 0xE1A0F003#32 ∧
      (sample 0xE281F0FF#32).runState = .running ∧
      decodeWord 0xE281F0FF#32 = .addImm Reg.pc 1 0xFF#8 ∧ decodeWord 0xE081F002#32 = .addReg Reg.pc 1 2 ∧
      decodeWord 0xE242F004#32 = .subImm Reg.pc 2 4#8 ∧ decodeWord 0xE041F002#32 = .subReg Reg.pc 1 2 ∧
      decodeWord 0xE3A0F001#32 = .movImm Reg.pc 1#8 ∧ decodeWord 0xE1A0F003#32 = .movReg Reg.pc 3 ∧
      (sample 0xE242F004#32).reg 2 - BitVec.setWidth 32 4#8 = 0#32 ∧
      ((sample 0xE281F0FF#32).reg 1 + BitVec.setWidth 32 0xFF#8).toNat % 4 ≠ 0 ∧
      (sample 0xE041F002#32).mem.isMapped ((sample 0xE041F002#32).reg 1 - (sample 0xE041F002#32).reg 2) = false := by
  and_intros <;> decide

theorem witness_UnsupportedOpcodesFault :
    isDP 0xE13FFF1E#32 = true ∧ isBX 0xE13FFF1E#32 = false ∧
      BitVec.extractLsb' 21 4 0xE13FFF1E#32 ∉ [0b0100#4, 0b0010#4, 0b1010#4, 0b1101#4] ∧
      Instr.dp1111Reg ∈ unsupportedOpcodes := by
  refine ⟨by decide, by decide, by decide, by simp [unsupportedOpcodes]⟩

theorem witness_OnlyCmpChangesTheFlags :
    (∃ t, exec (.cmpImm 15 0 0#8) (sample 0#32) = .next t ∧ t.flags ≠ (sample 0#32).flags) ∧
      ∃ t, exec (.cmpReg 0 1 1) (sample 0#32) = .next t ∧ t.flags ≠ (sample 0#32).flags :=
  ⟨⟨_, rfl, by decide⟩, _, rfl, by decide⟩

theorem witness_OnlyBranchesReadTheFlags :
    (Instr.cmpImm 15 1 0#8).isBranch = false ∧ (∃ t, exec (.cmpImm 15 1 0#8) (sample 0#32) = .next t) ∧
      (Instr.strImm 15 1 0#8).isBranch = false ∧ ∃ t, exec (.strImm 15 1 0#8) (sample 0#32) = .next t :=
  ⟨by decide, ⟨_, rfl⟩, by decide, ⟨_, rfl⟩⟩

theorem witness_BranchGoesToTheTargetIfTheConditionHolds : ∀ r ∈ branchRowsOf,
    (r.code ++ 0xAFFFFFF#28) &&& 0x0F000000#32 = 0x0A000000#32 ∧
      BitVec.extractLsb' 28 4 (r.code ++ 0xAFFFFFF#28 : Word) = r.code := by
  simp only [branchRowsOf, List.forall_mem_cons]
  decide

theorem witness_BranchWithLinkAlwaysLinks : ∀ r ∈ branchRowsOf,
    (r.code ++ 0xB000000#28) &&& 0x0F000000#32 = 0x0B000000#32 ∧
      BitVec.extractLsb' 28 4 (r.code ++ 0xB000000#28 : Word) = r.code := by
  simp only [branchRowsOf, List.forall_mem_cons]
  decide

theorem witness_UndefinedConditionsFaultBeforeAnyWrite : ∀ p ∈ undefinedBranches,
    isB (p.1 ++ 0xA000000#28) = true ∧ isB (p.1 ++ 0xBFFFFFF#28) = true ∧
      BitVec.extractLsb' 28 4 (p.1 ++ 0xA000000#28 : Word) = p.1 ∧
      BitVec.extractLsb' 28 4 (p.1 ++ 0xBFFFFFF#28 : Word) = p.1 := by
  simp only [undefinedBranches, List.forall_mem_cons]
  decide

theorem witness_OnlyJumpsMisalignThePc :
    (∃ t, exec (.bx 3) (before 0#32 0#32 [(3, 0x1235#32)] []) = .next t ∧
      (before 0#32 0#32 [(3, 0x1235#32)] []).pc.toNat % 4 = 0 ∧ t.pc.toNat % 4 ≠ 0) ∧
      (before 0#32 0#32 [(15, 0xFFFFFFFF#32)] []).runState = .running ∧
      (before 0#32 0#32 [(15, 0xFFFFFFFF#32)] []).pc.toNat % 4 ≠ 0 :=
  ⟨⟨_, rfl, by decide, by decide⟩, by decide, by decide⟩

/-- A word of each row; the last word of a range, and the first and last word of a fully mapped space; a misaligned
address and the word just past the range. -/
theorem witness_LdrLoadsTheWordAtTheEffectiveAddress :
    0xF5BFFFFF#32 &&& 0x0FD00000#32 = 0x05900000#32 ∧ 0x079FFFFF#32 &&& 0x0FD00000#32 = 0x07900000#32 ∧
      0x80FC#32 = (sample 0#32).reg 1 + BitVec.setWidth 32 0xFC#8 ∧ (0x80FC#32).toNat % 4 = 0 ∧
      (sample 0#32).mem.isMapped 0x80FC#32 = true ∧
      0x8010#32 = (sample 0#32).reg 1 + ((sample 0#32).reg 2 <<< (2#5).toNat) ∧
      (sample 0#32).mem.isMapped 0x8010#32 = true ∧
      State.reset.mem.isMapped 0#32 = true ∧ State.reset.mem.isMapped 0xFFFFFFFC#32 = true ∧
      0x80FD#32 = (sample 0#32).reg 3 + BitVec.setWidth 32 1#8 ∧ (0x80FD#32).toNat % 4 ≠ 0 ∧
      0x8100#32 = (sample 0#32).reg 3 + ((sample 0#32).reg 2 <<< (0#5).toNat) ∧
      (sample 0#32).mem.isMapped 0x8100#32 = false := by decide

theorem witness_StrStoresTheWordAtTheEffectiveAddress :
    0xF5AFFFFF#32 &&& 0x0FD00000#32 = 0x05800000#32 ∧ 0x078FFFFF#32 &&& 0x0FD00000#32 = 0x07800000#32 ∧
      (sample 0#32).mem.wf ∧ 0x80FC#32 = (sample 0#32).reg 1 + BitVec.setWidth 32 0xFC#8 ∧
      (0x80FC#32).toNat % 4 = 0 ∧ (sample 0#32).mem.isMapped 0x80FC#32 = true ∧
      0x8000#32 = (sample 0#32).reg 1 + ((sample 0#32).reg 2 <<< (31#5).toNat) ∧
      (0x8000#32).toNat % 4 = 0 ∧ (sample 0#32).mem.isMapped 0x8000#32 = true ∧
      0x80FD#32 = (sample 0#32).reg 3 + BitVec.setWidth 32 1#8 ∧ (0x80FD#32).toNat % 4 ≠ 0 ∧
      0x8100#32 = (sample 0#32).reg 3 + ((sample 0#32).reg 2 <<< (0#5).toNat) ∧
      (sample 0#32).mem.isMapped 0x8100#32 = false := by
  refine ⟨by decide, by decide, sample_wf _, ?_⟩
  decide

/-- A fetch just past a range; a load misaligned in a mapped word; a store to the word just past a range. -/
theorem witness_InaccessibleAddressesFault :
    (before 0#32 0#32 [(15, 0x2000#32)] []).runState = .running ∧
      (before 0#32 0#32 [(15, 0x2000#32)] []).mem.isMapped 0x2000#32 = false ∧
      0x2000#32 = (before 0#32 0#32 [(15, 0x2000#32)] []).pc ∧ (sample 0xE5930001#32).runState = .running ∧
      (sample 0xE5930001#32).fetch = some 0xE5930001#32 ∧ decodeWord 0xE5930001#32 = .ldrImm 0 3 1#8 ∧
      0x80FD#32 = (sample 0xE5930001#32).reg 3 + BitVec.setWidth 32 1#8 ∧ (0x80FD#32).toNat % 4 ≠ 0 ∧
      (sample 0xE7830002#32).fetch = some 0xE7830002#32 ∧ decodeWord 0xE7830002#32 = .strReg 0 3 2 0#5 ∧
      0x8100#32 = (sample 0xE7830002#32).reg 3 + ((sample 0xE7830002#32).reg 2 <<< (0#5).toNat) ∧
      (sample 0xE7830002#32).mem.isMapped 0x8100#32 = false := by
  and_intros <;> decide

theorem witness_UnsupportedModesFault :
    isSDT 0xE49D0004#32 = true ∧ BitVec.getLsbD 0xE49D0004#32 24 = false ∧
      isSDT 0xE5110004#32 = true ∧ BitVec.getLsbD 0xE5110004#32 23 = false ∧
      isSDT 0xE5D10000#32 = true ∧ BitVec.getLsbD 0xE5D10000#32 22 = true ∧ Instr.sdtByte ∈ unsupportedModes := by
  refine ⟨by decide, by decide, by decide, by decide, by decide, by decide, by simp [unsupportedModes]⟩

/-- Both forms, and Rd = 15, whose load changes no other register. -/
theorem witness_LoadThenStoreRestoresMemory :
    (sample 0#32).mem.wf ∧ 0x80FC#32 = (sample 0#32).reg 1 + BitVec.setWidth 32 0xFC#8 ∧ (0x80FC#32).toNat % 4 = 0 ∧
      (sample 0#32).mem.isMapped 0x80FC#32 = true ∧
      (∃ t, exec (.ldrImm 15 1 0xFC#8) (sample 0#32) = .next t ∧ t.reg 1 = (sample 0#32).reg 1) ∧
      0x8000#32 = (sample 0#32).reg 1 + ((sample 0#32).reg 2 <<< (31#5).toNat) ∧
      (sample 0#32).mem.isMapped 0x8000#32 = true ∧
      ∃ t, exec (.ldrReg 0 1 2 31#5) (sample 0#32) = .next t ∧ t.reg 1 = (sample 0#32).reg 1 ∧
        t.reg 2 = (sample 0#32).reg 2 :=
  ⟨sample_wf _, by decide, by decide, by decide, ⟨_, rfl, by decide⟩, by decide, by decide,
    ⟨_, rfl, by decide, by decide⟩⟩

theorem witness_MemWriteChangesExactlyOneWord :
    (sample 0#32).mem.wf ∧ (0x80FF#32).toNat % 4 ≠ 0 ∧ (sample 0#32).mem.isMapped 0x8100#32 = false ∧
      (0x80FC#32).toNat % 4 = 0 ∧ (sample 0#32).mem.isMapped 0x80FC#32 = true ∧
      State.reset.mem.wf ∧ (0xFFFFFFFC#32).toNat % 4 = 0 ∧ State.reset.mem.isMapped 0xFFFFFFFC#32 = true :=
  ⟨sample_wf _, by decide, by decide, by decide, by decide, Memory.reset_wf, by decide, by decide⟩

theorem witness_WordsAreLittleEndian :
    (sample 0#32).mem.wf ∧ 0 < 4 ∧ 3 < 4 ∧ (sample 0#32).memRead 0x80FC#32 = some 0x11223344#32 ∧
      (sample 0xE3A00005#32).fetch = some 0xE3A00005#32 := ⟨sample_wf _, by decide, by decide, by decide, by decide⟩

/-- A store over the word of the store itself, in both forms. -/
theorem witness_AStoreIsSeenByTheNextFetch :
    (sample 0#32).mem.wf ∧ (0x1000#32).toNat % 4 = 0 ∧ (sample 0#32).mem.isMapped 0x1000#32 = true ∧
      0x1000#32 = (sample 0#32).reg 15 + BitVec.setWidth 32 0#8 ∧
      (∃ t, exec (.strImm 1 15 0#8) (sample 0#32) = .next t) ∧
      0x1000#32 = (sample 0#32).reg 15 + ((sample 0#32).reg 0 <<< (31#5).toNat) ∧
      ∃ t, exec (.strReg 1 15 0 31#5) (sample 0#32) = .next t :=
  ⟨sample_wf _, by decide, by decide, by decide, ⟨_, rfl⟩, by decide, ⟨_, rfl⟩⟩

theorem witness_EqualMemoriesAreEqualData :
    (sample 0#32).mem.wf ∧ ((sample 0#32).mem.putWord 0x80FC 0x11223344#32).wf ∧
      ((sample 0#32).mem.putWord 0x80FC 0x11223344#32).mapped = (sample 0#32).mem.mapped ∧
      ∀ a : Nat, ((sample 0#32).mem.putWord 0x80FC 0x11223344#32).byteAt a = (sample 0#32).mem.byteAt a := by
  have h : (sample 0#32).mem.putWord 0x80FC 0x11223344#32 = (sample 0#32).mem := by decide
  rw [h]
  exact ⟨sample_wf _, sample_wf _, rfl, fun _ => rfl⟩

theorem witness_OnlyStrChangesMemory :
    (∃ t, exec (.ldrImm 0 1 0#8) (sample 0#32) = .next t) ∧ (Instr.ldrImm 0 1 0#8).isStore = false ∧
      ∃ t, step (sample 0xE5810000#32) = .next t ∧ t.runState = .running :=
  ⟨⟨_, rfl⟩, by decide, _, rfl, by decide⟩

theorem witness_OtherInstructionsIgnoreMemory :
    (Instr.bl 0#24).accessesMemory = false ∧ (∃ t, exec (.bl 0#24) (sample 0#32) = .next t) ∧
      (Instr.sdtByte 0xE5D10000#32).accessesMemory = false ∧
      ∃ t, exec (.sdtByte 0xE5D10000#32) (sample 0#32) = .next t :=
  ⟨by decide, ⟨_, rfl⟩, by decide, ⟨_, rfl⟩⟩

/-- A step that halts and one that goes on. -/
theorem witness_AStepRunsTheDecodedInstruction :
    let s := sample 0xE12FFF1E#32
    let u := sample 0xE3A00005#32
    s.runState = .running ∧ s.pc.toNat % 4 = 0 ∧ s.mem.isMapped s.pc = true ∧
      decode [s.mem.byteAt s.pc.toNat, s.mem.byteAt (s.pc.toNat + 1), s.mem.byteAt (s.pc.toNat + 2),
        s.mem.byteAt (s.pc.toNat + 3)] = .ok (.bx 14, []) ∧
      (∃ t, exec (.bx 14) s = .next t ∧ t.runState = .running ∧ t.pc = 0#32) ∧
      decode [u.mem.byteAt u.pc.toNat, u.mem.byteAt (u.pc.toNat + 1), u.mem.byteAt (u.pc.toNat + 2),
        u.mem.byteAt (u.pc.toNat + 3)] = .ok (.movImm 0 5#8, []) ∧
      ∃ t, exec (.movImm 0 5#8) u = .next t ∧ t.pc ≠ 0#32 :=
  ⟨by decide, by decide, by decide, rfl, ⟨_, rfl, by decide, by decide⟩, rfl, ⟨_, rfl, by decide⟩⟩

theorem witness_RunStateTransitions :
    ((sample 0#32).raise .undefinedCondition 0#32).runState ≠ .running ∧ (sample 0#32).runState = .running ∧
      (∃ t, step (sample 0#32) = .next t ∧ t.runState = .faulted) ∧
      (∃ t, step (sample 0xE12FFF1E#32) = .next t ∧ t.runState = .halted) ∧
      ∃ t, step (sample 0xE3A00005#32) = .next t ∧ t.runState = .running :=
  ⟨by decide, by decide, ⟨_, rfl, by decide⟩, ⟨_, rfl, by decide⟩, ⟨_, rfl, by decide⟩⟩

theorem witness_FaultsArePrecise :
    (sample 0x2B00003E#32).runState = .running ∧
      ∃ t, step (sample 0x2B00003E#32) = .next t ∧ t.runState = .faulted := ⟨by decide, _, rfl, by decide⟩

/-- One state for each clause; in the third the address of the refused transfer is bad too. -/
theorem witness_FaultPriority :
    (before 0#32 0#32 [(15, 0x2000#32)] []).fetch = none ∧
      (sample 0xEF000011#32).fetch = some 0xEF000011#32 ∧ classify 0xEF000011#32 = .unrecognised ∧
      (sample 0xE5D10001#32).fetch = some 0xE5D10001#32 ∧ classify 0xE5D10001#32 = .singleDataTransfer ∧
      (decodeWord 0xE5D10001#32).executes = false ∧
      (sample 0xE0000091#32).fetch = some 0xE0000091#32 ∧ classify 0xE0000091#32 = .dataProcessing ∧
      (decodeWord 0xE0000091#32).executes = false ∧
      (sample 0x8A000000#32).fetch = some 0x8A000000#32 ∧ classify 0x8A000000#32 = .conditionalBranch ∧
      (decodeWord 0x8A000000#32).executes = false ∧
      (sample 0xE5910001#32).fetch = some 0xE5910001#32 ∧ (sample 0xE5910001#32).faultCode = none ∧
      ∃ t, step (sample 0xE5910001#32) = .next t ∧ t.faultCode = some .invalidMemoryAccess := by
  and_intros <;> first | decide | exact ⟨_, rfl, by decide⟩

/-- One state for each of the four loops. -/
theorem witness_LivelocksChangeNothing :
    StateInv (sample 0xE12FFF1F#32) ∧ (sample 0xE12FFF1F#32).runState = .running ∧
      (sample 0xE12FFF1F#32).fetch = some 0xE12FFF1F#32 ∧ decodeWord 0xE12FFF1F#32 = .bx Reg.pc ∧
      (sample 0xEAFFFFFE#32).fetch = some 0xEAFFFFFE#32 ∧ decodeWord 0xEAFFFFFE#32 = .b 0xFFFFFE#24 ∧
      (sample 0xE350F001#32).fetch = some 0xE350F001#32 ∧ decodeWord 0xE350F001#32 = .cmpImm Reg.pc 0 1#8 ∧
      (sample 0xE150F001#32).fetch = some 0xE150F001#32 ∧ decodeWord 0xE150F001#32 = .cmpReg Reg.pc 0 1 ∧
      (sample 0xE581F0FC#32).fetch = some 0xE581F0FC#32 ∧ decodeWord 0xE581F0FC#32 = .strImm Reg.pc 1 0xFC#8 ∧
      0x80FC#32 = (sample 0xE581F0FC#32).reg 1 + BitVec.setWidth 32 0xFC#8 ∧ (0x80FC#32).toNat % 4 = 0 ∧
      (sample 0xE581F0FC#32).mem.isMapped 0x80FC#32 = true ∧ 0x80FC#32 ≠ (sample 0xE581F0FC#32).pc := by
  refine ⟨sample_inv, ?_⟩
  and_intros <;> decide

theorem witness_RegisterFifteenReadsAsTheOwnAddress :
    let s := before 0#32 0#32 [(4, 0xFFFFF000#32)] []
    0x1010#32 = s.pc + BitVec.setWidth 32 0x10#8 ∧ (0x1010#32).toNat % 4 = 0 ∧ s.mem.isMapped 0x1010#32 = true ∧
      0x1000#32 = s.reg 4 + (s.pc <<< (1#5).toNat) ∧ (0x1000#32).toNat % 4 = 0 ∧ s.mem.isMapped 0x1000#32 = true := by
  decide

theorem witness_UnrecognisedWordsFault :
    BitVec.extractLsb' 25 3 0xE8BD8000#32 = 0b100#3 ∧ BitVec.extractLsb' 26 2 0xEC000000#32 = 0b11#2 ∧
      decodeWord 0xE8BD8000#32 = Instr.unrecognised100 0xE8BD8000#32 ∧ Instr.unrecognised100 ∈ unrecognisedWords := by
  refine ⟨by decide, by decide, by decide, by simp [unrecognisedWords]⟩

theorem witness_ARunThatEndedStaysEnded :
    (State.run 1 (sample 0xE12FFF1E#32)).runState ≠ .running ∧ (State.run 1 (sample 0#32)).runState ≠ .running := by
  decide

theorem witness_AFetchWordIsTheNextInstruction :
    (before 0#32 0#32 [(15, 0x2000#32)] []).mem.wf ∧ (before 0#32 0#32 [(15, 0x2000#32)] []).runState = .running ∧
      (before 0#32 0#32 [(15, 0x2000#32)] []).pc.toNat % 4 = 0 ∧ State.reset.mem.wf ∧
      State.reset.runState = .running ∧ State.reset.pc.toNat % 4 = 0 :=
  ⟨by decide, by decide, by decide, Memory.reset_wf, by decide, by decide⟩

/-- The chosen parameters, and the lowest and the highest stack buffer R9 allows. -/
theorem witness_InitializeSetsTheResetValues :
    Config.params.inSpace ∧ ({ stackBase := 4#32, stackWords := 1 } : Params).inSpace ∧
      ({ stackBase := 0xFFFFFFF8#32, stackWords := 1 } : Params).inSpace := by decide

/-- Two states that differ inside the stack buffer, in registers, flags and run state. -/
theorem witness_InitializeForgetsThePreviousRun :
    let s := before 0#32 0x8#32 [(7, 7#32)] [(0x1FFFC, 7#32)]
    let u := (before 0#32 0#32 [] [(0x1F000, 9#32)]).raise .undefinedCondition 1#32
    s.mem.wf ∧ u.mem.wf ∧ s.mem.mapped = u.mem.mapped ∧ s ≠ u ∧
      ∀ a : Nat, ¬ (Config.params.stackBase.toNat ≤ a ∧
          a < Config.params.stackBase.toNat + 4 * Config.params.stackWords) →
        s.mem.byteAt a = u.mem.byteAt a := by
  refine ⟨by decide, by decide, by decide, by decide, fun a h => ?_⟩
  have h0 : (before 0#32 0#32 [] []).mem.wf := by decide
  have e : ∀ b v, 0x1F000 ≤ b → b + 4 ≤ 0x20000 →
      ((before 0#32 0#32 [] []).mem.putWord b v).byteAt a = (before 0#32 0#32 [] []).mem.byteAt a := fun b v hb hb' =>
    Memory.byteAt_putWord_of_outside h0.2.1 v (by
      have h1 : Config.params.stackBase.toNat = 0x1F000 := by decide
      have h2 : Config.params.stackWords = 1024 := rfl
      omega)
  exact (e 0x1FFFC 7#32 (by decide) (by decide)).trans (e 0x1F000 9#32 (by decide) (by decide)).symm

theorem witness_ResetIsInitializeOfTheChosenParameters :
    ({ (sample 0#32) with mem := Memory.reset } : State).mem = Memory.reset := rfl

theorem witness_InitializeEstablishesTheInvariant : (sample 0#32).mem.wf := sample_wf _

/-- The invariant holds of a running state, and steps from such states compare, store, halt and fault. -/
theorem witness_EveryStepKeepsTheInvariant :
    StateInv (sample 0xE12FFF1F#32) ∧ (∃ t, step (sample 0xE12FFF1F#32) = .next t) ∧
      (∃ t, step (sample 0xE1510002#32) = .next t ∧ t.flags = 0x0#32) ∧
      (∃ t, step (sample 0xE5811000#32) = .next t ∧ t.mem ≠ (sample 0xE5811000#32).mem) ∧
      ∃ t, step (sample 0xE12FFF1E#32) = .next t ∧ t.runState = .halted :=
  ⟨sample_inv, ⟨_, rfl⟩, ⟨_, rfl, by decide⟩, ⟨_, rfl, by decide⟩, ⟨_, rfl, by decide⟩⟩

/-- The conventions of 95_test_vectors.md, whose stack buffer is one of the three mapped ranges; the chosen parameters of
`State.reset`; and the highest one-word buffer R9 allows. -/
theorem witness_TheStackBufferIsMappedAndReadsZeroAfterInitialize :
    Config.params.wf (sample 0xE3A00005#32).mem ∧ (∃ t, step (sample 0xE3A00005#32) = .next t) ∧
      Config.params.wf State.reset.mem ∧ ({ stackBase := 0xFFFFFFF8#32, stackWords := 1 } : Params).wf State.reset.mem :=
  ⟨Params.wf_of_region (r := ⟨0x1F000, 0x400⟩) (by decide) (by decide) (by decide), ⟨_, rfl⟩,
    Params.wf_of_region (r := ⟨0, 2 ^ 30⟩) (by decide) (by decide) (by decide),
    Params.wf_of_region (r := ⟨0, 2 ^ 30⟩) (by decide) (by decide) (by decide)⟩

/-- The constraint on `Mapped` is one: with the words of the reset space below the stack buffer only, it fails. -/
theorem test_unmapped_stack_buffer_is_refused :
    ¬ ({ stackBase := 0x2000#32, stackWords := 1 } : Params).wf (sample 0#32).mem := by decide

end Sys2Proof.Tests
end

section
/-! The memory across a step: which instructions keep it, and that the map is kept by all. -/

namespace Sys2Proof.Machine

@[simp] theorem branch_mem (cond : BitVec 4) (link : Bool) (imm24 : BitVec 24) (s : State) :
    (branch cond link imm24 s).mem = s.mem := by
  rcases branch_cases cond link imm24 s with ⟨-, h⟩ | ⟨_, -, h⟩
  · simp [h]
  · cases link <;> simp [h]

@[simp] theorem load_mem (s : State) (rd : Reg) (ea : Word) : (load s rd ea).mem = s.mem := by
  rcases load_cases s rd ea with ⟨-, h⟩ | ⟨-, h⟩ <;> simp [h]

/-- A store changes bytes of memory at most, not which words are mapped (20_memory.md R34). -/
@[simp] theorem store_mapped (s : State) (rd : Reg) (ea : Word) : (store s rd ea).mem.mapped = s.mem.mapped := by
  rcases store_cases s rd ea with ⟨-, h⟩ | ⟨-, h⟩ <;> simp [h]

/-- No instruction maps or unmaps a word. -/
theorem exec_keeps_mapped {i : Instr} {s t : State} (h : exec i s = .next t) : t.mem.mapped = s.mem.mapped := by
  obtain ⟨u, hu, hcases⟩ := exec_cases i s
  obtain rfl : u = t := Host.Outcome.next.inj (hu.symm.trans h)
  rcases hcases with ⟨_, _, rfl⟩ | ⟨_, rfl⟩ | ⟨_, _, rfl⟩ | ⟨_, _, _, rfl⟩ | ⟨_, _, _, rfl⟩ | ⟨_, _, rfl⟩ | ⟨_, _, rfl⟩
  all_goals simp

/-- No step maps or unmaps a word (10_state.md R29, 00_scope.md R9). -/
theorem step_keeps_mapped {s t : State} (h : step s = .next t) : t.mem.mapped = s.mem.mapped := by
  rcases step_cases s with ⟨-, hs⟩ | ⟨-, -, hs⟩ | ⟨iw, u, -, -, hu, hs⟩ <;>
    obtain rfl := Host.Outcome.next.inj (hs.symm.trans h)
  case inl => rfl
  case inr.inl => simp
  case inr.inr => simpa using exec_keeps_mapped hu

/-! ### The stack buffer after Initialize -/

/-- A word that lies whole in a range reads as zero once the range is zeroed. -/
theorem Memory.wordAt_zeroRange_of_inside (m : Memory) {lo hi a : Nat} (h : lo ≤ a) (h' : a + 4 ≤ hi) :
    (m.zeroRange lo hi).wordAt a = 0#32 := by
  have hbyte (b : Nat) (hb : a ≤ b) (hb' : b < a + 4) : (m.zeroRange lo hi).byteAt b = 0#8 := by
    rw [Memory.byteAt_zeroRange, if_pos (by omega)]
  rw [Memory.wordAt, hbyte a, hbyte (a + 1), hbyte (a + 2), hbyte (a + 3)]
  · decide
  all_goals omega

/-- A word of a stack buffer that meets the constraints of R9 can be accessed. -/
theorem accessible_stackWord {p : Params} {m : Memory} (h : p.wf m) {k : Nat} (hk : k < p.stackWords) :
    m.accessible (p.stackWord k) = true := by
  have haddr := Params.toNat_stackWord h.1 hk
  obtain ⟨⟨-, haligned, -, -⟩, hmapped⟩ := h
  exact (m.accessible_iff _).2 ⟨by omega, hmapped k hk⟩

variable {s : State} {p : Params} (entry a0 a1 a2 a3 : Word)

/-- Initialize keeps the constraints of R9. -/
theorem initialize_keeps_paramsWf (h : p.wf s.mem) : p.wf (s.initialize p entry a0 a1 a2 a3).mem :=
  (Params.wf_congr (State.initialize_mapped s p entry a0 a1 a2 a3)).2 h

/-- Every word of the stack buffer reads as zero after Initialize (10_state.md R28). -/
theorem memRead_stackWord_initialize (h : p.wf s.mem) {k : Nat} (hk : k < p.stackWords) :
    (s.initialize p entry a0 a1 a2 a3).memRead (p.stackWord k) = some 0#32 := by
  rw [State.memRead_eq_some_iff]
  refine ⟨accessible_stackWord (initialize_keeps_paramsWf entry a0 a1 a2 a3 h) hk, ?_⟩
  rw [State.initialize_mem, Params.toNat_stackWord h.1 hk]
  exact Memory.wordAt_zeroRange_of_inside _ (by omega) (by omega)

end Sys2Proof.Machine

namespace Sys2Proof

open Sys2Proof.Machine

/-- Settles O53: Initialize zeroes the buffer, and neither Initialize nor a step changes the map, on which alone the
constraint on `Mapped` depends. -/
theorem theStackBufferIsMappedAndReadsZeroAfterInitialize :
    Obligations.TheStackBufferIsMappedAndReadsZeroAfterInitialize := by
  intro s p h
  refine ⟨fun entry a0 a1 a2 a3 => ⟨?_, fun k hk => ?_⟩, fun t ht => ?_⟩
  · exact initialize_keeps_paramsWf entry a0 a1 a2 a3 h
  · exact memRead_stackWord_initialize entry a0 a1 a2 a3 h hk
  · exact (Params.wf_congr (step_keeps_mapped ht)).2 h

end Sys2Proof
end

section
/-! The state after Initialize: the top of the stack buffer as a number, and the registers group by group. -/

namespace Sys2Proof

open Sys2Proof.Machine

/-- The top of the stack buffer as a number: the constraints of 00_scope.md R9 keep it below 2^32, so the sum does not
wrap (10_state.md R24). -/
theorem Params.toNat_stackTop {p : Params} (h : p.inSpace) :
    p.stackTop.toNat = p.stackBase.toNat + 4 * p.stackWords := by
  obtain ⟨-, -, -, htop⟩ := h
  simp only [Params.stackTop, BitVec.toNat_add, BitVec.toNat_ofNat]
  omega

section
variable (s : State) (p : Params) (entry a0 a1 a2 a3 : Word)

/-- The registers that hold neither an argument nor the stack top, link or entry are zero (70_reset_and_hazards.md R180). -/
theorem reg_initialize_of_general {r : Reg} (hlo : 4 ≤ r.val) (hhi : r.val ≤ 12) :
    (s.initialize p entry a0 a1 a2 a3).reg r = 0#32 := by
  have hne (q : Reg) (hq : q.val < 4 ∨ 12 < q.val) : r ≠ q := fun h => by subst h; omega
  rw [State.reg_initialize, if_neg (hne 3 (by decide)), if_neg (hne 2 (by decide)), if_neg (hne 1 (by decide)),
    if_neg (hne 0 (by decide)), if_neg (hne Reg.sp (by decide)), if_neg (hne Reg.lr (by decide)),
    if_neg (hne Reg.pc (by decide))]

theorem reg_sp_initialize : (s.initialize p entry a0 a1 a2 a3).reg Reg.sp = p.stackTop := State.reg_initialize ..

theorem reg_lr_initialize : (s.initialize p entry a0 a1 a2 a3).reg Reg.lr = 0#32 := State.reg_initialize ..

theorem pc_initialize : (s.initialize p entry a0 a1 a2 a3).pc = entry := State.reg_initialize ..

/-- Initialize zeroes the bytes of the stack buffer and keeps all others (10_state.md R28, 70_reset_and_hazards.md R186). -/
theorem byteAt_initialize (a : Nat) : (s.initialize p entry a0 a1 a2 a3).mem.byteAt a =
    if p.stackBase.toNat ≤ a ∧ a < p.stackBase.toNat + 4 * p.stackWords then 0#8 else s.mem.byteAt a := by
  rw [State.initialize_mem, Memory.byteAt_zeroRange]

end

/-- Settles O47: the conjuncts are what Initialize does to each component; only the stack top needs the constraints on
the buffer, without which its sum could wrap. -/
theorem initializeSetsTheResetValues : Obligations.InitializeSetsTheResetValues := by
  intro s p entry a0 a1 a2 a3 h
  have harg (r : Reg) := State.reg_initialize s p entry a0 a1 a2 a3 r
  have htop : ((s.initialize p entry a0 a1 a2 a3).reg Reg.sp).toNat = p.stackBase.toNat + 4 * p.stackWords := by
    rw [reg_sp_initialize, Params.toNat_stackTop h]
  exact ⟨_, rfl, harg 0, harg 1, harg 2, harg 3,
    fun _ hlo hhi => reg_initialize_of_general s p entry a0 a1 a2 a3 hlo hhi,
    htop, reg_lr_initialize s p entry a0 a1 a2 a3, pc_initialize s p entry a0 a1 a2 a3,
    State.initialize_flags s p entry a0 a1 a2 a3, State.initialize_faultCode s p entry a0 a1 a2 a3,
    State.initialize_faultPc s p entry a0 a1 a2 a3, State.initialize_faultInfo s p entry a0 a1 a2 a3,
    State.initialize_runState s p entry a0 a1 a2 a3, byteAt_initialize s p entry a0 a1 a2 a3,
    State.initialize_mapped s p entry a0 a1 a2 a3⟩

end Sys2Proof
end

section
/-! What the access primitives answer at each address, and what a failed access does to a step. -/

namespace Sys2Proof.Machine

/-- An access fails exactly at misaligned or unmapped addresses (20_memory.md R36, R37). -/
theorem Memory.not_accessible_iff (m : Memory) (a : Word) :
    m.accessible a = false ↔ a.toNat % 4 ≠ 0 ∨ m.isMapped a = false := by
  rw [← Bool.not_eq_true, Memory.accessible_iff, Decidable.not_and_iff_not_or_not, Bool.not_eq_true]

/-! ### Reads after a write -/

/-- Two aligned words are the same word or do not overlap, so a write of one changes no other. -/
theorem Memory.wordAt_putWord_of_aligned {m : Memory} (h : cellsWf m.cells) {a b : Word} (v : Word)
    (ha : a.toNat % 4 = 0) (hb : b.toNat % 4 = 0) :
    (m.putWord a.toNat v).wordAt b.toNat = if b = a then v else m.wordAt b.toNat := by
  split
  · next hba => rw [hba, Memory.wordAt_putWord_self h]
  · next hba =>
    have hne : b.toNat ≠ a.toNat := fun e => hba (BitVec.eq_of_toNat_eq e)
    exact Memory.wordAt_putWord_of_apart h v (by omega)

/-- MemRead after a successful MemWrite (20_memory.md R33, R34): the word written at its address, and at any other address
what was read before, an error included. -/
theorem State.memRead_of_memWrite {s t : State} {a v : Word} (h : cellsWf s.mem.cells)
    (hw : s.memWrite a v = some t) (b : Word) : t.memRead b = if b = a then some v else s.memRead b := by
  obtain ⟨ha, ht⟩ := (s.memWrite_eq_some_iff t a v).1 hw
  have hmem : t.mem = s.mem.putWord a.toNat v := by rw [ht]
  have hacc : t.mem.accessible b = s.mem.accessible b := by rw [hmem, Memory.accessible_putWord]
  cases hb : s.mem.accessible b
  · have hba : b ≠ a := fun e => by simp [e, ha] at hb
    rw [(t.memRead_eq_none_iff b).2 (hacc.trans hb), (s.memRead_eq_none_iff b).2 hb, if_neg hba]
  · obtain ⟨ha4, -⟩ := (s.mem.accessible_iff a).1 ha
    obtain ⟨hb4, -⟩ := (s.mem.accessible_iff b).1 hb
    have hword : t.mem.wordAt b.toNat = if b = a then v else s.mem.wordAt b.toNat := by
      rw [hmem, Memory.wordAt_putWord_of_aligned h v ha4 hb4]
    rw [(t.memRead_eq_some_iff b _).2 ⟨hacc.trans hb, hword⟩, (s.memRead_eq_some_iff b _).2 ⟨hb, rfl⟩, apply_ite some]

/-! ### Loads and stores as instructions -/

section
variable (rd rn rm : Reg) (imm8 : BitVec 8) (shamt : BitVec 5) (s : State)

theorem exec_ldrImm : exec (.ldrImm rd rn imm8) s = .next (load s rd (s.reg rn + imm8.setWidth 32)) := rfl

theorem exec_ldrReg :
    exec (.ldrReg rd rn rm shamt) s = .next (load s rd (s.reg rn + (s.reg rm <<< shamt.toNat))) := rfl

theorem exec_strImm : exec (.strImm rd rn imm8) s = .next (store s rd (s.reg rn + imm8.setWidth 32)) := rfl

theorem exec_strReg :
    exec (.strReg rd rn rm shamt) s = .next (store s rd (s.reg rn + (s.reg rm <<< shamt.toNat))) := rfl

end

/-! ### Faults -/

/-- Fault entry is precise (60_exceptions.md R161, R162). -/
theorem faulted_raise (s : State) (k : FaultKind) (info : Word) : Faulted k info s (s.raise k info) :=
  ⟨rfl, rfl, rfl, rfl, fun _ _ => rfl, rfl, fun _ => ⟨rfl, fun _ _ => rfl⟩⟩

theorem load_of_not_accessible {s : State} (rd : Reg) {ea : Word} (h : s.mem.accessible ea = false) :
    load s rd ea = s.raise .invalidMemoryAccess ea := by
  rcases load_cases s rd ea with ⟨-, hl⟩ | ⟨h', -⟩
  · exact hl
  · simp [h] at h'

theorem store_of_not_accessible {s : State} (rd : Reg) {ea : Word} (h : s.mem.accessible ea = false) :
    store s rd ea = s.raise .invalidMemoryAccess ea := by
  rcases store_cases s rd ea with ⟨-, hs⟩ | ⟨h', -⟩
  · exact hs
  · simp [h] at h'

/-- A step whose instruction raises a fault ends in that fault: the halt test does not act on it (45_sequencer.md R146). -/
theorem step_of_exec_raise {s : State} {iw info : Word} {k : FaultKind} (hr : s.runState = .running)
    (hf : s.fetch = some iw) (he : exec (decodeWord iw) s = .next (s.raise k info)) :
    step s = .next (s.raise k info) := by
  rw [step_of_exec hr hf he, State.haltTest_raise]

end Sys2Proof.Machine

namespace Sys2Proof

open Sys2Proof.Machine

/-- Settles O27: whichever access of the step is to the bad address, the step ends in `State.raise` with it. -/
theorem inaccessibleAddressesFault : Obligations.InaccessibleAddressesFault := by
  intro s ea hr hbad
  have hea : s.mem.accessible ea = false := (s.mem.not_accessible_iff ea).2 hbad
  refine ⟨?fetch, fun w hf haccess => ⟨_, step_of_exec_raise hr hf ?exec, faulted_raise s _ ea⟩⟩
  case fetch =>
    rintro rfl
    exact ⟨_, step_of_fetch_none hr (s.fetch_eq_none_iff.2 hea), faulted_raise s _ _⟩
  case exec =>
    rcases haccess with ⟨rd, rn, imm8, hi | hi, rfl⟩ | ⟨rd, rn, rm, shamt, hi | hi, rfl⟩
    · rw [hi, exec_ldrImm, load_of_not_accessible rd hea]
    · rw [hi, exec_strImm, store_of_not_accessible rd hea]
    · rw [hi, exec_ldrReg, load_of_not_accessible rd hea]
    · rw [hi, exec_strReg, store_of_not_accessible rd hea]

/-- Settles O30: MemWrite answers exactly at accessible addresses, and its answer differs from the state in one word of
memory, which no other aligned word overlaps. -/
theorem memWriteChangesExactlyOneWord : Obligations.MemWriteChangesExactlyOneWord := by
  rintro s a v ⟨-, hcells, -⟩
  refine ⟨fun hbad => ?_, fun halign hmap => ?_⟩
  · exact (s.memWrite_eq_none_iff a v).2 ((s.mem.not_accessible_iff a).2 hbad)
  · have hw := (s.memWrite_eq_some_iff _ a v).2 ⟨(s.mem.accessible_iff a).2 ⟨halign, hmap⟩, rfl⟩
    exact ⟨_, hw, State.memRead_of_memWrite hcells hw, fun _ _ => rfl, rfl, ⟨rfl, rfl, rfl, rfl⟩, rfl⟩

end Sys2Proof
end

section
/-! Don't-care bits (spec/30_encoding.md R57). A change of a word that is confined to a mask keeps every row and field
outside the mask; the don't-care bits of an implemented instruction lie outside its row and its operands. -/

namespace Sys2Proof

/-! ### A change confined to a mask -/

section
variable {w d m : Word}

/-- A word with no bit outside a mask is its own part inside the mask. -/
theorem and_mask_eq_self (hd : d &&& ~~~m = 0#32) : d &&& m = d := by
  apply BitVec.eq_of_getLsbD_eq
  intro i hi
  have hbit := congrArg (fun x => x.getLsbD i) hd
  simp only [BitVec.getLsbD_and, BitVec.getLsbD_not, hi, decide_true, Bool.true_and, BitVec.getLsbD_zero] at hbit ⊢
  cases hm : m.getLsbD i
  · simpa [hm] using hbit
  · simp

theorem fits_xor (hd : d &&& ~~~m = 0#32) {r : Row} (hm : m &&& r.mask = 0#32) : r.fits (w ^^^ d) = r.fits w := by
  have hnone : d &&& r.mask = 0#32 := by rw [← and_mask_eq_self hd, BitVec.and_assoc, hm, BitVec.and_zero]
  have hsame : (w ^^^ d) &&& r.mask = w &&& r.mask := by
    apply BitVec.eq_of_getLsbD_eq
    intro i hi
    have hbit := congrArg (fun x => x.getLsbD i) hnone
    simp only [BitVec.getLsbD_and, BitVec.getLsbD_xor, BitVec.getLsbD_zero] at hbit ⊢
    rw [Bool.and_xor_distrib_right, hbit, Bool.xor_false]
  rw [Row.fits, Row.fits, hsame]

theorem field_xor (hd : d &&& ~~~m = 0#32) {lo len : Nat} (hm : m.extractLsb' lo len = 0#len) :
    (w ^^^ d).extractLsb' lo len = w.extractLsb' lo len := by
  rw [← and_mask_eq_self hd, BitVec.extractLsb'_xor, BitVec.extractLsb'_and, hm, BitVec.and_zero, BitVec.xor_zero]

theorem xor_eq_self_of_no_dontCare (hd : d &&& ~~~m = 0#32) (hm : m = 0#32) : w ^^^ d = w := by
  rw [← and_mask_eq_self hd, hm, BitVec.and_zero, BitVec.xor_zero]

/-! The operand fields: each is kept by a change whose mask leaves it out. -/

theorem rnField_xor (hd : d &&& ~~~m = 0#32) (hm : m.extractLsb' 16 4 = 0#4) : rnField (w ^^^ d) = rnField w :=
  congrArg BitVec.toFin (field_xor hd hm)

theorem rdField_xor (hd : d &&& ~~~m = 0#32) (hm : m.extractLsb' 12 4 = 0#4) : rdField (w ^^^ d) = rdField w :=
  congrArg BitVec.toFin (field_xor hd hm)

theorem rmField_xor (hd : d &&& ~~~m = 0#32) (hm : m.extractLsb' 0 4 = 0#4) : rmField (w ^^^ d) = rmField w :=
  congrArg BitVec.toFin (field_xor hd hm)

theorem imm8Field_xor (hd : d &&& ~~~m = 0#32) (hm : m.extractLsb' 0 8 = 0#8) : imm8Field (w ^^^ d) = imm8Field w :=
  field_xor hd hm

theorem shamtField_xor (hd : d &&& ~~~m = 0#32) (hm : m.extractLsb' 7 5 = 0#5) :
    shamtField (w ^^^ d) = shamtField w :=
  field_xor hd hm

end

/-! ### The don't-care bits and the row of an instruction -/

/-- No don't-care bit of an instruction is one that its row of the opcode table tests. -/
theorem dontCare_and_rowMask (i : Instr) : i.dontCare &&& i.row.mask = 0#32 := by
  cases i <;> simp only [Instr.dontCare, Instr.row] <;> decide

/-- A change of don't-care bits keeps the row. -/
theorem row_fits_xor {i : Instr} {w d : Word} (hd : d &&& ~~~i.dontCare = 0#32) :
    i.row.fits (w ^^^ d) = i.row.fits w :=
  fits_xor hd (dontCare_and_rowMask i)

/-- Every bit of a branch is fixed or in a field (30_encoding.md R54). -/
theorem dontCare_decodeBranch (w : Word) : (decodeBranch w).dontCare = 0#32 := by
  unfold decodeBranch
  split <;> rfl

/-! ### The words that execute, and their rows -/

section
variable {w : Word}

/-- SUB, ADD, CMP and MOV are the implemented opcodes (30_encoding.md R62). -/
theorem opcodeField_of_executes (he : (decodeDataProcessing w).executes = true) :
    opcodeField w = 0b0010#4 ∨ opcodeField w = 0b0100#4 ∨ opcodeField w = 0b1010#4 ∨ opcodeField w = 0b1101#4 := by
  unfold decodeDataProcessing at he
  split at he <;> simp_all [Instr.executes]

/-- BX lies in an opcode that is not implemented (30_encoding.md R62). -/
theorem isBX_eq_false_of_executes (he : (decodeDataProcessing w).executes = true) : isBX w = false := by
  cases hbx : isBX w with
  | false => rfl
  | true =>
    obtain ⟨-, -, -, hop⟩ := fields_of_isBX hbx
    have himplemented := opcodeField_of_executes he
    simp [hop] at himplemented

theorem row_decodeDataProcessing (he : (decodeDataProcessing w).executes = true) :
    (decodeDataProcessing w).row = Row.dataProcessing (bit25 w) (opcodeField w) := by
  rcases opcodeField_of_executes he with hop | hop | hop | hop <;> cases hform : bit25 w
  all_goals simp [decodeDataProcessing, hop, hform, Instr.row]

/-- P : U : B = 110 is the implemented mode (44_single_data_transfer.md R133). -/
theorem modeField_of_executes (he : (decodeSingleDataTransfer w).executes = true) :
    w.extractLsb' 22 3 = 0b110#3 := by
  have hbits : w.getLsbD 24 = true ∧ w.getLsbD 23 = true ∧ w.getLsbD 22 = false := by
    unfold decodeSingleDataTransfer at he
    split at he <;> simp_all [Instr.executes]
  obtain ⟨hp, hu, hb⟩ := hbits
  rw [bit_eq_iff] at hp hu hb
  have hfield : w.extractLsb' 24 1 ++ (w.extractLsb' 23 1 ++ w.extractLsb' 22 1) = w.extractLsb' 22 3 := by
    rw [BitVec.extractLsb'_append_extractLsb'_eq_extractLsb' (by decide),
      BitVec.extractLsb'_append_extractLsb'_eq_extractLsb' (by decide)]
  rw [← hfield, hp, hu, hb]
  decide

theorem decodeSingleDataTransfer_of_modeField (hmode : w.extractLsb' 22 3 = 0b110#3) :
    decodeSingleDataTransfer w = decodeTransfer w := by
  have hp : w.getLsbD 24 = true := by rw [bit_eq_iff, field_of_field_eq hmode (by decide) (by decide)]; decide
  have hu : w.getLsbD 23 = true := by rw [bit_eq_iff, field_of_field_eq hmode (by decide) (by decide)]; decide
  have hb : w.getLsbD 22 = false := by rw [bit_eq_iff, field_of_field_eq hmode (by decide) (by decide)]; decide
  rw [decodeSingleDataTransfer, hp, hu, hb]

theorem row_decodeTransfer : (decodeTransfer w).row = Row.transfer (bit25 w) (loadField w) := by
  cases hform : bit25 w <;> cases hload : loadField w <;> simp [decodeTransfer, hform, hload, Instr.row]

end

/-! ### The changed word, family by family -/

section
variable {w d : Word}

/-- The operands of an implemented data-processing instruction lie outside its don't-care bits. -/
theorem decodeDataProcessing_xor (he : (decodeDataProcessing w).executes = true)
    (hd : d &&& ~~~(decodeDataProcessing w).dontCare = 0#32) (hform : bit25 (w ^^^ d) = bit25 w)
    (hop : opcodeField (w ^^^ d) = opcodeField w) : decodeDataProcessing (w ^^^ d) = decodeDataProcessing w := by
  rcases opcodeField_of_executes he with ho | ho | ho | ho <;> cases hi : bit25 w
  all_goals
    rw [ho] at hop
    rw [hi] at hform
    simp only [decodeDataProcessing, ho, hi, Instr.dontCare] at hd
    simp (disch := decide) only [decodeDataProcessing, ho, hi, hop, hform, rdField_xor hd, rnField_xor hd,
      rmField_xor hd, imm8Field_xor hd]

/-- The operands of LDR and STR lie outside their don't-care bits. -/
theorem decodeTransfer_xor (hd : d &&& ~~~(decodeTransfer w).dontCare = 0#32) (hform : bit25 (w ^^^ d) = bit25 w)
    (hload : loadField (w ^^^ d) = loadField w) : decodeTransfer (w ^^^ d) = decodeTransfer w := by
  cases hi : bit25 w <;> cases hl : loadField w
  all_goals
    rw [hi] at hform
    rw [hl] at hload
    simp only [decodeTransfer, hi, hl, Instr.dontCare] at hd
    simp (disch := decide) only [decodeTransfer, hi, hl, hform, hload, rdField_xor hd, rnField_xor hd, rmField_xor hd,
      imm8Field_xor hd, shamtField_xor hd]

theorem decodeWord_xor_of_isBX (h : isBX w = true) (hd : d &&& ~~~(decodeWord w).dontCare = 0#32) :
    decodeWord (w ^^^ d) = decodeWord w := by
  rw [decodeWord_of_isBX h] at hd ⊢
  have hfits : Row.bx.fits (w ^^^ d) = Row.bx.fits w := row_fits_xor hd
  have hrm : rmField (w ^^^ d) = rmField w := rmField_xor hd (m := 0xF0000000#32) (by decide)
  rw [decodeWord_of_isBX ((fits_bx_iff _).1 (hfits.trans ((fits_bx_iff w).2 h))), hrm]

theorem decodeWord_xor_of_isB (h : isB w = true) (hd : d &&& ~~~(decodeWord w).dontCare = 0#32) :
    decodeWord (w ^^^ d) = decodeWord w := by
  rw [decodeWord_of_isB h] at hd
  rw [xor_eq_self_of_no_dontCare hd (dontCare_decodeBranch w)]

theorem decodeWord_xor_of_isDP (h : isDP w = true) (hbx : isBX w = false) (he : (decodeWord w).executes = true)
    (hd : d &&& ~~~(decodeWord w).dontCare = 0#32) : decodeWord (w ^^^ d) = decodeWord w := by
  rw [decodeWord_of_isDP h hbx] at he hd ⊢
  have hfits := row_fits_xor (w := w) hd
  rw [row_decodeDataProcessing he, (fits_dataProcessing_iff _ _ w).2 ⟨h, rfl, rfl⟩] at hfits
  obtain ⟨hdp, hform, hop⟩ := (fits_dataProcessing_iff _ _ _).1 hfits
  have hsame := decodeDataProcessing_xor he hd hform hop
  rw [decodeWord_of_isDP hdp (isBX_eq_false_of_executes (hsame ▸ he)), hsame]

theorem decodeWord_xor_of_isSDT (h : isSDT w = true) (he : (decodeWord w).executes = true)
    (hd : d &&& ~~~(decodeWord w).dontCare = 0#32) : decodeWord (w ^^^ d) = decodeWord w := by
  rw [decodeWord_of_isSDT h] at he hd ⊢
  have hmode := modeField_of_executes he
  rw [decodeSingleDataTransfer_of_modeField hmode] at hd ⊢
  have hfits := row_fits_xor (w := w) hd
  rw [row_decodeTransfer, (fits_transfer_iff _ _ w).2 ⟨h, rfl, hmode, rfl⟩] at hfits
  obtain ⟨hsdt, hform, hmode', hload⟩ := (fits_transfer_iff _ _ _).1 hfits
  rw [decodeWord_of_isSDT hsdt, decodeSingleDataTransfer_of_modeField hmode', decodeTransfer_xor hd hform hload]

end

/-- Settles O5: the changed word fits the row of the original, which fixes its family and form, and has the same operand
fields; a word of no family does not execute. -/
theorem dontCareBitsHaveNoEffect : Obligations.DontCareBitsHaveNoEffect := by
  intro w d he hd
  rcases word_cases w with h | h | ⟨h, hbx⟩ | h | h | h
  · exact decodeWord_xor_of_isBX h hd
  · exact decodeWord_xor_of_isB h hd
  · exact decodeWord_xor_of_isDP h hbx he hd
  · exact decodeWord_xor_of_isSDT h he hd
  · rw [decodeWord_of_unrecognised100 h] at he
    cases he
  · rw [decodeWord_of_unrecognised11 h] at he
    cases he

end Sys2Proof
end

section
/-! The overlap of the classifier's predicates (spec/40_classifier.md R74): bits 27:26 of a word of one family, and which
other predicates they rule out. -/

namespace Sys2Proof

section
variable {w : Word}

theorem isDP_of_isBX (h : isBX w = true) : isDP w = true := by
  obtain ⟨-, h26, -, -⟩ := fields_of_isBX h
  rw [isDP, h26]; decide

/-- A branch has bits 27:26 at 10, which none of the other predicates allows. -/
theorem others_eq_false_of_isB (h : isB w = true) : isBX w = false ∧ isDP w = false ∧ isSDT w = false := by
  rw [isB, beq_iff_eq] at h
  have h26 := bits27_26_of_bits27_25 h
  exact ⟨isBX_eq_false_of_field h (by decide), by rw [isDP, h26]; decide, by rw [isSDT, h26]; decide⟩

theorem isB_isSDT_eq_false_of_isDP (h : isDP w = true) : isB w = false ∧ isSDT w = false := by
  constructor
  · refine Bool.eq_false_iff.2 fun hb => ?_
    obtain ⟨-, hdp, -⟩ := others_eq_false_of_isB hb
    simp [hdp] at h
  · rw [isDP, beq_iff_eq] at h
    rw [isSDT, h]; decide

end

/-- Settles O6: a split along the ordered tests of `classify`; bits 27:26 give the other predicates at each of them. -/
theorem classifierOverlapIsBxInDataProcessing : Obligations.ClassifierOverlapIsBxInDataProcessing := by
  intro w
  cases hbx : isBX w with
  | true =>
    have hdp := isDP_of_isBX hbx
    obtain ⟨hb, hsdt⟩ := isB_isSDT_eq_false_of_isDP hdp
    simp [classify, hbx, hb, hdp, hsdt]
  | false =>
    cases hb : isB w with
    | true =>
      obtain ⟨-, hdp, hsdt⟩ := others_eq_false_of_isB hb
      simp [classify, hbx, hb, hdp, hsdt]
    | false =>
      cases hdp : isDP w with
      | true =>
        obtain ⟨-, hsdt⟩ := isB_isSDT_eq_false_of_isDP hdp
        simp [classify, hbx, hb, hdp, hsdt]
      | false => cases hsdt : isSDT w <;> simp [classify, hbx, hb, hdp, hsdt]

end Sys2Proof
end

section
/-! Branch-and-exchange (spec/41_branch_exchange.md): the words that are BX, and a write of the program counter alone. -/

namespace Sys2Proof.Machine

/-- A word with the bits that format BX fixes is BX of the register in bits 3:0 (30_encoding.md R53). -/
theorem decodeWord_of_fits_bx {w : Word} (h : Row.bx.fits w = true) : decodeWord w = .bx (rmField w) :=
  decodeWord_of_isBX ((fits_bx_iff w).1 h)

theorem exec_bx (rm : Reg) (s : State) : exec (.bx rm) s = .next (s.setPc (s.reg rm)) := rfl

theorem sameRegsBut_setPc (s : State) (v : Word) : SameRegsBut [Reg.pc] s (s.setPc v) := by
  intro r hr
  rw [State.reg_setPc, if_neg (List.ne_of_not_mem_cons hr)]

theorem sameControl_setPc (s : State) (v : Word) : SameControl s (s.setPc v) :=
  ⟨State.setPc_runState s v, State.setPc_faultCode s v, State.setPc_faultPc s v, State.setPc_faultInfo s v⟩

/-- Turns an equation of memories, such as `State.setPc_mem`, into the frame of a statement. -/
theorem sameMemory_of_mem_eq {s t : State} (h : t.mem = s.mem) : SameMemory s t :=
  fun _ => ⟨congrArg Memory.mapped h, fun b _ => congrArg (Memory.byteAt · b) h⟩

end Sys2Proof.Machine

namespace Sys2Proof

open Sys2Proof.Machine

/-- Settles O8: a BX word fits the BX row, and its execution is one write of the program counter with `x[Rm]`, so the
frame is that of `State.setPc`. -/
theorem bxSetsThePcAndNothingElse : Obligations.BxSetsThePcAndNothingElse := by
  constructor
  · intro w hw
    exact decodeWord_of_fits_bx ((fits_iff Row.bx w).2 hw)
  · intro rm s
    exact ⟨s.setPc (s.reg rm), exec_bx rm s, State.pc_setPc s _, sameRegsBut_setPc s _, State.setPc_flags s _,
      sameControl_setPc s _, sameMemory_of_mem_eq (State.setPc_mem s _)⟩

end Sys2Proof
end

section
/-! Data-processing words (spec/30_encoding.md R55, R62): the instruction of a word that fits the row of an implemented
opcode. -/

namespace Sys2Proof

section
variable {w : Word}

/-- Of the words that fit a data-processing row only those of opcode 1001 can be BX (30_encoding.md R62). -/
theorem decodeWord_of_fits_dataProcessing {immediate : Bool} {opcode : BitVec 4}
    (h : (Row.dataProcessing immediate opcode).fits w = true) (hop : opcode ≠ 0b1001#4) :
    decodeWord w = decodeDataProcessing w ∧ opcodeField w = opcode ∧ bit25 w = immediate := by
  obtain ⟨hdp, hform, hfield⟩ := (fits_dataProcessing_iff immediate opcode w).1 h
  have hbx : isBX w = false := Bool.eq_false_iff.2 fun hb => by
    obtain ⟨-, -, -, hop'⟩ := fields_of_isBX hb
    exact hop (hfield.symm.trans hop')
  exact ⟨decodeWord_of_isDP hdp hbx, hfield, hform⟩

theorem decodeWord_of_fits_addImm (h : (Row.dataProcessing true 0b0100#4).fits w = true) :
    decodeWord w = .addImm (rdField w) (rnField w) (imm8Field w) := by
  obtain ⟨hdec, hop, hform⟩ := decodeWord_of_fits_dataProcessing h (by decide)
  simp [hdec, decodeDataProcessing, hop, hform]

theorem decodeWord_of_fits_addReg (h : (Row.dataProcessing false 0b0100#4).fits w = true) :
    decodeWord w = .addReg (rdField w) (rnField w) (rmField w) := by
  obtain ⟨hdec, hop, hform⟩ := decodeWord_of_fits_dataProcessing h (by decide)
  simp [hdec, decodeDataProcessing, hop, hform]

theorem decodeWord_of_fits_subImm (h : (Row.dataProcessing true 0b0010#4).fits w = true) :
    decodeWord w = .subImm (rdField w) (rnField w) (imm8Field w) := by
  obtain ⟨hdec, hop, hform⟩ := decodeWord_of_fits_dataProcessing h (by decide)
  simp [hdec, decodeDataProcessing, hop, hform]

theorem decodeWord_of_fits_subReg (h : (Row.dataProcessing false 0b0010#4).fits w = true) :
    decodeWord w = .subReg (rdField w) (rnField w) (rmField w) := by
  obtain ⟨hdec, hop, hform⟩ := decodeWord_of_fits_dataProcessing h (by decide)
  simp [hdec, decodeDataProcessing, hop, hform]

theorem decodeWord_of_fits_cmpImm (h : (Row.dataProcessing true 0b1010#4).fits w = true) :
    decodeWord w = .cmpImm (rdField w) (rnField w) (imm8Field w) := by
  obtain ⟨hdec, hop, hform⟩ := decodeWord_of_fits_dataProcessing h (by decide)
  simp [hdec, decodeDataProcessing, hop, hform]

theorem decodeWord_of_fits_cmpReg (h : (Row.dataProcessing false 0b1010#4).fits w = true) :
    decodeWord w = .cmpReg (rdField w) (rnField w) (rmField w) := by
  obtain ⟨hdec, hop, hform⟩ := decodeWord_of_fits_dataProcessing h (by decide)
  simp [hdec, decodeDataProcessing, hop, hform]

theorem decodeWord_of_fits_movImm (h : (Row.dataProcessing true 0b1101#4).fits w = true) :
    decodeWord w = .movImm (rdField w) (imm8Field w) := by
  obtain ⟨hdec, hop, hform⟩ := decodeWord_of_fits_dataProcessing h (by decide)
  simp [hdec, decodeDataProcessing, hop, hform]

theorem decodeWord_of_fits_movReg (h : (Row.dataProcessing false 0b1101#4).fits w = true) :
    decodeWord w = .movReg (rdField w) (rmField w) := by
  obtain ⟨hdec, hop, hform⟩ := decodeWord_of_fits_dataProcessing h (by decide)
  simp [hdec, decodeDataProcessing, hop, hform]

/-- An opcode that is none of ADD, SUB, CMP and MOV is one of the refused rows, by its opcode and form. -/
theorem decodeDataProcessing_of_unsupported (h : opcodeField w ∉ [0b0100#4, 0b0010#4, 0b1010#4, 0b1101#4]) :
    ∃ mk ∈ unsupportedOpcodes, decodeDataProcessing w = mk w := by
  unfold decodeDataProcessing
  split
  -- the four implemented opcodes, each in both forms
  case h_5 hop _ | h_6 hop _ | h_9 hop _ | h_10 hop _ | h_21 hop _ | h_22 hop _ | h_27 hop _ | h_28 hop _ =>
    simp [hop] at h
  all_goals exact ⟨_, by simp [unsupportedOpcodes], rfl⟩

end

end Sys2Proof
end

section
/-! Data processing (spec/42_data_processing.md): the write of a result and its frame, the computed jump, and CMP. -/

namespace Sys2Proof.Machine

/-! ### The instructions as shared operations -/

section
variable (rd rn rm : Reg) (imm8 : BitVec 8) (s : State)

theorem exec_addImm : exec (.addImm rd rn imm8) s = .next (s.writeResult rd (s.reg rn + imm8.setWidth 32)) := rfl

theorem exec_addReg : exec (.addReg rd rn rm) s = .next (s.writeResult rd (s.reg rn + s.reg rm)) := rfl

theorem exec_subImm : exec (.subImm rd rn imm8) s = .next (s.writeResult rd (s.reg rn - imm8.setWidth 32)) := rfl

theorem exec_subReg : exec (.subReg rd rn rm) s = .next (s.writeResult rd (s.reg rn - s.reg rm)) := rfl

theorem exec_cmpImm : exec (.cmpImm rd rn imm8) s = .next (compare s rd (s.reg rn) (imm8.setWidth 32)) := rfl

theorem exec_cmpReg : exec (.cmpReg rd rn rm) s = .next (compare s rd (s.reg rn) (s.reg rm)) := rfl

theorem exec_movImm : exec (.movImm rd imm8) s = .next (s.writeResult rd (imm8.setWidth 32)) := rfl

theorem exec_movReg : exec (.movReg rd rm) s = .next (s.writeResult rd (s.reg rm)) := rfl

end

/-- Every refused opcode raises UnsupportedEncoding with its word (R99). -/
theorem exec_of_mem_unsupportedOpcodes {mk : Word → Instr} (h : mk ∈ unsupportedOpcodes) (iw : Word) (s : State) :
    exec (mk iw) s = .next (s.raise .unsupportedEncoding iw) := by
  unfold unsupportedOpcodes at h
  fin_cases h <;> rfl

/-! ### The write of a result -/

variable (s : State) (rd : Reg) (v a b : Word)

/-- ADD, SUB and MOV write the destination and the program counter, and nothing else (R91, R98). -/
theorem resultWritten_writeResult : ResultWritten rd v s (s.writeResult rd v) := by
  refine ⟨?result, fun hrd => ?pc, fun r hr => ?regs, State.writeResult_flags s rd v, ?control,
    sameMemory_of_mem_eq (State.writeResult_mem s rd v)⟩
  case result => rw [State.reg_writeResult, if_pos rfl]
  case pc => rw [State.pc_writeResult, if_neg hrd]
  case regs =>
    rw [List.mem_pair, not_or] at hr
    rw [State.reg_writeResult, if_neg hr.1, if_neg hr.2]
  case control =>
    exact ⟨State.writeResult_runState s rd v, State.writeResult_faultCode s rd v, State.writeResult_faultPc s rd v,
      State.writeResult_faultInfo s rd v⟩

/-- With register 15 as the destination the write is a jump: the PC-advance rule adds nothing (R92). -/
theorem writeResult_pc : s.writeResult Reg.pc v = s.setPc v := by
  rw [State.writeResult, State.advanceUnlessPc, if_pos rfl, State.setPc]

/-- A jump of a running core halts it exactly if the target is 0 (45_sequencer.md R142). -/
theorem runState_haltTest_setPc {s : State} (hr : s.runState = .running) :
    (s.setPc v).haltTest.runState = if v = 0#32 then .halted else .running := by
  rcases (s.setPc v).haltTest_cases with ⟨-, hpc, h⟩ | ⟨hn, h⟩
  · rw [State.pc_setPc] at hpc
    rw [h, if_pos hpc]
  · rw [State.setPc_runState, State.pc_setPc] at hn
    rw [h, if_neg fun hv => hn ⟨hr, hv⟩, State.setPc_runState, hr]

/-- A result of 0 for register 15 halts a running core at the end of the step (R87, R90). -/
theorem halted_of_writeResult_pc_zero {i : Instr} {s : State} {v : Word} (hr : s.runState = .running)
    (he : exec i s = .next (s.writeResult Reg.pc v)) (hv : v = 0#32) :
    ∃ t, completeStep (exec i s) = .next t ∧ t.runState = .halted := by
  refine ⟨(s.setPc v).haltTest, by rw [he, writeResult_pc, completeStep], ?_⟩
  rw [runState_haltTest_setPc v hr, if_pos hv]

/-! ### CMP -/

/-- CMP changes the flags and by the PC-advance rule the program counter, and nothing else (R89, R98). -/
theorem compare_frame : (compare s rd a b).flags = flagGen a b ∧ AdvancedUnlessPc rd s (compare s rd a b) ∧
    SameRegsBut [Reg.pc] s (compare s rd a b) ∧ SameControl s (compare s rd a b) ∧
    SameMemory s (compare s rd a b) := by
  refine ⟨compare_flags s rd a b, ?pc, fun r hr => ?regs, ?control, sameMemory_of_mem_eq (compare_mem s rd a b)⟩
  case pc => rw [AdvancedUnlessPc, ← State.reg_pc, reg_compare, if_pos rfl]
  case regs => rw [reg_compare, if_neg (List.ne_of_not_mem_cons hr)]
  case control =>
    exact ⟨compare_runState s rd a b, compare_faultCode s rd a b, compare_faultPc s rd a b, compare_faultInfo s rd a b⟩

/-- With bits 15:12 = 15 CMP only writes the flags (R89). -/
theorem compare_pc : compare s Reg.pc a b = s.setFlags (flagGen a b) := by
  rw [compare, State.advanceUnlessPc, if_pos rfl]

/-- After a CMP with bits 15:12 = 15 every register reads as before. -/
theorem reg_compare_pc (r : Reg) : (compare s Reg.pc a b).reg r = s.reg r := by rw [compare_pc, State.reg_setFlags]

/-- A CMP with bits 15:12 = 15 of the same operands finds its own flags and changes nothing. -/
theorem compare_compare_pc : compare (compare s Reg.pc a b) Reg.pc a b = compare s Reg.pc a b := by
  simp only [compare_pc, State.setFlags]

end Sys2Proof.Machine

namespace Sys2Proof

open Sys2Proof.Machine

/-- Settles O9: each form fits its row of the opcode table and executes as the write of the sum; a sum of 0 written to
register 15 is a jump to 0. -/
theorem addWritesTheSum : Obligations.AddWritesTheSum := by
  refine ⟨fun w hw => ?_, fun w hw => ?_, fun rd rn imm8 s => ?_, fun rd rn rm s => ?_, fun rn imm8 s hr hv => ?_,
    fun rn rm s hr hv => ?_⟩
  · exact decodeWord_of_fits_addImm ((fits_iff (Row.dataProcessing true 0b0100#4) w).2 hw)
  · exact decodeWord_of_fits_addReg ((fits_iff (Row.dataProcessing false 0b0100#4) w).2 hw)
  · exact ⟨_, exec_addImm rd rn imm8 s, resultWritten_writeResult s rd _⟩
  · exact ⟨_, exec_addReg rd rn rm s, resultWritten_writeResult s rd _⟩
  · exact halted_of_writeResult_pc_zero hr (exec_addImm Reg.pc rn imm8 s) hv
  · exact halted_of_writeResult_pc_zero hr (exec_addReg Reg.pc rn rm s) hv

/-- Settles O10: each form fits its row of the opcode table and executes as the write of the difference. -/
theorem subWritesTheDifference : Obligations.SubWritesTheDifference := by
  refine ⟨fun w hw => ?_, fun w hw => ?_, fun rd rn imm8 s => ?_, fun rd rn rm s => ?_⟩
  · exact decodeWord_of_fits_subImm ((fits_iff (Row.dataProcessing true 0b0010#4) w).2 hw)
  · exact decodeWord_of_fits_subReg ((fits_iff (Row.dataProcessing false 0b0010#4) w).2 hw)
  · exact ⟨_, exec_subImm rd rn imm8 s, resultWritten_writeResult s rd _⟩
  · exact ⟨_, exec_subReg rd rn rm s, resultWritten_writeResult s rd _⟩

/-- Settles O12: each form fits its row of the opcode table and executes as the write of the operand, which with register 15
as the destination is the jump that BX makes. -/
theorem movWritesTheOperand : Obligations.MovWritesTheOperand := by
  refine ⟨fun w hw => ?_, fun w hw => ?_, fun rd imm8 s => ?_, fun rd rm s => ?_, fun rm s => ?_, fun s hr => ?_⟩
  · exact decodeWord_of_fits_movImm ((fits_iff (Row.dataProcessing true 0b1101#4) w).2 hw)
  · exact decodeWord_of_fits_movReg ((fits_iff (Row.dataProcessing false 0b1101#4) w).2 hw)
  · exact ⟨_, exec_movImm rd imm8 s, resultWritten_writeResult s rd _⟩
  · exact ⟨_, exec_movReg rd rm s, resultWritten_writeResult s rd _⟩
  · rw [exec_movReg, exec_bx, writeResult_pc]
  · exact halted_of_writeResult_pc_zero hr (exec_movImm Reg.pc 0#8 s) (by decide)

/-- Settles O14: the split is that of the decoder, by opcode and form, and every row of the list raises the fault. -/
theorem unsupportedOpcodesFault : Obligations.UnsupportedOpcodesFault := by
  refine ⟨fun w hdp hbx hop => ?_, fun mk hmk iw s => ?_⟩
  · rw [decodeWord_of_isDP hdp hbx]
    exact decodeDataProcessing_of_unsupported hop
  · exact ⟨_, exec_of_mem_unsupportedOpcodes hmk iw s, faulted_raise s _ iw⟩

/-- Settles O13: in each of the six forms the execution is one write of the program counter, so the step ends in the
halt test of that jump, and the next fetch is at the target. -/
theorem dataProcessingToPcIsAComputedJump : Obligations.DataProcessingToPcIsAComputedJump := by
  intro s w v hr hf hform
  have hexec : exec (decodeWord w) s = .next (s.setPc v) := by
    rw [← writeResult_pc]
    rcases hform with ⟨rn, imm8, hi, rfl⟩ | ⟨rn, rm, hi, rfl⟩ | ⟨rn, imm8, hi, rfl⟩ | ⟨rn, rm, hi, rfl⟩ |
      ⟨imm8, hi, rfl⟩ | ⟨rm, hi, rfl⟩
    · rw [hi, exec_addImm]
    · rw [hi, exec_addReg]
    · rw [hi, exec_subImm]
    · rw [hi, exec_subReg]
    · rw [hi, exec_movImm]
    · rw [hi, exec_movReg]
  have hpc : (s.setPc v).haltTest.pc = v := by rw [State.pc_haltTest, State.pc_setPc]
  refine ⟨_, step_of_exec hr hf hexec, hpc, ?lr, runState_haltTest_setPc v hr, fun hv hbad => ?fault⟩
  case lr => rw [State.reg_haltTest, State.reg_setPc, if_neg (by decide)]
  case fault =>
    have hrun : (s.setPc v).haltTest.runState = .running := by rw [runState_haltTest_setPc v hr, if_neg hv]
    have hfetch : (s.setPc v).haltTest.fetch = none := by
      rw [State.fetch_eq_none_iff, hpc, State.haltTest_mem, State.setPc_mem]
      exact (s.mem.not_accessible_iff v).2 hbad
    have hfault := faulted_raise (s.setPc v).haltTest .invalidMemoryAccess (s.setPc v).haltTest.pc
    rw [hpc] at hfault
    exact ⟨_, by rw [step_of_fetch_none hrun hfetch, hpc], hfault⟩

end Sys2Proof
end

section
/-! The flag generator (spec/42_data_processing.md R93 to R97, R104): the bits of its word, V and N as facts about signed
integers, and what the conditions make of them. -/

namespace Sys2Proof.Machine

/-! ### The bits of a packed flag word -/

section
variable (z n c v : Bool)

theorem packFlags_bit3 : (packFlags z n c v).getLsbD 3 = z := by revert z n c v; decide

theorem packFlags_bit2 : (packFlags z n c v).getLsbD 2 = n := by revert z n c v; decide

theorem packFlags_bit1 : (packFlags z n c v).getLsbD 1 = c := by revert z n c v; decide

theorem packFlags_bit0 : (packFlags z n c v).getLsbD 0 = v := by revert z n c v; decide

/-- Bits 31:4 are 0 (R93). -/
theorem packFlags_high {k : Nat} (hk : 4 ≤ k) : (packFlags z n c v).getLsbD k = false := by
  rw [packFlags, BitVec.getLsbD_append, if_neg (by omega), BitVec.getLsbD_zero]

end

/-! ### N and V of a subtraction -/

section
variable {a b : Word}

/-- Signed overflow by the signs of the operands and of the result (R97). -/
theorem overflowFlag_sub : overflowFlag a b (a - b) = a.ssubOverflow b := by
  rw [overflowFlag, BitVec.ssubOverflow_eq]
  cases a.msb <;> cases b.msb <;> cases (a - b).msb <;> rfl

/-- Signed overflow by the range of the unbounded difference (R97). -/
theorem ssubOverflow_eq_decide_not_inRange :
    a.ssubOverflow b = decide (¬ (-(2 ^ 31) ≤ a.toInt - b.toInt ∧ a.toInt - b.toInt ≤ 2 ^ 31 - 1)) := by
  rw [BitVec.ssubOverflow, ← Bool.decide_or, decide_eq_decide]
  omega

/-- Without signed overflow N is the sign of the unbounded difference. -/
theorem msb_sub_of_not_ssubOverflow (h : a.ssubOverflow b = false) : (a - b).msb = decide (a.toInt < b.toInt) := by
  rw [BitVec.msb_eq_toInt, BitVec.toInt_sub_of_not_ssubOverflow (by simp [h]), decide_eq_decide]
  exact sub_neg

/-- With signed overflow `a - b` is off by 2^32, and N is the opposite of that sign. -/
theorem msb_sub_of_ssubOverflow (h : a.ssubOverflow b = true) : (a - b).msb = !decide (a.toInt < b.toInt) := by
  have ha := a.toInt_lt
  have ha' := a.le_toInt
  have hb := b.toInt_lt
  have hb' := b.le_toInt
  simp only [BitVec.ssubOverflow, Bool.or_eq_true, decide_eq_true_eq] at h
  rw [BitVec.msb_eq_toInt, BitVec.toInt_sub, Int.bmod_def, ← decide_not, decide_eq_decide]
  omega

end

/-! ### The bits of `flagGen` -/

section
variable (a b : Word)

theorem flagGen_bit3 : (flagGen a b).getLsbD 3 = decide (a = b) := by
  rw [flagGen, packFlags_bit3, zeroFlag, Bool.beq_eq_decide_eq, decide_eq_decide]
  exact sub_eq_zero

theorem flagGen_bit2 : (flagGen a b).getLsbD 2 = (a - b).msb := by rw [flagGen, packFlags_bit2, negativeFlag]

theorem flagGen_bit1 : (flagGen a b).getLsbD 1 = decide (a.toNat < b.toNat) := by
  rw [flagGen, packFlags_bit1, carryFlag]

theorem flagGen_bit0 : (flagGen a b).getLsbD 0 = overflowFlag a b (a - b) := by rw [flagGen, packFlags_bit0]

theorem flagGen_high {k : Nat} (hk : 4 ≤ k) : (flagGen a b).getLsbD k = false := packFlags_high _ _ _ _ hk

/-- The flag word of equal operands is Z alone (R89). -/
theorem flagGen_self : flagGen a a = 0x8#32 := by
  have hc : carryFlag a a = false := by simp [carryFlag]
  have hv : overflowFlag a a 0#32 = false := by simp [overflowFlag]
  rw [flagGen, BitVec.sub_self, hc, hv]
  decide

/-! ### The flags of `flagGen` as comparisons of signed integers -/

theorem flagZ_flagGen : flagZ (flagGen a b) = decide (a.toInt = b.toInt) := by
  rw [flagZ, flagGen_bit3, decide_eq_decide]
  exact BitVec.toInt_inj.symm

/-- N differs from V exactly if the unbounded signed difference is negative (R104). -/
theorem flagN_bne_flagV_flagGen :
    (flagN (flagGen a b) != flagV (flagGen a b)) = decide (a.toInt < b.toInt) := by
  rw [flagN, flagV, flagGen_bit2, flagGen_bit0, overflowFlag_sub]
  cases hv : a.ssubOverflow b with
  | false => rw [msb_sub_of_not_ssubOverflow hv, Bool.bne_false]
  | true => rw [msb_sub_of_ssubOverflow hv, Bool.bne_true, Bool.not_not]

theorem flagN_beq_flagV_flagGen :
    (flagN (flagGen a b) == flagV (flagGen a b)) = decide (a.toInt ≥ b.toInt) := by
  have hnot := congrArg (!·) (flagN_bne_flagV_flagGen a b)
  rw [bne, Bool.not_not, ← decide_not] at hnot
  rw [hnot, decide_eq_decide]
  exact not_lt

end

/-! ### No condition is an unsigned comparison -/

/-- The unsigned comparisons of R104. -/
def unsignedComparisons : List (Nat → Nat → Bool) :=
  [fun x y => decide (x < y), fun x y => decide (x ≤ y), fun x y => decide (x > y), fun x y => decide (x ≥ y)]

/-- Operands that tell the conditions from the unsigned comparisons: equal, next to each other, and of different signs. -/
def separatingOperands : List (Word × Word) :=
  [(0#32, 0#32), (0#32, 1#32), (1#32, 0#32), (0#32, 0x80000000#32), (0x80000000#32, 0#32)]

theorem separatingOperands_separate : ∀ r ∈ branchRowsOf, ∀ cmp ∈ unsignedComparisons, ∃ p ∈ separatingOperands,
    condHolds r.code (flagGen p.1 p.2) ≠ some (cmp p.1.toNat p.2.toNat) := by decide

theorem condHolds_ne_unsignedComparison {r : BranchRow} (hr : r ∈ branchRowsOf) {cmp : Nat → Nat → Bool}
    (hcmp : cmp ∈ unsignedComparisons) :
    ∃ a b : Word, condHolds r.code (flagGen a b) ≠ some (cmp a.toNat b.toNat) := by
  obtain ⟨⟨a, b⟩, -, hne⟩ := separatingOperands_separate r hr cmp hcmp
  exact ⟨a, b, hne⟩

end Sys2Proof.Machine

namespace Sys2Proof

open Sys2Proof.Machine

/-- Settles O15: each bit is the flag packed there, and the two forms of V are signed overflow of the subtraction. -/
theorem flagGeneratorBits : Obligations.FlagGeneratorBits := by
  intro a b
  have hmsb (x : Word) : x.getLsbD 31 = x.msb := x.msb_eq_getLsbD_last.symm
  refine ⟨?_, flagGen_bit3 a b, ?_, flagGen_bit1 a b, ?_, ?_, fun k hk => flagGen_high a b hk⟩
  · rw [flagGen_bit3, decide_eq_decide]
    exact sub_eq_zero.symm
  · rw [flagGen_bit2, hmsb]
  · rw [flagGen_bit0, overflowFlag, hmsb, hmsb, hmsb]
  · rw [flagGen_bit0, overflowFlag_sub, ssubOverflow_eq_decide_not_inRange]

/-- Settles O17: Z is equality and `N != V` is signed less-than, from which the conditions are built; small operands tell
each condition from each unsigned comparison. -/
theorem conditionsAfterCmpAreSignedComparisons : Obligations.ConditionsAfterCmpAreSignedComparisons := by
  refine ⟨fun a b => ⟨?eq, ?ne, ?ge, ?lt, ?gt, ?le, ?negative⟩, fun r hr => ⟨?ult, ?ule, ?ugt, ?uge⟩⟩
  case eq => exact congrArg some (flagGen_bit3 a b)
  case ne => rw [condHolds, flagZ, flagGen_bit3, decide_not]
  case ge => rw [condHolds, flagN_beq_flagV_flagGen]
  case lt => rw [condHolds, flagN_bne_flagV_flagGen]
  case gt =>
    rw [condHolds, flagZ_flagGen, flagN_beq_flagV_flagGen, ← decide_not, ← Bool.decide_and, Option.some_inj,
      decide_eq_decide]
    omega
  case le =>
    rw [condHolds, flagZ_flagGen, flagN_bne_flagV_flagGen, ← Bool.decide_or, Option.some_inj, decide_eq_decide]
    omega
  case negative =>
    rw [← flagN, ← flagV, flagN_bne_flagV_flagGen, decide_eq_decide]
    exact sub_neg.symm
  case ult =>
    exact condHolds_ne_unsignedComparison hr (cmp := fun x y => decide (x < y)) (by simp [unsignedComparisons])
  case ule =>
    exact condHolds_ne_unsignedComparison hr (cmp := fun x y => decide (x ≤ y)) (by simp [unsignedComparisons])
  case ugt =>
    exact condHolds_ne_unsignedComparison hr (cmp := fun x y => decide (x > y)) (by simp [unsignedComparisons])
  case uge =>
    exact condHolds_ne_unsignedComparison hr (cmp := fun x y => decide (x ≥ y)) (by simp [unsignedComparisons])

/-- Settles O11: each form fits its row of the opcode table and executes as `compare`; with bits 15:12 = 15 no register
changes, so the operands and with them the flags are the same the next time. -/
theorem cmpWritesTheFlagsAndNoRegister : Obligations.CmpWritesTheFlagsAndNoRegister := by
  refine ⟨fun w hw => ?_, fun w hw => ?_, fun rd rn imm8 s => ?_, fun rd rn rm s => ?_, flagGen_self,
    fun rn imm8 s t h => ?_, fun rn rm s t h => ?_⟩
  · exact decodeWord_of_fits_cmpImm ((fits_iff (Row.dataProcessing true 0b1010#4) w).2 hw)
  · exact decodeWord_of_fits_cmpReg ((fits_iff (Row.dataProcessing false 0b1010#4) w).2 hw)
  · exact ⟨_, exec_cmpImm rd rn imm8 s, compare_frame s rd _ _⟩
  · exact ⟨_, exec_cmpReg rd rn rm s, compare_frame s rd _ _⟩
  · obtain rfl := Host.Outcome.next.inj ((exec_cmpImm Reg.pc rn imm8 s).symm.trans h)
    rw [exec_cmpImm, reg_compare_pc, compare_compare_pc]
  · obtain rfl := Host.Outcome.next.inj ((exec_cmpReg Reg.pc rn rm s).symm.trans h)
    rw [exec_cmpReg, reg_compare_pc, reg_compare_pc, compare_compare_pc]

end Sys2Proof
end

section
/-! Branch words (spec/30_encoding.md R54, R61): the instruction of a word of the family by its condition code, and the word
rebuilt from its three fields. -/

namespace Sys2Proof

section
variable {w : Word}

/-- Bits 27:24 of a branch word are the family and the link flag. -/
theorem isB_and_linkField_of_field {link : Bool} (h : w.extractLsb' 24 4 = 0b101#3 ++ BitVec.ofBool link) :
    isB w = true ∧ linkField w = link := by
  have hfields : ∀ l : Bool, (0b101#3 ++ BitVec.ofBool l).extractLsb' 1 3 = 0b101#3 ∧
      (0b101#3 ++ BitVec.ofBool l).extractLsb' 0 1 = BitVec.ofBool l := by decide
  obtain ⟨hfamily, hlink⟩ := hfields link
  have h3 := field_of_field_eq h (lo' := 25) (len' := 3) (by decide) (by decide)
  have h1 := field_of_field_eq h (lo' := 24) (len' := 1) (by decide) (by decide)
  rw [isB, beq_iff_eq, linkField, bit_eq_iff]
  exact ⟨h3.trans hfamily, h1.trans hlink⟩

/-- A branch word with a defined condition code is B or BL of that condition. -/
theorem decodeWord_of_mem_branchRowsOf {r : BranchRow} (hr : r ∈ branchRowsOf) (hb : isB w = true)
    (hcond : condField w = r.code) :
    decodeWord w = if linkField w then r.link (imm24Field w) else r.plain (imm24Field w) := by
  rw [decodeWord_of_isB hb, decodeBranch]
  unfold branchRowsOf at hr
  cases linkField w <;> fin_cases hr <;> rw [hcond] <;> rfl

/-- A branch word with an undefined condition code is the instruction of that code. -/
theorem decodeWord_of_mem_undefinedBranches {p : BitVec 4 × (Bool → BitVec 24 → Instr)} (hp : p ∈ undefinedBranches)
    (hb : isB w = true) (hcond : condField w = p.1) : decodeWord w = p.2 (linkField w) (imm24Field w) := by
  rw [decodeWord_of_isB hb, decodeBranch]
  unfold undefinedBranches at hp
  fin_cases hp <;> rw [hcond] <;> rfl

/-- A branch word has no bits beside the family and its three fields. -/
theorem branchWord_fields (hb : isB w = true) : branchWord (condField w) (linkField w) (imm24Field w) = w := by
  have hfamily : w.extractLsb' 25 3 = 0b101#3 := by rwa [isB, beq_iff_eq] at hb
  have hlink : w.extractLsb' 24 1 = BitVec.ofBool (linkField w) := (bit_eq_iff w 24 (linkField w)).1 rfl
  rw [branchWord, ← hfamily, ← hlink, condField, imm24Field,
    BitVec.extractLsb'_append_extractLsb'_eq_extractLsb' (by decide),
    BitVec.extractLsb'_append_extractLsb'_eq_extractLsb' (by decide),
    BitVec.extractLsb'_append_extractLsb'_eq_extractLsb' (by decide)]
  exact field_whole w

end

end Sys2Proof
end

section
/-! Conditional branches (spec/43_conditional_branch.md R107 to R120): the instructions of the condition tables as `branch`,
and what `branch` does under a defined and under an undefined code. -/

namespace Sys2Proof.Machine

/-! ### The tables of conditions -/

section
variable {r : BranchRow} (hr : r ∈ branchRowsOf) (imm24 : BitVec 24) (s : State)
include hr

/-- The condition evaluator on a defined code is the condition of the table (R109 to R115). -/
theorem condHolds_of_mem_branchRowsOf (f : Word) : condHolds r.code f = some (r.holds f) := by
  unfold branchRowsOf at hr
  fin_cases hr <;> simp [condHolds, flagZ, flagN, flagV]

theorem exec_plain_of_mem_branchRowsOf : exec (r.plain imm24) s = .next (branch r.code false imm24 s) := by
  unfold branchRowsOf at hr
  fin_cases hr <;> rfl

theorem exec_link_of_mem_branchRowsOf : exec (r.link imm24) s = .next (branch r.code true imm24 s) := by
  unfold branchRowsOf at hr
  fin_cases hr <;> rfl

end

section
variable {p : BitVec 4 × (Bool → BitVec 24 → Instr)} (hp : p ∈ undefinedBranches) (link : Bool) (imm24 : BitVec 24)
include hp

theorem encodeWord_of_mem_undefinedBranches : encodeWord (p.2 link imm24) = branchWord p.1 link imm24 := by
  unfold undefinedBranches at hp
  fin_cases hp <;> rfl

/-- An undefined code raises UndefinedCondition with the word, and nothing is linked (R116). -/
theorem exec_of_mem_undefinedBranches (s : State) :
    exec (p.2 link imm24) s = .next (s.raise .undefinedCondition (branchWord p.1 link imm24)) := by
  unfold undefinedBranches at hp
  fin_cases hp <;> rfl

end

/-! ### A branch that completes -/

section
variable {cond : BitVec 4} {s : State} {taken : Bool} (h : condHolds cond s.flags = some taken) (link : Bool)
  (imm24 : BitVec 24)
include h

/-- Under a defined code the link register is written if the branch links, and then the program counter (R117, R120). -/
theorem branch_of_condHolds : branch cond link imm24 s =
    (if link then s.setReg Reg.lr (s.pc + 4#32) else s).setPc
      (if taken then s.pc + branchOffset imm24 else s.pc + 4#32) := by
  rw [branch, h]

theorem pc_branch_of_condHolds :
    (branch cond link imm24 s).pc = if taken then s.pc + branchOffset imm24 else s.pc + 4#32 := by
  rw [branch_of_condHolds h, State.pc_setPc]

/-- BL links whether or not it is taken (R107, R120). -/
theorem reg_lr_branch_of_condHolds : (branch cond true imm24 s).reg Reg.lr = s.pc + 4#32 := by
  rw [branch_of_condHolds h, reg_linkThenSetPc, if_neg (by decide), if_pos ⟨rfl, rfl⟩]

theorem sameRegsBut_branch_of_condHolds :
    SameRegsBut (if link then [Reg.lr, Reg.pc] else [Reg.pc]) s (branch cond link imm24 s) := by
  intro r hr
  rw [branch_of_condHolds h, reg_linkThenSetPc]
  cases link with
  | false => rw [if_neg (List.ne_of_not_mem_cons hr), if_neg (by simp)]
  | true =>
    rw [if_pos rfl, List.mem_pair, not_or] at hr
    rw [if_neg hr.2, if_neg fun hlr => hr.1 hlr.1]

theorem flags_branch_of_condHolds : (branch cond link imm24 s).flags = s.flags := by
  rw [branch_of_condHolds h]
  cases link <;> rfl

theorem sameControl_branch_of_condHolds : SameControl s (branch cond link imm24 s) := by
  rw [branch_of_condHolds h]
  cases link <;> exact ⟨rfl, rfl, rfl, rfl⟩

end

/-! ### The branch offset -/

/-- The offset as an integer modulo 2^32: two places to the left are a multiplication by 4 (R106). -/
theorem branchOffset_eq_ofInt (imm24 : BitVec 24) : branchOffset imm24 = BitVec.ofInt 32 (4 * imm24.toInt + 8) := by
  have hshift (x : Word) : x <<< 2 = BitVec.ofInt 32 4 * x := by
    rw [BitVec.shiftLeft_eq_mul_twoPow, mul_comm]; rfl
  rw [branchOffset, hshift, BitVec.signExtend, ← BitVec.ofInt_mul, BitVec.ofInt_add]
  rfl

/-- A sum below 2^31 in size is its own value as a signed word. -/
theorem toInt_branchOffset (imm24 : BitVec 24) : (branchOffset imm24).toInt = 4 * imm24.toInt + 8 := by
  have hlo := imm24.le_toInt
  have hhi := imm24.toInt_lt
  rw [branchOffset_eq_ofInt, BitVec.toInt_ofInt, Int.bmod_eq_of_le] <;> omega

theorem toNat_branchOffset_mod_four (imm24 : BitVec 24) : (branchOffset imm24).toNat % 4 = 0 := by
  rw [branchOffset_eq_ofInt, BitVec.toNat_ofInt]
  omega

/-! ### Where the program counter goes -/

/-- The program counter moves by a multiple of 4, modulo 2^32. -/
def PcMovesByWords (s t : State) : Prop := ∃ d : Word, d.toNat % 4 = 0 ∧ t.pc = s.pc + d

theorem PcMovesByWords.keeps_alignment {s t : State} (h : PcMovesByWords s t) (hs : s.pc.toNat % 4 = 0) :
    t.pc.toNat % 4 = 0 := by
  obtain ⟨d, hd, ht⟩ := h
  rw [ht, BitVec.toNat_add]
  omega

section
variable {s t : State}

theorem pcMovesByWords_of_pc_eq (h : t.pc = s.pc) : PcMovesByWords s t := ⟨0#32, rfl, by rw [h, BitVec.add_zero]⟩

/-- The PC-advance rule moves by one word or not at all (42_data_processing.md R91). -/
theorem pcMovesByWords_of_advancedUnlessPc {rd : Reg} (h : AdvancedUnlessPc rd s t) : PcMovesByWords s t := by
  by_cases hrd : rd = Reg.pc
  · exact pcMovesByWords_of_pc_eq (by rw [h, if_pos hrd])
  · exact ⟨4#32, rfl, by rw [h, if_neg hrd]⟩

end

section
variable (s : State) (rd : Reg)

theorem pcMovesByWords_raise (k : FaultKind) (info : Word) : PcMovesByWords s (s.raise k info) :=
  pcMovesByWords_of_pc_eq (State.pc_raise s k info)

theorem pcMovesByWords_writeResult (hrd : rd ≠ Reg.pc) (v : Word) : PcMovesByWords s (s.writeResult rd v) :=
  ⟨4#32, rfl, by rw [State.pc_writeResult, if_neg hrd]⟩

theorem pcMovesByWords_compare (a b : Word) : PcMovesByWords s (compare s rd a b) := by
  obtain ⟨-, hadvanced, -⟩ := compare_frame s rd a b
  exact pcMovesByWords_of_advancedUnlessPc hadvanced

/-- Every target and every fall-through is a multiple of 4 away, and an undefined code does not move (R123). -/
theorem pcMovesByWords_branch (cond : BitVec 4) (link : Bool) (imm24 : BitVec 24) :
    PcMovesByWords s (branch cond link imm24 s) := by
  rcases branch_cases cond link imm24 s with ⟨-, h⟩ | ⟨taken, hcond, -⟩
  · rw [h]
    exact pcMovesByWords_raise s _ _
  · have hpc := pc_branch_of_condHolds hcond link imm24
    cases taken
    · exact ⟨4#32, rfl, hpc⟩
    · exact ⟨branchOffset imm24, toNat_branchOffset_mod_four imm24, hpc⟩

theorem pcMovesByWords_load (hrd : rd ≠ Reg.pc) (ea : Word) : PcMovesByWords s (load s rd ea) := by
  rcases load_cases s rd ea with ⟨-, h⟩ | ⟨-, h⟩ <;> rw [h]
  · exact pcMovesByWords_raise s _ _
  · exact pcMovesByWords_writeResult s rd hrd _

theorem pcMovesByWords_store (ea : Word) : PcMovesByWords s (store s rd ea) := by
  rcases store_cases s rd ea with ⟨-, h⟩ | ⟨-, h⟩ <;> rw [h]
  · exact pcMovesByWords_raise s _ _
  · exact pcMovesByWords_of_advancedUnlessPc (rd := rd) (State.pc_advanceUnlessPc _ rd)

end

/-- Every instruction but the computed jumps moves the program counter by a multiple of 4. -/
theorem pcMovesByWords_exec {i : Instr} (hi : i.jumpsAnywhere = false) (s : State) :
    ∃ t, exec i s = .next t ∧ PcMovesByWords s t := by
  cases i
  case bx => nomatch hi
  case addImm | addReg | subImm | subReg | movImm | movReg =>
    exact ⟨_, rfl, pcMovesByWords_writeResult s _ (beq_eq_false_iff_ne.1 hi) _⟩
  case cmpImm | cmpReg => exact ⟨_, rfl, pcMovesByWords_compare s _ _ _⟩
  case ldrImm | ldrReg => exact ⟨_, rfl, pcMovesByWords_load s _ (beq_eq_false_iff_ne.1 hi) _⟩
  case strImm | strReg => exact ⟨_, rfl, pcMovesByWords_store s _ _⟩
  case beq | bne | bge | blt | bgt | ble | b | bleq | blne | blge | bllt | blgt | blle | bl | condUndef0010 |
      condUndef0011 | condUndef0100 | condUndef0101 | condUndef0110 | condUndef0111 | condUndef1000 | condUndef1001 |
      condUndef1111 =>
    exact ⟨_, rfl, pcMovesByWords_branch s _ _ _⟩
  -- the refused rows
  all_goals exact ⟨_, rfl, pcMovesByWords_raise s _ _⟩

theorem isBranch_eq_false_of_jumpsAnywhere {i : Instr} (hi : i.jumpsAnywhere = true) : i.isBranch = false := by
  cases i
  case bx | addImm | addReg | subImm | subReg | movImm | movReg | ldrImm | ldrReg => rfl
  all_goals nomatch hi

end Sys2Proof.Machine

namespace Sys2Proof

open Sys2Proof.Machine

/-- Settles O20: bits 27:24 give the family and L = 0, and the instruction is `branch` under a code for which `condHolds` is
the condition of the table. -/
theorem branchGoesToTheTargetIfTheConditionHolds : Obligations.BranchGoesToTheTargetIfTheConditionHolds := by
  refine fun r hr => ⟨fun w hw hcond => ?_, fun imm24 s => ?_⟩
  · rw [and_mask_eq_iff 24 4 (by decide) (by decide) (by decide)] at hw
    obtain ⟨hb, hlink⟩ := isB_and_linkField_of_field (link := false) hw
    rw [decodeWord_of_mem_branchRowsOf hr hb hcond, hlink]
    rfl
  · have h := condHolds_of_mem_branchRowsOf hr s.flags
    exact ⟨_, exec_plain_of_mem_branchRowsOf hr imm24 s, pc_branch_of_condHolds h false imm24,
      sameRegsBut_branch_of_condHolds h false imm24, flags_branch_of_condHolds h false imm24,
      sameControl_branch_of_condHolds h false imm24, sameMemory_of_mem_eq (branch_mem _ _ _ s)⟩

/-- Settles O21: as for B, with L = 1; the link register is written before the condition decides the target. -/
theorem branchWithLinkAlwaysLinks : Obligations.BranchWithLinkAlwaysLinks := by
  refine fun r hr => ⟨fun w hw hcond => ?_, fun imm24 s => ?_⟩
  · rw [and_mask_eq_iff 24 4 (by decide) (by decide) (by decide)] at hw
    obtain ⟨hb, hlink⟩ := isB_and_linkField_of_field (link := true) hw
    rw [decodeWord_of_mem_branchRowsOf hr hb hcond, hlink]
    rfl
  · have h := condHolds_of_mem_branchRowsOf hr s.flags
    exact ⟨_, exec_link_of_mem_branchRowsOf hr imm24 s, reg_lr_branch_of_condHolds h imm24,
      pc_branch_of_condHolds h true imm24, sameRegsBut_branch_of_condHolds h true imm24,
      flags_branch_of_condHolds h true imm24, sameControl_branch_of_condHolds h true imm24,
      sameMemory_of_mem_eq (branch_mem _ _ _ s)⟩

/-- Settles O22: on an undefined code execution is `State.raise`, and the word it records is rebuilt from the code, the link
flag and imm24, which are all of a branch word. -/
theorem undefinedConditionsFaultBeforeAnyWrite : Obligations.UndefinedConditionsFaultBeforeAnyWrite := by
  refine fun p hp => ⟨fun w hb hcond => ?_, fun link imm24 s => ?_⟩
  · have hdecode := decodeWord_of_mem_undefinedBranches hp hb hcond
    have hword : branchWord p.1 (linkField w) (imm24Field w) = w := by
      rw [← hcond]
      exact branchWord_fields hb
    refine ⟨hdecode, fun s => ⟨_, ?_, faulted_raise s .undefinedCondition w⟩⟩
    rw [hdecode, exec_of_mem_undefinedBranches hp, hword]
  · rw [encodeWord_of_mem_undefinedBranches hp]
    exact ⟨_, exec_of_mem_undefinedBranches hp link imm24 s, faulted_raise s _ _⟩

/-- Settles O23: the offset is `4 s + 8` as an integer modulo 2^32, and that integer is in the signed range. -/
theorem branchOffsetIsFourTimesTheFieldPlusEight : Obligations.BranchOffsetIsFourTimesTheFieldPlusEight := by
  refine fun imm24 => ⟨toInt_branchOffset imm24, toNat_branchOffset_mod_four imm24, fun a => ?_⟩
  rw [branchOffset_eq_ofInt, add_assoc, BitVec.ofInt_add a.toInt, BitVec.ofInt_toInt]

/-- Settles O24: every instruction but the computed jumps moves the program counter by a multiple of 4; a fetch at a
misaligned address is an access that fails. -/
theorem onlyJumpsMisalignThePc : Obligations.OnlyJumpsMisalignThePc := by
  refine ⟨fun i s t h hs ht => ?_, fun s hr hbad => ?_⟩
  · cases hi : i.jumpsAnywhere with
    | true => exact ⟨rfl, isBranch_eq_false_of_jumpsAnywhere hi⟩
    | false =>
      obtain ⟨u, hu, hmoves⟩ := pcMovesByWords_exec hi s
      obtain rfl := Host.Outcome.next.inj (hu.symm.trans h)
      exact absurd (hmoves.keeps_alignment hs) ht
  · obtain ⟨hfetch, -⟩ := inaccessibleAddressesFault s s.pc hr (.inl hbad)
    exact hfetch rfl

end Sys2Proof
end

section
/-! Load and store words (spec/30_encoding.md R56, R66): the instruction of a word that fits a row of the implemented mode,
and the refused row of a word in another mode. -/

namespace Sys2Proof

section
variable {w : Word}

/-- A word that fits a row of the implemented mode is decoded by its form and its load flag (44_single_data_transfer.md
R128, R129). -/
theorem decodeWord_of_fits_transfer {register load : Bool} (h : (Row.transfer register load).fits w = true) :
    decodeWord w = decodeTransfer w ∧ bit25 w = register ∧ loadField w = load := by
  obtain ⟨hsdt, hform, hmode, hload⟩ := (fits_transfer_iff register load w).1 h
  exact ⟨by rw [decodeWord_of_isSDT hsdt, decodeSingleDataTransfer_of_modeField hmode], hform, hload⟩

theorem decodeWord_of_fits_ldrImm (h : (Row.transfer false true).fits w = true) :
    decodeWord w = .ldrImm (rdField w) (rnField w) (imm8Field w) := by
  obtain ⟨hdec, hform, hload⟩ := decodeWord_of_fits_transfer h
  rw [hdec, decodeTransfer, hform, hload]

theorem decodeWord_of_fits_ldrReg (h : (Row.transfer true true).fits w = true) :
    decodeWord w = .ldrReg (rdField w) (rnField w) (rmField w) (shamtField w) := by
  obtain ⟨hdec, hform, hload⟩ := decodeWord_of_fits_transfer h
  rw [hdec, decodeTransfer, hform, hload]

theorem decodeWord_of_fits_strImm (h : (Row.transfer false false).fits w = true) :
    decodeWord w = .strImm (rdField w) (rnField w) (imm8Field w) := by
  obtain ⟨hdec, hform, hload⟩ := decodeWord_of_fits_transfer h
  rw [hdec, decodeTransfer, hform, hload]

theorem decodeWord_of_fits_strReg (h : (Row.transfer true false).fits w = true) :
    decodeWord w = .strReg (rdField w) (rnField w) (rmField w) (shamtField w) := by
  obtain ⟨hdec, hform, hload⟩ := decodeWord_of_fits_transfer h
  rw [hdec, decodeTransfer, hform, hload]

/-- A mode with P = 0, U = 0 or B = 1 is one of the refused rows: the first of the three bits that is wrong names it
(R133). -/
theorem decodeSingleDataTransfer_of_unsupported
    (h : w.getLsbD 24 = false ∨ w.getLsbD 23 = false ∨ w.getLsbD 22 = true) :
    ∃ mk ∈ unsupportedModes, decodeSingleDataTransfer w = mk w := by
  unfold decodeSingleDataTransfer
  split
  case h_1 => exact ⟨.sdtPostIndexed, by simp [unsupportedModes], rfl⟩
  case h_2 => exact ⟨.sdtDownward, by simp [unsupportedModes], rfl⟩
  case h_3 => exact ⟨.sdtByte, by simp [unsupportedModes], rfl⟩
  case h_4 hp hu hb => exact absurd h (by rw [hp, hu, hb]; decide)

end

end Sys2Proof
end

section
/-! Single data transfer (spec/44_single_data_transfer.md): what a load and a store do from each address, in both forms, and
the store of a word just loaded. -/

namespace Sys2Proof.Machine

/-- Every refused mode raises UnsupportedEncoding with its word (R133). -/
theorem exec_of_mem_unsupportedModes {mk : Word → Instr} (h : mk ∈ unsupportedModes) (iw : Word) (s : State) :
    exec (mk iw) s = .next (s.raise .unsupportedEncoding iw) := by
  unfold unsupportedModes at h
  fin_cases h <;> rfl

/-! ### Accesses that complete -/

section
variable {s : State} {ea : Word} (rd : Reg)

theorem load_of_accessible (h : s.mem.accessible ea = true) :
    load s rd ea = s.writeResult rd (s.mem.wordAt ea.toNat) := by
  rcases load_cases s rd ea with ⟨h', -⟩ | ⟨-, hl⟩
  · simp [h] at h'
  · exact hl

theorem store_of_accessible (h : s.mem.accessible ea = true) : store s rd ea =
    State.advanceUnlessPc { s with mem := s.mem.putWord ea.toNat (s.reg rd) } rd := by
  rcases store_cases s rd ea with ⟨h', -⟩ | ⟨-, hs⟩
  · simp [h] at h'
  · exact hs

theorem store_mem_of_accessible (h : s.mem.accessible ea = true) :
    (store s rd ea).mem = s.mem.putWord ea.toNat (s.reg rd) := by
  rw [store_of_accessible rd h, State.advanceUnlessPc_mem]

/-- A store that completes has the registers of the PC-advance rule, by the field also for Rd = 15 (R130, R132). -/
theorem reg_store_of_accessible (h : s.mem.accessible ea = true) (r : Reg) :
    (store s rd ea).reg r = if r = Reg.pc then (if rd = Reg.pc then s.pc else s.pc + 4#32) else s.reg r := by
  rw [store_of_accessible rd h, State.reg_advanceUnlessPc]
  rfl

/-- STR changes the four bytes at the address and by the PC-advance rule the program counter, and nothing else (R129,
R130, R134). -/
theorem store_frame (hwf : s.mem.wf) (h : s.mem.accessible ea = true) :
    (store s rd ea).mem.wordAt ea.toNat = s.reg rd ∧ SameMemoryBut ea.toNat 4 s (store s rd ea) ∧
      AdvancedUnlessPc rd s (store s rd ea) ∧ SameRegsBut [Reg.pc] s (store s rd ea) ∧
      (store s rd ea).flags = s.flags ∧ SameControl s (store s rd ea) := by
  obtain ⟨-, hcells, -⟩ := hwf
  have hmem := store_mem_of_accessible rd h
  refine ⟨?word, ⟨store_mapped s rd ea, fun b hb => ?bytes⟩, ?pc, fun r hr => ?regs, ?flags, ?control⟩
  case word => rw [hmem, Memory.wordAt_putWord_self hcells]
  case bytes => rw [hmem, Memory.byteAt_putWord_of_outside hcells _ hb]
  case pc => rw [AdvancedUnlessPc, ← State.reg_pc, reg_store_of_accessible rd h, if_pos rfl]
  case regs => rw [reg_store_of_accessible rd h, if_neg (List.ne_of_not_mem_cons hr)]
  case flags => rw [store_of_accessible rd h, State.advanceUnlessPc_flags]
  case control =>
    rw [store_of_accessible rd h]
    exact ⟨State.advanceUnlessPc_runState _ rd, State.advanceUnlessPc_faultCode _ rd,
      State.advanceUnlessPc_faultPc _ rd, State.advanceUnlessPc_faultInfo _ rd⟩

end

/-! ### A load or store instruction of either form, by its address -/

section
variable {i : Instr} {s : State} {rd : Reg} {ea : Word}

/-- An instruction that loads completes exactly at an aligned, mapped address (R128, 60_exceptions.md R157). -/
theorem load_outcome (he : exec i s = .next (load s rd ea)) :
    (ea.toNat % 4 = 0 → s.mem.isMapped ea = true →
      ∃ t, exec i s = .next t ∧ ResultWritten rd (s.mem.wordAt ea.toNat) s t) ∧
    (ea.toNat % 4 ≠ 0 ∨ s.mem.isMapped ea = false →
      ∃ t, exec i s = .next t ∧ Faulted .invalidMemoryAccess ea s t) := by
  refine ⟨fun halign hmap => ⟨_, he, ?_⟩, fun hbad => ⟨_, he, ?_⟩⟩
  · rw [load_of_accessible rd ((s.mem.accessible_iff ea).2 ⟨halign, hmap⟩)]
    exact resultWritten_writeResult s rd _
  · rw [load_of_not_accessible rd ((s.mem.not_accessible_iff ea).2 hbad)]
    exact faulted_raise s _ ea

/-- An instruction that stores completes exactly at an aligned, mapped address (R129, 60_exceptions.md R157). -/
theorem store_outcome (he : exec i s = .next (store s rd ea)) (hwf : s.mem.wf) :
    (ea.toNat % 4 = 0 → s.mem.isMapped ea = true →
      ∃ t, exec i s = .next t ∧ t.mem.wordAt ea.toNat = s.reg rd ∧ SameMemoryBut ea.toNat 4 s t ∧
        AdvancedUnlessPc rd s t ∧ SameRegsBut [Reg.pc] s t ∧ t.flags = s.flags ∧ SameControl s t) ∧
    (ea.toNat % 4 ≠ 0 ∨ s.mem.isMapped ea = false →
      ∃ t, exec i s = .next t ∧ Faulted .invalidMemoryAccess ea s t) := by
  refine ⟨fun halign hmap => ⟨_, he, ?_⟩, fun hbad => ⟨_, he, ?_⟩⟩
  · exact store_frame rd hwf ((s.mem.accessible_iff ea).2 ⟨halign, hmap⟩)
  · rw [store_of_not_accessible rd ((s.mem.not_accessible_iff ea).2 hbad)]
    exact faulted_raise s _ ea

end

/-! ### The store of a word just loaded -/

/-- A store of a register that holds the word at the address leaves memory as the same data, and the register too: with
Rd = 15 the program counter does not advance (R130, R138). -/
theorem store_of_reg_eq_wordAt {t : State} {rd : Reg} {ea : Word} (hwf : t.mem.wf) (h : t.mem.accessible ea = true)
    (hrd : t.reg rd = t.mem.wordAt ea.toNat) :
    (store t rd ea).mem = t.mem ∧ (store t rd ea).reg rd = t.mem.wordAt ea.toNat := by
  obtain ⟨-, hcells, -⟩ := hwf
  constructor
  · rw [store_mem_of_accessible rd h, hrd, Memory.putWord_wordAt hcells]
  · rw [reg_store_of_accessible rd h, ← hrd]
    split
    · next hpc => rw [hpc, State.reg_pc]
    · rfl

/-- A load and then a store of the same register at the same address (R138). -/
theorem store_load {s : State} {rd : Reg} {ea : Word} (hwf : s.mem.wf) (h : s.mem.accessible ea = true) :
    (store (load s rd ea) rd ea).mem = s.mem ∧ (store (load s rd ea) rd ea).reg rd = s.mem.wordAt ea.toNat := by
  have hmem : (load s rd ea).mem = s.mem := load_mem s rd ea
  have hreg : (load s rd ea).reg rd = s.mem.wordAt ea.toNat := by
    rw [load_of_accessible rd h, State.reg_writeResult, if_pos rfl]
  rw [← hmem] at hwf h hreg ⊢
  exact store_of_reg_eq_wordAt hwf h hreg

/-- `store_load` for two instructions, of which the second is executed in the state the first answers. -/
theorem store_after_load {i j : Instr} {s t : State} {rd : Reg} {ea : Word} (hwf : s.mem.wf)
    (halign : ea.toNat % 4 = 0) (hmap : s.mem.isMapped ea = true) (ht : exec i s = .next t)
    (hi : exec i s = .next (load s rd ea)) (hj : exec j t = .next (store t rd ea)) :
    ∃ u, exec j t = .next u ∧ u.mem = s.mem ∧ u.reg rd = s.mem.wordAt ea.toNat := by
  obtain rfl : load s rd ea = t := Host.Outcome.next.inj (hi.symm.trans ht)
  exact ⟨_, hj, store_load hwf ((s.mem.accessible_iff ea).2 ⟨halign, hmap⟩)⟩

end Sys2Proof.Machine

namespace Sys2Proof

open Sys2Proof.Machine

/-- Settles O25: each form fits its row of the opcode table and executes as the load from its effective address. -/
theorem ldrLoadsTheWordAtTheEffectiveAddress : Obligations.LdrLoadsTheWordAtTheEffectiveAddress := by
  refine ⟨fun w hw => ?_, fun w hw => ?_, ?_, ?_⟩
  · exact decodeWord_of_fits_ldrImm ((fits_iff (Row.transfer false true) w).2 hw)
  · exact decodeWord_of_fits_ldrReg ((fits_iff (Row.transfer true true) w).2 hw)
  · rintro rd rn imm8 s ea rfl
    exact load_outcome (exec_ldrImm rd rn imm8 s)
  · rintro rd rn rm shamt s ea rfl
    exact load_outcome (exec_ldrReg rd rn rm shamt s)

/-- Settles O26: each form fits its row of the opcode table and executes as the store to its effective address. -/
theorem strStoresTheWordAtTheEffectiveAddress : Obligations.StrStoresTheWordAtTheEffectiveAddress := by
  refine ⟨fun w hw => ?_, fun w hw => ?_, ?_, ?_⟩
  · exact decodeWord_of_fits_strImm ((fits_iff (Row.transfer false false) w).2 hw)
  · exact decodeWord_of_fits_strReg ((fits_iff (Row.transfer true false) w).2 hw)
  · rintro rd rn imm8 s ea hwf rfl
    exact store_outcome (exec_strImm rd rn imm8 s) hwf
  · rintro rd rn rm shamt s ea hwf rfl
    exact store_outcome (exec_strReg rd rn rm shamt s) hwf

/-- Settles O28: the split is that of the decoder, bit by bit, and every row of the list raises the fault. -/
theorem unsupportedModesFault : Obligations.UnsupportedModesFault := by
  refine ⟨fun w hsdt hmode => ?_, fun mk hmk iw s => ?_⟩
  · rw [decodeWord_of_isSDT hsdt]
    exact decodeSingleDataTransfer_of_unsupported hmode
  · exact ⟨_, exec_of_mem_unsupportedModes hmk iw s, faulted_raise s _ iw⟩

/-- Settles O29: with the address registers unchanged the store goes where the load read, and it writes back the word that
is there, which leaves the canonical form of memory as the same data. -/
theorem loadThenStoreRestoresMemory : Obligations.LoadThenStoreRestoresMemory := by
  refine fun s t rd rn hwf => ⟨?imm, ?reg⟩
  case imm =>
    rintro imm8 ea rfl halign hmap ht hrn
    have hstore := exec_strImm rd rn imm8 t
    rw [hrn] at hstore
    exact store_after_load hwf halign hmap ht (exec_ldrImm rd rn imm8 s) hstore
  case reg =>
    rintro rm shamt ea rfl halign hmap ht hrn hrm
    have hstore := exec_strReg rd rn rm shamt t
    rw [hrn, hrm] at hstore
    exact store_after_load hwf halign hmap ht (exec_ldrReg rd rn rm shamt s) hstore

end Sys2Proof
end

section
/-! The sequencer (spec/45_sequencer.md R141 to R149): what an instruction and a step do to the run state and the fault
record. -/

namespace Sys2Proof.Machine

/-! ### An instruction faults or leaves the run state and the fault record alone -/

/-- The two ways of an instruction to leave the run state and the fault record: it raises a fault and does nothing else, or it
completes and changes neither (60_exceptions.md R161, R162). -/
def RaisesOrKeepsControl (s t : State) : Prop := (∃ k info, t = s.raise k info) ∨ SameControl s t

section
variable (s : State)

theorem raisesOrKeepsControl_branch (cond : BitVec 4) (link : Bool) (imm24 : BitVec 24) :
    RaisesOrKeepsControl s (branch cond link imm24 s) := by
  rcases branch_cases cond link imm24 s with ⟨-, h⟩ | ⟨_, hcond, -⟩
  · exact .inl ⟨_, _, h⟩
  · exact .inr (sameControl_branch_of_condHolds hcond link imm24)

theorem raisesOrKeepsControl_writeResult (rd : Reg) (v : Word) : RaisesOrKeepsControl s (s.writeResult rd v) := by
  obtain ⟨-, -, -, -, hcontrol, -⟩ := resultWritten_writeResult s rd v
  exact .inr hcontrol

theorem raisesOrKeepsControl_compare (rd : Reg) (a b : Word) : RaisesOrKeepsControl s (compare s rd a b) := by
  obtain ⟨-, -, -, hcontrol, -⟩ := compare_frame s rd a b
  exact .inr hcontrol

theorem raisesOrKeepsControl_load (rd : Reg) (ea : Word) : RaisesOrKeepsControl s (load s rd ea) := by
  rcases load_cases s rd ea with ⟨-, h⟩ | ⟨-, h⟩
  · exact .inl ⟨_, _, h⟩
  · rw [h]
    exact raisesOrKeepsControl_writeResult s rd _

theorem raisesOrKeepsControl_store (rd : Reg) (ea : Word) : RaisesOrKeepsControl s (store s rd ea) := by
  rcases store_cases s rd ea with ⟨-, h⟩ | ⟨-, h⟩
  · exact .inl ⟨_, _, h⟩
  · rw [h]
    exact .inr ⟨State.advanceUnlessPc_runState _ rd, State.advanceUnlessPc_faultCode _ rd,
      State.advanceUnlessPc_faultPc _ rd, State.advanceUnlessPc_faultInfo _ rd⟩

end

/-- No instruction halts the core, and none touches the fault record but by a fault. -/
theorem raisesOrKeepsControl_of_exec {i : Instr} {s t : State} (h : exec i s = .next t) : RaisesOrKeepsControl s t := by
  obtain ⟨u, hu, hcases⟩ := exec_cases i s
  obtain rfl : u = t := Host.Outcome.next.inj (hu.symm.trans h)
  rcases hcases with ⟨k, info, hu⟩ | ⟨v, rfl⟩ | ⟨rd, v, rfl⟩ | ⟨rd, a, b, rfl⟩ | ⟨cond, link, imm24, rfl⟩ |
    ⟨rd, ea, rfl⟩ | ⟨rd, ea, rfl⟩
  · exact .inl ⟨k, info, hu⟩
  · exact .inr (sameControl_setPc s v)
  · exact raisesOrKeepsControl_writeResult s rd v
  · exact raisesOrKeepsControl_compare s rd a b
  · exact raisesOrKeepsControl_branch s cond link imm24
  · exact raisesOrKeepsControl_load s rd ea
  · exact raisesOrKeepsControl_store s rd ea

/-! ### A step of a running core -/

/-- A step of a running core raises a fault, or completes an instruction and makes the halt test (45_sequencer.md R146). -/
theorem step_raises_or_completes {s t : State} (hr : s.runState = .running) (h : step s = .next t) :
    (∃ k info, t = s.raise k info) ∨ ∃ u, SameControl s u ∧ t = u.haltTest := by
  rcases step_cases s with ⟨hn, -⟩ | ⟨-, -, hs⟩ | ⟨iw, u, -, -, he, hs⟩
  · exact absurd hr hn
  · exact .inl ⟨_, _, Host.Outcome.next.inj (h.symm.trans hs)⟩
  · have ht : t = u.haltTest := Host.Outcome.next.inj (h.symm.trans hs)
    rcases raisesOrKeepsControl_of_exec he with ⟨k, info, rfl⟩ | hcontrol
    · exact .inl ⟨k, info, by rw [ht, State.haltTest_raise]⟩
    · exact .inr ⟨u, hcontrol, ht⟩

/-- The halt test of a running core decides between Halted and Running by the program counter (R142). -/
theorem State.haltTest_of_running {s : State} (hr : s.runState = .running) :
    (s.haltTest.runState = .halted ∧ s.haltTest.pc = 0#32) ∨
      (s.haltTest.runState = .running ∧ s.haltTest.pc ≠ 0#32) := by
  rw [State.pc_haltTest]
  rcases s.haltTest_cases with ⟨-, hpc, h⟩ | ⟨hn, h⟩ <;> rw [h]
  · exact .inl ⟨rfl, hpc⟩
  · exact .inr ⟨hr, fun hpc => hn ⟨hr, hpc⟩⟩

/-! ### Step and Run outside Running -/

/-- Run does nothing outside Running, whatever its fuel (R141). -/
theorem State.run_of_not_running {s : State} (hr : s.runState ≠ .running) (fuel : Nat) : s.run fuel = s := by
  cases fuel with
  | zero => rfl
  | succ fuel => rw [State.run, if_neg hr]

end Sys2Proof.Machine

namespace Sys2Proof

open Sys2Proof.Machine

/-- Settles O37: each of the three ways of a step, nothing outside Running, a failed fetch or an executed word, answers a next
state. -/
theorem everyStateHasANextState : Obligations.EveryStateHasANextState := by
  intro s
  rcases step_cases s with ⟨-, hs⟩ | ⟨-, -, hs⟩ | ⟨_, _, -, -, -, hs⟩ <;> exact ⟨_, hs⟩

/-- Settles O38: an instruction either faults or leaves the core running, and then the halt test decides by the program
counter. -/
theorem runStateTransitions : Obligations.RunStateTransitions := by
  refine ⟨fun s hr => ⟨step_of_not_running hr, State.run_of_not_running hr⟩, fun s t hr h => ?step,
    fun s p entry a0 a1 a2 a3 => State.initialize_runState s p entry a0 a1 a2 a3⟩
  rcases step_raises_or_completes hr h with ⟨k, info, rfl⟩ | ⟨u, ⟨hrun, -⟩, rfl⟩
  · exact .inl ⟨State.raise_runState s info k, Option.some_ne_none k⟩
  · exact .inr (State.haltTest_of_running (hrun.trans hr))

end Sys2Proof
end

section
/-! The classifier and the faults of refused words (spec/60_exceptions.md R156, R158, R159, R165): a word that does not execute
raises the fault of its family, with the word recorded and whatever the state is. -/

namespace Sys2Proof

/-! ### Words of no family -/

section
variable {w : Word}

/-- Bits 27:25 = 100 and bits 27:26 = 11 are what the four predicates leave (40_classifier.md R75). -/
theorem classify_eq_unrecognised_iff :
    classify w = .unrecognised ↔ w.extractLsb' 25 3 = 0b100#3 ∨ w.extractLsb' 26 2 = 0b11#2 := by
  obtain ⟨hbx, -, -, -, -, -, -, -, hun⟩ := classifierOverlapIsBxInDataProcessing w
  rw [hun]
  constructor
  · rintro ⟨hb, hdp, hsdt⟩
    simpa [hb, hdp, hsdt, mt hbx] using word_cases w
  · rintro (h | h)
    · have h26 := bits27_26_of_bits27_25 h
      rw [isB, isDP, isSDT, h, h26]
      decide
    · have hb : w.extractLsb' 25 3 ≠ 0b101#3 := fun hc => by
        rw [bits27_26_of_bits27_25 hc] at h
        exact absurd h (by decide)
      rw [isDP, isSDT, h]
      exact ⟨beq_eq_false_iff_ne.2 hb, by decide, by decide⟩

/-- A word of no family decodes to one of the two unrecognised rows, which carries it (60_exceptions.md R156). -/
theorem decodeWord_of_unrecognised (h : classify w = .unrecognised) : ∃ mk ∈ unrecognisedWords, decodeWord w = mk w := by
  rcases classify_eq_unrecognised_iff.1 h with h | h
  · exact ⟨.unrecognised100, by simp [unrecognisedWords], decodeWord_of_unrecognised100 h⟩
  · exact ⟨.unrecognised11, by simp [unrecognisedWords], decodeWord_of_unrecognised11 h⟩

/-! ### The refused words of each family -/

/-- A data-processing word that does not execute has an opcode of R99. -/
theorem decodeDataProcessing_of_refused (he : (decodeDataProcessing w).executes = false) :
    ∃ mk ∈ unsupportedOpcodes, decodeDataProcessing w = mk w := by
  refine decodeDataProcessing_of_unsupported fun hop => ?_
  have hexecutes : (decodeDataProcessing w).executes = true := by
    simp only [List.mem_cons, List.not_mem_nil, or_false] at hop
    rcases hop with hop | hop | hop | hop <;> cases hform : bit25 w <;>
      simp [decodeDataProcessing, hop, hform, Instr.executes]
  exact Bool.false_ne_true (he.symm.trans hexecutes)

theorem executes_decodeTransfer : (decodeTransfer w).executes = true := by
  unfold decodeTransfer
  split <;> rfl

/-- A load/store word that does not execute is in a mode of R133. -/
theorem decodeSingleDataTransfer_of_refused (he : (decodeSingleDataTransfer w).executes = false) :
    ∃ mk ∈ unsupportedModes, decodeSingleDataTransfer w = mk w := by
  refine decodeSingleDataTransfer_of_unsupported ?_
  by_contra hmode
  simp only [not_or, Bool.not_eq_false, Bool.not_eq_true] at hmode
  obtain ⟨hp, hu, hb⟩ := hmode
  rw [decodeSingleDataTransfer, hp, hu, hb] at he
  exact Bool.false_ne_true (he.symm.trans executes_decodeTransfer)

/-- The two tables of conditions cover the sixteen codes (43_conditional_branch.md R116). -/
theorem condition_defined_or_undefined :
    ∀ c : BitVec 4, (∃ r ∈ branchRowsOf, c = r.code) ∨ ∃ p ∈ undefinedBranches, c = p.1 := by decide

theorem executes_of_mem_branchRowsOf {r : BranchRow} (hr : r ∈ branchRowsOf) (imm24 : BitVec 24) :
    (r.link imm24).executes = true ∧ (r.plain imm24).executes = true := by
  unfold branchRowsOf at hr
  fin_cases hr <;> exact ⟨rfl, rfl⟩

/-- A branch word that does not execute has an undefined condition code. -/
theorem condField_of_refused (hb : isB w = true) (he : (decodeWord w).executes = false) :
    ∃ p ∈ undefinedBranches, condField w = p.1 := by
  rcases condition_defined_or_undefined (condField w) with ⟨r, hr, hcond⟩ | hundef
  · obtain ⟨hlink, hplain⟩ := executes_of_mem_branchRowsOf hr (imm24Field w)
    rw [decodeWord_of_mem_branchRowsOf hr hb hcond] at he
    split at he
    · exact absurd (he.symm.trans hlink) Bool.false_ne_true
    · exact absurd (he.symm.trans hplain) Bool.false_ne_true
  · exact hundef

end

end Sys2Proof

namespace Sys2Proof.Machine

/-! ### The fault of a refused word -/

/-- The fault that the refused words of a family raise: each family has one, and no word of BX is refused (60_exceptions.md
R156, R158, R159). -/
def refusalFault : Family → Option FaultKind
  | .branchExchange => none
  | .conditionalBranch => some .undefinedCondition
  | .dataProcessing => some .unsupportedEncoding
  | .singleDataTransfer => some .unsupportedEncoding
  | .unrecognised => some .unrecognizedInstruction

theorem refusalFault_ne_invalidMemoryAccess (f : Family) : refusalFault f ≠ some .invalidMemoryAccess := by
  cases f <;> decide

theorem eq_unrecognised_of_refusalFault {f : Family} (h : refusalFault f = some .unrecognizedInstruction) :
    f = .unrecognised := by
  cases f
  case unrecognised => rfl
  all_goals nomatch h

theorem exec_of_mem_unrecognisedWords {mk : Word → Instr} (h : mk ∈ unrecognisedWords) (iw : Word) (s : State) :
    exec (mk iw) s = .next (s.raise .unrecognizedInstruction iw) := by
  unfold unrecognisedWords at h
  fin_cases h <;> rfl

theorem executes_of_mem_unrecognisedWords {mk : Word → Instr} (h : mk ∈ unrecognisedWords) (iw : Word) :
    (mk iw).executes = false := by
  unfold unrecognisedWords at h
  fin_cases h <;> rfl

section
variable {w : Word}

/-- A refused word raises the fault of its family and records the word, in every state: nothing of the state, so no address of
a refused transfer either, is looked at first (60_exceptions.md R165). -/
theorem exec_of_refused (he : (decodeWord w).executes = false) :
    ∃ k, refusalFault (classify w) = some k ∧ ∀ s : State, exec (decodeWord w) s = .next (s.raise k w) := by
  obtain ⟨-, -, -, -, hbx, hb, hdp, hsdt, -⟩ := classifierOverlapIsBxInDataProcessing w
  cases hf : classify w with
  | branchExchange =>
    rw [decodeWord_of_isBX (hbx.1 hf)] at he
    nomatch he
  | conditionalBranch =>
    have hisB := hb.1 hf
    obtain ⟨p, hp, hcond⟩ := condField_of_refused hisB he
    refine ⟨.undefinedCondition, rfl, fun s => ?_⟩
    rw [decodeWord_of_mem_undefinedBranches hp hisB hcond, exec_of_mem_undefinedBranches hp, ← hcond,
      branchWord_fields hisB]
  | dataProcessing =>
    obtain ⟨hisDP, hnotBX⟩ := hdp.1 hf
    rw [decodeWord_of_isDP hisDP hnotBX] at he ⊢
    obtain ⟨mk, hmk, hdec⟩ := decodeDataProcessing_of_refused he
    exact ⟨.unsupportedEncoding, rfl, fun s => by rw [hdec, exec_of_mem_unsupportedOpcodes hmk]⟩
  | singleDataTransfer =>
    rw [decodeWord_of_isSDT (hsdt.1 hf)] at he ⊢
    obtain ⟨mk, hmk, hdec⟩ := decodeSingleDataTransfer_of_refused he
    exact ⟨.unsupportedEncoding, rfl, fun s => by rw [hdec, exec_of_mem_unsupportedModes hmk]⟩
  | unrecognised =>
    obtain ⟨mk, hmk, hdec⟩ := decodeWord_of_unrecognised hf
    exact ⟨.unrecognizedInstruction, rfl, fun s => by rw [hdec, exec_of_mem_unrecognisedWords hmk]⟩

/-- A word that decodes to an unrecognised row is of no family: the fault it raises is that of no other one. -/
theorem classify_of_decodeWord_eq_unrecognised {mk : Word → Instr} (hmk : mk ∈ unrecognisedWords)
    (h : decodeWord w = mk w) : classify w = .unrecognised := by
  have he : (decodeWord w).executes = false := by rw [h, executes_of_mem_unrecognisedWords hmk]
  obtain ⟨k, hk, hexec⟩ := exec_of_refused he
  have hraise := hexec State.reset
  rw [h, exec_of_mem_unrecognisedWords hmk] at hraise
  have hcode : some FaultKind.unrecognizedInstruction = some k :=
    congrArg State.faultCode (Host.Outcome.next.inj hraise)
  exact eq_unrecognised_of_refusalFault (hk.trans hcode.symm)

/-- A step that fetches a refused word ends in the precise fault of its family. -/
theorem step_of_refused {s : State} {k : FaultKind} (hr : s.runState = .running) (hf : s.fetch = some w)
    (he : (decodeWord w).executes = false) (hk : refusalFault (classify w) = some k) :
    ∃ t, step s = .next t ∧ Faulted k w s t := by
  obtain ⟨k', hk', hexec⟩ := exec_of_refused he
  obtain rfl : k' = k := Option.some.inj (hk'.symm.trans hk)
  exact ⟨_, step_of_exec_raise hr hf (hexec s), faulted_raise s k' w⟩

end

/-! ### The instructions that cannot fault -/

/-- An implemented instruction faults by its data access or not at all: one that is no load or store leaves the run state and
the fault record alone. -/
theorem exec_keeps_control {i : Instr} (he : i.executes = true) (hm : i.accessesMemory = false) (s : State) :
    ∃ t, exec i s = .next t ∧ SameControl s t := by
  cases i
  case bx => exact ⟨_, rfl, sameControl_setPc s _⟩
  case addImm | addReg | subImm | subReg | movImm | movReg =>
    obtain ⟨-, -, -, -, hcontrol, -⟩ := resultWritten_writeResult s _ _
    exact ⟨_, rfl, hcontrol⟩
  case cmpImm | cmpReg =>
    obtain ⟨-, -, -, hcontrol, -⟩ := compare_frame s _ _ _
    exact ⟨_, rfl, hcontrol⟩
  case beq | bne | bge | blt | bgt | ble | b | bleq | blne | blge | bllt | blgt | blle | bl =>
    exact ⟨_, rfl, sameControl_branch_of_condHolds rfl _ _⟩
  case ldrImm | ldrReg | strImm | strReg => nomatch hm
  -- the refused rows
  all_goals nomatch he

/-! ### Steps that end Faulted -/

/-- A step of a running core that ends Faulted is fault entry and nothing else (60_exceptions.md R161, R162). -/
theorem step_raises_of_faulted {s t : State} (hr : s.runState = .running) (h : step s = .next t)
    (ht : t.runState = .faulted) : ∃ k info, t = s.raise k info := by
  rcases step_raises_or_completes hr h with hraise | ⟨u, ⟨hrun, -⟩, rfl⟩
  · exact hraise
  · rcases State.haltTest_of_running (hrun.trans hr) with ⟨hend, -⟩ | ⟨hend, -⟩
    · exact nomatch ht.symm.trans hend
    · exact nomatch ht.symm.trans hend

/-- InvalidMemoryAccess after a fetch is that of the data access of an implemented LDR or STR (60_exceptions.md R165). -/
theorem accessesMemory_of_step_invalidMemoryAccess {s t : State} {w : Word} (hr : s.runState = .running)
    (hf : s.fetch = some w) (h : step s = .next t) (ht : t.faultCode = some .invalidMemoryAccess)
    (hs : s.faultCode = none) : (decodeWord w).executes = true ∧ (decodeWord w).accessesMemory = true := by
  obtain ⟨u, hexec, -⟩ := exec_cases (decodeWord w) s
  have hu : u.faultCode = some .invalidMemoryAccess := by
    obtain rfl : u.haltTest = t := Host.Outcome.next.inj ((step_of_exec hr hf hexec).symm.trans h)
    rwa [State.haltTest_faultCode] at ht
  have he : (decodeWord w).executes = true := by
    by_contra hn
    obtain ⟨k, hk, hraise⟩ := exec_of_refused (Bool.eq_false_iff.2 hn)
    obtain rfl : s.raise k w = u := Host.Outcome.next.inj ((hraise s).symm.trans hexec)
    exact refusalFault_ne_invalidMemoryAccess _ (hk.trans hu)
  refine ⟨he, ?_⟩
  by_contra hm
  obtain ⟨u', hexec', -, hcode, -⟩ := exec_keeps_control he (Bool.eq_false_iff.2 hm) s
  obtain rfl : u' = u := Host.Outcome.next.inj (hexec'.symm.trans hexec)
  exact nomatch hs.symm.trans (hcode.symm.trans hu)

end Sys2Proof.Machine

namespace Sys2Proof

open Sys2Proof.Machine

/-- Settles O43: the four predicates leave exactly these words, and the fault a word raises tells whether it is one of them. -/
theorem unrecognisedWordsFault : Obligations.UnrecognisedWordsFault := by
  refine ⟨fun w => ?_, fun mk hmk iw s => ⟨_, exec_of_mem_unrecognisedWords hmk iw s, faulted_raise s _ iw⟩⟩
  rw [← classify_eq_unrecognised_iff]
  exact ⟨decodeWord_of_unrecognised, fun ⟨_, hmk, h⟩ => classify_of_decodeWord_eq_unrecognised hmk h⟩

/-- Settles O39: a completed step of a running core is not Faulted, so the step is `State.raise`. -/
theorem faultsArePrecise : Obligations.FaultsArePrecise := by
  intro s t hr h ht
  obtain ⟨k, info, rfl⟩ := step_raises_of_faulted hr h ht
  exact ⟨k, info, faulted_raise s k info, State.raise_mem s info k, rfl⟩

/-- Settles O40: a failed fetch is the first test of a step; a refused word raises the fault of its family before any access;
what is left of InvalidMemoryAccess is the data access of an implemented instruction. -/
theorem faultPriority : Obligations.FaultPriority := by
  refine fun s hr => ⟨fun hf => ⟨_, step_of_fetch_none hr hf, faulted_raise s _ _⟩, fun w hf =>
    ⟨fun hc => ?unrecognised, fun hc he => ?opcode, fun hc he => ?mode, fun hc he => ?condition, fun t h ht hs => ?access⟩⟩
  case unrecognised =>
    obtain ⟨mk, hmk, hdec⟩ := decodeWord_of_unrecognised hc
    have he : (decodeWord w).executes = false := by rw [hdec, executes_of_mem_unrecognisedWords hmk]
    exact step_of_refused hr hf he (congrArg refusalFault hc)
  case opcode | mode | condition => exact step_of_refused hr hf he (congrArg refusalFault hc)
  case access => exact accessesMemory_of_step_invalidMemoryAccess hr hf h ht hs

end Sys2Proof
end

section
/-! The encoder (spec/30_encoding.md R53 to R56): each format's word fits the row of its instruction, and its fields are the
operands. -/

namespace Sys2Proof

open Sys2Proof.Machine

/-- A field that is the whole of the high part. -/
theorem field_append_whole {n m : Nat} (x : BitVec n) (y : BitVec m) {lo : Nat} (h : lo = m) :
    (x ++ y).extractLsb' lo n = x := by
  rw [field_append_high x y (Nat.le_of_eq h.symm), h, Nat.sub_self, field_whole]

section
variable (cond opcode : BitVec 4) (link bit20 load : Bool) (imm24 : BitVec 24) (rd rn rm : Reg) (imm8 : BitVec 8)
  (shamt : BitVec 5)

/-! ### The row of each format's word -/

theorem fits_bxWord : Row.bx.fits (bxWord rm) = true := by
  simp (disch := omega) only [fits_bx_iff, isBX, bxWord, field_append_low, field_append_whole, beq_self_eq_true]

theorem fits_branchWord : (Row.branch cond link).fits (branchWord cond link imm24) = true := by
  simp (disch := omega) only [fits_branch_iff, branchWord, condField, isB, linkField, bit_eq_iff, field_append_low,
    field_append_whole, beq_self_eq_true, and_self]

theorem fits_dpImmWord : (Row.dataProcessing true opcode).fits (dpImmWord opcode bit20 rn rd imm8) = true := by
  simp (disch := omega) only [fits_dataProcessing_iff, dpImmWord, isDP, bit25, opcodeField, bit_eq_iff,
    field_append_low, field_append_whole, beq_self_eq_true, BitVec.ofBool_true, BitVec.ofNat_eq_ofNat, and_self]

theorem fits_dpRegWord : (Row.dataProcessing false opcode).fits (dpRegWord opcode bit20 rn rd rm) = true := by
  simp (disch := omega) only [fits_dataProcessing_iff, dpRegWord, isDP, bit25, opcodeField, bit_eq_iff,
    field_append_low, field_append_whole, beq_self_eq_true, BitVec.ofBool_false, BitVec.ofNat_eq_ofNat, and_self]

theorem fits_sdtImmWord : (Row.transfer false load).fits (sdtImmWord load rn rd imm8) = true := by
  simp (disch := omega) only [fits_transfer_iff, sdtImmWord, isSDT, bit25, loadField, bit_eq_iff, field_append_low,
    field_append_whole, beq_self_eq_true, BitVec.ofBool_false, BitVec.ofNat_eq_ofNat, and_self]

theorem fits_sdtRegWord : (Row.transfer true load).fits (sdtRegWord load rn rd rm shamt) = true := by
  simp (disch := omega) only [fits_transfer_iff, sdtRegWord, isSDT, bit25, loadField, bit_eq_iff, field_append_low,
    field_append_whole, beq_self_eq_true, BitVec.ofBool_true, BitVec.ofNat_eq_ofNat, and_self]

/-! ### The operand fields of each format's word -/

theorem rmField_bxWord : rmField (bxWord rm) = rm := by
  simp (disch := omega) only [rmField, regField, bxWord, field_append_low, field_whole, toFin_regBits]

theorem imm24Field_branchWord : imm24Field (branchWord cond link imm24) = imm24 := by
  simp (disch := omega) only [imm24Field, branchWord, field_append_low, field_whole]

theorem operandFields_dpImmWord : rdField (dpImmWord opcode bit20 rn rd imm8) = rd ∧
    rnField (dpImmWord opcode bit20 rn rd imm8) = rn ∧ imm8Field (dpImmWord opcode bit20 rn rd imm8) = imm8 := by
  simp (disch := omega) only [rdField, rnField, imm8Field, regField, dpImmWord, field_append_low, field_append_whole,
    field_whole, toFin_regBits, and_self]

theorem operandFields_dpRegWord : rdField (dpRegWord opcode bit20 rn rd rm) = rd ∧
    rnField (dpRegWord opcode bit20 rn rd rm) = rn ∧ rmField (dpRegWord opcode bit20 rn rd rm) = rm := by
  simp (disch := omega) only [rdField, rnField, rmField, regField, dpRegWord, field_append_low, field_append_whole,
    field_whole, toFin_regBits, and_self]

theorem operandFields_sdtImmWord : rdField (sdtImmWord load rn rd imm8) = rd ∧
    rnField (sdtImmWord load rn rd imm8) = rn ∧ imm8Field (sdtImmWord load rn rd imm8) = imm8 := by
  simp (disch := omega) only [rdField, rnField, imm8Field, regField, sdtImmWord, field_append_low, field_append_whole,
    field_whole, toFin_regBits, and_self]

theorem operandFields_sdtRegWord : rdField (sdtRegWord load rn rd rm shamt) = rd ∧
    rnField (sdtRegWord load rn rd rm shamt) = rn ∧ rmField (sdtRegWord load rn rd rm shamt) = rm ∧
    shamtField (sdtRegWord load rn rd rm shamt) = shamt := by
  simp (disch := omega) only [rdField, rnField, rmField, shamtField, regField, sdtRegWord, field_append_low,
    field_append_whole, field_whole, toFin_regBits, and_self]

end


section
variable {w : Word}

/-- Of opcode 1001 only the words that are not BX are decoded by the opcode (30_encoding.md R62). -/
theorem decodeWord_of_fits_opcode1001 {immediate : Bool} (h : (Row.dataProcessing immediate 0b1001#4).fits w = true)
    (hbx : isBX w = false) : decodeWord w = if immediate then .dp1001Imm w else .dp1001Reg w := by
  obtain ⟨hdp, hform, hop⟩ := (fits_dataProcessing_iff immediate _ w).1 h
  rw [decodeWord_of_isDP hdp hbx, decodeDataProcessing, hop, hform]
  cases immediate <;> rfl

/-- Each refused mode's row tests one bit of a load/store word (44_single_data_transfer.md R133). -/
theorem fits_modeRows_of_isSDT (h : isSDT w = true) : Row.postIndexed.fits w = !w.getLsbD 24 ∧
    Row.downward.fits w = !w.getLsbD 23 ∧ Row.byte.fits w = w.getLsbD 22 := by
  refine ⟨?_, ?_, ?_⟩
  · rw [Bool.eq_iff_iff, fits_postIndexed_iff, Bool.not_eq_true', and_iff_right h]
  · rw [Bool.eq_iff_iff, fits_downward_iff, Bool.not_eq_true', and_iff_right h]
  · rw [Bool.eq_iff_iff, fits_byte_iff, and_iff_right h]

end

/-! ### Decoding an encoded instruction -/

/-- The word of a well-formed instruction fits the instruction's row, which names the constructor, and the operands are read
back from its fields; a word that a constructor carries fits no earlier row either. -/
theorem decodeWord_encodeWord {i : Instr} (h : i.wellFormed = true) : decodeWord (encodeWord i) = i := by
  cases i
  case bx rm => rw [encodeWord, decodeWord_of_fits_bx (fits_bxWord rm), rmField_bxWord]
  case beq | bne | bge | blt | bgt | ble | b | bleq | blne | blge | bllt | blgt | blle | bl | condUndef0010 |
      condUndef0011 | condUndef0100 | condUndef0101 | condUndef0110 | condUndef0111 | condUndef1000 | condUndef1001 |
      condUndef1111 =>
    obtain ⟨hcond, hb, hlink⟩ := (fits_branch_iff _ _ _).1 (fits_branchWord _ _ _)
    rw [encodeWord, decodeWord_of_isB hb, decodeBranch, hcond, hlink, imm24Field_branchWord]
    rfl
  case subImm | addImm | cmpImm | movImm =>
    simp only [encodeWord, decodeWord_of_fits_subImm (fits_dpImmWord ..), decodeWord_of_fits_addImm (fits_dpImmWord ..),
      decodeWord_of_fits_cmpImm (fits_dpImmWord ..), decodeWord_of_fits_movImm (fits_dpImmWord ..),
      operandFields_dpImmWord]
  case subReg | addReg | cmpReg | movReg =>
    simp only [encodeWord, decodeWord_of_fits_subReg (fits_dpRegWord ..), decodeWord_of_fits_addReg (fits_dpRegWord ..),
      decodeWord_of_fits_cmpReg (fits_dpRegWord ..), decodeWord_of_fits_movReg (fits_dpRegWord ..),
      operandFields_dpRegWord]
  case ldrImm | strImm =>
    simp only [encodeWord, decodeWord_of_fits_ldrImm (fits_sdtImmWord ..),
      decodeWord_of_fits_strImm (fits_sdtImmWord ..), operandFields_sdtImmWord]
  case ldrReg | strReg =>
    simp only [encodeWord, decodeWord_of_fits_ldrReg (fits_sdtRegWord ..),
      decodeWord_of_fits_strReg (fits_sdtRegWord ..), operandFields_sdtRegWord]
  case dp0000Imm | dp0000Reg | dp0001Imm | dp0001Reg | dp0011Imm | dp0011Reg | dp0101Imm | dp0101Reg | dp0110Imm |
      dp0110Reg | dp0111Imm | dp0111Reg | dp1000Imm | dp1000Reg | dp1011Imm | dp1011Reg | dp1100Imm | dp1100Reg |
      dp1110Imm | dp1110Reg | dp1111Imm | dp1111Reg =>
    obtain ⟨hdec, hop, hform⟩ := decodeWord_of_fits_dataProcessing h (by decide)
    rw [encodeWord, hdec, decodeDataProcessing, hop, hform]
    rfl
  case dp1001Imm iw =>
    refine decodeWord_of_fits_opcode1001 (immediate := true) h (Bool.eq_false_iff.2 fun hbx => ?_)
    obtain ⟨-, hform, -⟩ := (fits_dataProcessing_iff true 0b1001#4 iw).1 h
    obtain ⟨-, -, hreg, -⟩ := fields_of_isBX hbx
    exact Bool.false_ne_true (hreg.symm.trans hform)
  case dp1001Reg iw =>
    simp only [Instr.wellFormed, Bool.and_eq_true, Bool.not_eq_true', isBxWord] at h
    obtain ⟨hfits, hbx⟩ := h
    exact decodeWord_of_fits_opcode1001 (immediate := false) hfits
      (Bool.eq_false_iff.2 fun hb => Bool.eq_false_iff.1 hbx ((fits_bx_iff iw).2 hb))
  case sdtPostIndexed iw =>
    obtain ⟨hsdt, hp⟩ := (fits_postIndexed_iff iw).1 h
    rw [encodeWord, decodeWord_of_isSDT hsdt, decodeSingleDataTransfer, hp]
  case sdtDownward iw =>
    simp only [Instr.wellFormed, Bool.and_eq_true, Bool.not_eq_true', fits_downward_iff] at h
    obtain ⟨⟨hsdt, hu⟩, hp⟩ := h
    obtain ⟨hpost, -, -⟩ := fits_modeRows_of_isSDT hsdt
    rw [hpost, Bool.not_eq_false'] at hp
    rw [encodeWord, decodeWord_of_isSDT hsdt, decodeSingleDataTransfer, hp, hu]
  case sdtByte iw =>
    simp only [Instr.wellFormed, Bool.and_eq_true, Bool.not_eq_true', fits_byte_iff] at h
    obtain ⟨⟨⟨hsdt, hb⟩, hp⟩, hu⟩ := h
    obtain ⟨hpost, hdown, -⟩ := fits_modeRows_of_isSDT hsdt
    rw [hpost, Bool.not_eq_false'] at hp
    rw [hdown, Bool.not_eq_false'] at hu
    rw [encodeWord, decodeWord_of_isSDT hsdt, decodeSingleDataTransfer, hp, hu, hb]
  case unrecognised100 iw => exact decodeWord_of_unrecognised100 ((fits_unrecognised100_iff iw).1 h)
  case unrecognised11 iw => exact decodeWord_of_unrecognised11 ((fits_unrecognised11_iff iw).1 h)

/-- Settles O1: the bytes of a word put together are the word, and decoding the word of a well-formed instruction gives the
instruction. -/
theorem decodeOfEncodeIsTheInstruction : Obligations.DecodeOfEncodeIsTheInstruction := by
  intro i rest h
  have hbytes : decode (encode i ++ rest) = .ok (decodeWord (encodeWord i), rest) := by
    rw [encode, bytesOfWord, List.cons_append, List.cons_append, List.cons_append, List.cons_append, List.nil_append,
      decode, wordOfBytes_byteOfWord]
  rw [hbytes, decodeWord_encodeWord h]

end Sys2Proof
end

section
/-! The decoder and the ordered opcode table (spec/30_encoding.md R63): the row of the decoded instruction fits the word, and
a row before it that fits is one that `Instr.wellFormed` rules out. -/

namespace Sys2Proof

open Sys2Proof.Machine

/-! ### The row of a decoded word -/

theorem row_of_mem_branchRowsOf {r : BranchRow} (hr : r ∈ branchRowsOf) (link : Bool) (imm24 : BitVec 24) :
    (if link then r.link imm24 else r.plain imm24).row = Row.branch r.code link := by
  unfold branchRowsOf at hr
  cases link <;> fin_cases hr <;> rfl

theorem row_of_mem_undefinedBranches {p : BitVec 4 × (Bool → BitVec 24 → Instr)} (hp : p ∈ undefinedBranches)
    (link : Bool) (imm24 : BitVec 24) : (p.2 link imm24).row = Row.undefinedCondition p.1 := by
  unfold undefinedBranches at hp
  fin_cases hp <;> rfl

section
variable {w : Word}

theorem row_decodeDataProcessing_eq :
    (decodeDataProcessing w).row = Row.dataProcessing (bit25 w) (opcodeField w) := by
  unfold decodeDataProcessing
  rcases opcodeField w with ⟨c⟩
  cases bit25 w <;> fin_cases c <;> rfl

/-- A branch word fits the row of its condition code, defined or not. -/
theorem row_fits_of_isB (hb : isB w = true) : (decodeWord w).row.fits w = true := by
  rcases condition_defined_or_undefined (condField w) with ⟨r, hr, hcond⟩ | ⟨p, hp, hcond⟩
  · rw [decodeWord_of_mem_branchRowsOf hr hb hcond, row_of_mem_branchRowsOf hr, fits_branch_iff]
    exact ⟨hcond, hb, rfl⟩
  · rw [decodeWord_of_mem_undefinedBranches hp hb hcond, row_of_mem_undefinedBranches hp, fits_undefinedCondition_iff]
    exact ⟨hcond, hb⟩

/-- A load/store word fits the row of the first mode bit that is refused, or that of its form and direction. -/
theorem row_fits_of_isSDT (hsdt : isSDT w = true) : (decodeSingleDataTransfer w).row.fits w = true := by
  cases he : (decodeSingleDataTransfer w).executes with
  | true =>
    have hmode := modeField_of_executes he
    rw [decodeSingleDataTransfer_of_modeField hmode, row_decodeTransfer, fits_transfer_iff]
    exact ⟨hsdt, rfl, hmode, rfl⟩
  | false =>
    unfold decodeSingleDataTransfer at he ⊢
    split
    case h_1 hp => exact (fits_postIndexed_iff w).2 ⟨hsdt, hp⟩
    case h_2 hp hu => exact (fits_downward_iff w).2 ⟨hsdt, hu⟩
    case h_3 hp hu hb => exact (fits_byte_iff w).2 ⟨hsdt, hb⟩
    case h_4 hp hu hb =>
      rw [hp, hu, hb] at he
      exact absurd (he.symm.trans executes_decodeTransfer) Bool.false_ne_true

end

/-- Every word fits the row of the instruction it decodes to. -/
theorem row_fits_decodeWord (w : Word) : (decodeWord w).row.fits w = true := by
  rcases word_cases w with h | h | ⟨h, hbx⟩ | h | h | h
  · rw [decodeWord_of_isBX h]
    exact (fits_bx_iff w).2 h
  · exact row_fits_of_isB h
  · rw [decodeWord_of_isDP h hbx, row_decodeDataProcessing_eq, fits_dataProcessing_iff]
    exact ⟨h, rfl, rfl⟩
  · rw [decodeWord_of_isSDT h]
    exact row_fits_of_isSDT h
  · rw [decodeWord_of_unrecognised100 h]
    exact (fits_unrecognised100_iff w).2 h
  · rw [decodeWord_of_unrecognised11 h]
    exact (fits_unrecognised11_iff w).2 h

/-! ### Refused words -/

theorem encodeWord_of_mem_refused {mk : Word → Instr}
    (h : mk ∈ unsupportedOpcodes ∨ mk ∈ unsupportedModes ∨ mk ∈ unrecognisedWords) (w : Word) : encodeWord (mk w) = w := by
  rcases h with h | h | h
  · unfold unsupportedOpcodes at h
    fin_cases h <;> rfl
  · unfold unsupportedModes at h
    fin_cases h <;> rfl
  · unfold unrecognisedWords at h
    fin_cases h <;> rfl

/-- Settles O4: a refused branch is rebuilt from its three fields, and every other refused row carries its word. -/
theorem refusedWordsKeepEveryBit : Obligations.RefusedWordsKeepEveryBit := by
  intro w he
  rcases word_cases w with h | h | ⟨h, hbx⟩ | h | h | h
  · rw [decodeWord_of_isBX h] at he
    nomatch he
  · obtain ⟨p, hp, hcond⟩ := condField_of_refused h he
    rw [decodeWord_of_mem_undefinedBranches hp h hcond, encodeWord_of_mem_undefinedBranches hp, ← hcond,
      branchWord_fields h]
  · rw [decodeWord_of_isDP h hbx] at he ⊢
    obtain ⟨mk, hmk, hdec⟩ := decodeDataProcessing_of_refused he
    rw [hdec, encodeWord_of_mem_refused (.inl hmk)]
  · rw [decodeWord_of_isSDT h] at he ⊢
    obtain ⟨mk, hmk, hdec⟩ := decodeSingleDataTransfer_of_refused he
    rw [hdec, encodeWord_of_mem_refused (.inr (.inl hmk))]
  · rw [decodeWord_of_unrecognised100 h, encodeWord]
  · rw [decodeWord_of_unrecognised11 h, encodeWord]

/-! ### Well-formedness of the decoder's answer -/

theorem wellFormed_decodeBranch (w : Word) : (decodeBranch w).wellFormed = true := by
  unfold decodeBranch
  split <;> rfl

theorem wellFormed_decodeTransfer (w : Word) : (decodeTransfer w).wellFormed = true := by
  unfold decodeTransfer
  split <;> rfl

/-- An implemented opcode carries no word. -/
theorem wellFormed_decodeDataProcessing_of_executes {w : Word} (he : (decodeDataProcessing w).executes = true) :
    (decodeDataProcessing w).wellFormed = true := by
  rcases opcodeField_of_executes he with hop | hop | hop | hop <;> cases hform : bit25 w
  all_goals simp [decodeDataProcessing, hop, hform, Instr.wellFormed]

/-- Of the refused opcodes only 1001 shares words with an earlier row, and those are BX (30_encoding.md R62). -/
theorem wellFormed_of_mem_unsupportedOpcodes {mk : Word → Instr} (hmk : mk ∈ unsupportedOpcodes) {w : Word}
    (hfits : (mk w).row.fits w = true) (hbx : isBX w = false) : (mk w).wellFormed = true := by
  have hnotBx : isBxWord w = false :=
    Bool.eq_false_iff.2 fun hb => Bool.eq_false_iff.1 hbx ((fits_bx_iff w).1 hb)
  unfold unsupportedOpcodes at hmk
  fin_cases hmk
  all_goals simpa [Instr.wellFormed, Instr.row, hnotBx] using hfits

/-- The three refused modes are told apart in the order of the table (44_single_data_transfer.md R133). -/
theorem wellFormed_decodeSingleDataTransfer {w : Word} (h : isSDT w = true) :
    (decodeSingleDataTransfer w).wellFormed = true := by
  obtain ⟨hpost, hdown, hbyte⟩ := fits_modeRows_of_isSDT h
  unfold decodeSingleDataTransfer
  split
  case h_1 hp => simp only [Instr.wellFormed, hpost, hp, Bool.not_false]
  case h_2 hp hu => simp only [Instr.wellFormed, hpost, hdown, hp, hu, Bool.not_false, Bool.not_true, Bool.and_self]
  case h_3 hp hu hb =>
    simp only [Instr.wellFormed, hpost, hdown, hbyte, hp, hu, hb, Bool.not_false, Bool.not_true, Bool.and_self]
  case h_4 => exact wellFormed_decodeTransfer w

/-- Settles O2: a constructor that carries a word is answered only for words that fit its row, and the decoder's order of
tests is that of the table where rows overlap. -/
theorem decodedInstructionsAreWellFormed : Obligations.DecodedInstructionsAreWellFormed := by
  intro w
  have hfits := row_fits_decodeWord w
  rcases word_cases w with h | h | ⟨h, hbx⟩ | h | h | h
  · rw [decodeWord_of_isBX h, Instr.wellFormed]
  · rw [decodeWord_of_isB h]
    exact wellFormed_decodeBranch w
  · rw [decodeWord_of_isDP h hbx] at hfits ⊢
    cases he : (decodeDataProcessing w).executes with
    | true => exact wellFormed_decodeDataProcessing_of_executes he
    | false =>
      obtain ⟨mk, hmk, hdec⟩ := decodeDataProcessing_of_refused he
      rw [hdec] at hfits ⊢
      exact wellFormed_of_mem_unsupportedOpcodes hmk hfits hbx
  · rw [decodeWord_of_isSDT h]
    exact wellFormed_decodeSingleDataTransfer h
  · rw [decodeWord_of_unrecognised100 h] at hfits ⊢
    exact hfits
  · rw [decodeWord_of_unrecognised11 h] at hfits ⊢
    exact hfits

/-! ### The first row that fits -/

/-- No word fits both rows: they disagree on a bit that both test. -/
def Row.apart (r q : Row) : Bool := r.value &&& q.mask != q.value &&& r.mask

theorem fits_eq_false_of_apart {r q : Row} {w : Word} (h : r.apart q = true) (hr : r.fits w = true) :
    q.fits w = false := by
  refine Bool.eq_false_iff.2 fun hq => ?_
  rw [fits_iff] at hr hq
  rw [Row.apart, bne_iff_ne, ← hr, ← hq, BitVec.and_assoc, BitVec.and_assoc, BitVec.and_comm r.mask] at h
  exact h rfl

/-- The rows before `r` in the table that share words with it. -/
def Row.earlierOverlaps (r : Row) : List Row := (opcodeTable.takeWhile (· != r)).filter fun q => !r.apart q

theorem find?_eq_some_of_takeWhile {r : Row} {p : Row → Bool} {rows : List Row} (hmem : r ∈ rows) (hr : p r = true)
    (hearlier : ∀ q ∈ rows.takeWhile (· != r), p q = false) : rows.find? p = some r := by
  induction rows with
  | nil => nomatch hmem
  | cons q rows ih =>
    by_cases hq : q = r
    · rw [hq, List.find?_cons_of_pos hr]
    · rw [List.takeWhile_cons_of_pos (by simpa using hq), List.forall_mem_cons] at hearlier
      obtain ⟨hpq, hrest⟩ := hearlier
      rw [List.find?_cons_of_neg (by simp [hpq])]
      exact ih ((List.mem_cons.1 hmem).resolve_left (Ne.symm hq)) hrest

theorem find?_opcodeTable {r : Row} {w : Word} (hmem : r ∈ opcodeTable) (hr : r.fits w = true)
    (hearlier : ∀ q ∈ r.earlierOverlaps, q.fits w = false) : opcodeTable.find? (fun q => q.fits w) = some r := by
  refine find?_eq_some_of_takeWhile hmem hr fun q hq => ?_
  cases hapart : r.apart q with
  | true => exact fits_eq_false_of_apart hapart hr
  | false => exact hearlier q (List.mem_filter.2 ⟨hq, by rw [hapart]; rfl⟩)

theorem row_mem_opcodeTable (i : Instr) : i.row ∈ opcodeTable := by
  cases i <;> simp only [Instr.row] <;> decide

/-- Three rows have earlier rows that share words with them (30_encoding.md R62, R66). -/
theorem earlierOverlaps_eq_nil : ∀ r ∈ opcodeTable,
    r ∉ [Row.dataProcessing false 0b1001#4, Row.downward, Row.byte] → r.earlierOverlaps = [] := by decide

/-- Where an earlier row shares words with an instruction's row, `Instr.wellFormed` rules those words out. -/
theorem not_fits_of_mem_earlierOverlaps {i : Instr} {w : Word} (h : i.wellFormed = true)
    (hw : i.executes = false → encodeWord i = w) : ∀ q ∈ i.row.earlierOverlaps, q.fits w = false := by
  have hmem := row_mem_opcodeTable i
  cases i
  case dp1001Reg iw =>
    have hrows : (Row.dataProcessing false 0b1001#4).earlierOverlaps = [Row.bx] := by decide
    obtain rfl : iw = w := hw rfl
    simp only [Instr.wellFormed, Bool.and_eq_true, Bool.not_eq_true', isBxWord] at h
    obtain ⟨-, hbx⟩ := h
    simpa [Instr.row, hrows] using hbx
  case sdtDownward iw =>
    have hrows : Row.downward.earlierOverlaps = [Row.postIndexed] := by decide
    obtain rfl : iw = w := hw rfl
    simp only [Instr.wellFormed, Bool.and_eq_true, Bool.not_eq_true'] at h
    obtain ⟨-, hpost⟩ := h
    simpa [Instr.row, hrows] using hpost
  case sdtByte iw =>
    have hrows : Row.byte.earlierOverlaps = [Row.postIndexed, Row.downward] := by decide
    obtain rfl : iw = w := hw rfl
    simp only [Instr.wellFormed, Bool.and_eq_true, Bool.not_eq_true'] at h
    obtain ⟨⟨-, hpost⟩, hdown⟩ := h
    simpa [Instr.row, hrows] using ⟨hpost, hdown⟩
  all_goals
    rw [earlierOverlaps_eq_nil _ hmem (by simp only [Instr.row]; decide)]
    exact List.forall_mem_nil _

/-- Settles O3: the row of the decoded instruction fits the word, and the earlier rows that could fit it too do not. -/
theorem decoderFollowsTheOpcodeTable : Obligations.DecoderFollowsTheOpcodeTable := by
  intro w
  exact find?_opcodeTable (row_mem_opcodeTable _) (row_fits_decodeWord w)
    (not_fits_of_mem_earlierOverlaps (decodedInstructionsAreWellFormed w) (refusedWordsKeepEveryBit w))

/-- Settles O7: the decoder evaluated on each listed word. -/
theorem listedWordsDecodeAsListed : Obligations.ListedWordsDecodeAsListed := by
  unfold Obligations.ListedWordsDecodeAsListed
  decide

end Sys2Proof
end

section
/-! Memory as data (spec/10_state.md R29, spec/20_memory.md R35, R47): the bytes of a word, a fetch after a store, and that
the canonical form is determined by what is mapped and what is read. -/

namespace Sys2Proof.Machine

/-! ### The bytes of a word -/

/-- Byte `k` of a word in memory lies at its address plus `k` (20_memory.md R35). -/
theorem Memory.byteAt_add_eq_byteOfWord (m : Memory) (a : Nat) {k : Nat} (hk : k < 4) :
    m.byteAt (a + k) = byteOfWord (m.wordAt a) k := by
  obtain ⟨h0, h1, h2, h3⟩ := byteOfWord_wordOfBytes (m.byteAt a) (m.byteAt (a + 1)) (m.byteAt (a + 2)) (m.byteAt (a + 3))
  rw [Memory.wordAt]
  match k, hk with
  | 0, _ => exact h0.symm
  | 1, _ => exact h1.symm
  | 2, _ => exact h2.symm
  | 3, _ => exact h3.symm

theorem State.byteAt_of_memRead {s : State} {a w : Word} (h : s.memRead a = some w) {k : Nat} (hk : k < 4) :
    s.mem.byteAt (a.toNat + k) = byteOfWord w k := by
  obtain ⟨-, rfl⟩ := (s.memRead_eq_some_iff a w).1 h
  exact s.mem.byteAt_add_eq_byteOfWord a.toNat hk

/-! ### A fetch after a store -/

/-- The fetch at the address of a store that completed reads the stored word (20_memory.md R47). -/
theorem fetch_setPc_store {s : State} {rd : Reg} {ea : Word} (hwf : s.mem.wf) (h : s.mem.accessible ea = true) :
    ((store s rd ea).setPc ea).fetch = some (s.reg rd) := by
  obtain ⟨-, hcells, -⟩ := hwf
  rw [State.fetch_eq_some_iff, State.pc_setPc, State.setPc_mem, store_mem_of_accessible rd h, Memory.accessible_putWord,
    Memory.wordAt_putWord_self hcells]
  exact ⟨h, rfl⟩

/-! ### Cells are determined by the bytes they give -/

section
variable {b c : Nat} {v w : Byte} {cells cells' : List Host.Cell}

theorem lookupCell_tail_head (h : cellsWf ((b, v) :: cells)) : lookupCell cells b = Config.unlistedByte :=
  lookupCell_of_forall_lt (List.pairwise_cons.1 h.1).1

/-- The first address of a list in canonical form is the least that does not read as an unlisted one. -/
theorem head_le_of_lookupCell_ne (h : cellsWf ((b, v) :: cells)) {a : Nat}
    (ha : lookupCell ((b, v) :: cells) a ≠ Config.unlistedByte) : b ≤ a := by
  obtain ⟨hlt, -⟩ := List.pairwise_cons.1 h.1
  by_contra hab
  refine ha (lookupCell_of_forall_lt (List.forall_mem_cons.2 ⟨not_le.1 hab, fun c hc => ?_⟩))
  exact lt_trans (not_le.1 hab) (hlt c hc)

theorem lookupCell_head (b : Nat) (v : Byte) (cells : List Host.Cell) : lookupCell ((b, v) :: cells) b = v := by
  rw [lookupCell, if_pos rfl]

theorem cellsWf_tail {d : Host.Cell} (h : cellsWf (d :: cells)) : cellsWf cells :=
  ⟨(List.pairwise_cons.1 h.1).2, (List.forall_mem_cons.1 h.2).2⟩

/-- Lists of cells in canonical form that read the same everywhere are the same list. -/
theorem cells_eq_of_lookupCell_eq (h : cellsWf cells) (h' : cellsWf cells')
    (heq : ∀ a, lookupCell cells a = lookupCell cells' a) : cells = cells' := by
  induction cells generalizing cells' with
  | nil =>
    cases cells' with
    | nil => rfl
    | cons d cells' =>
      have hd := heq d.1
      rw [lookupCell_head] at hd
      exact absurd hd.symm (h'.2 d List.mem_cons_self)
  | cons d cells ih =>
    obtain ⟨b, v⟩ := d
    have hv : v ≠ Config.unlistedByte := h.2 (b, v) List.mem_cons_self
    have hb := heq b
    rw [lookupCell_head] at hb
    cases cells' with
    | nil => exact absurd hb hv
    | cons d cells' =>
      obtain ⟨c, w⟩ := d
      have hw : w ≠ Config.unlistedByte := h'.2 (c, w) List.mem_cons_self
      have hc := heq c
      rw [lookupCell_head] at hc
      have hle : b ≤ c := head_le_of_lookupCell_ne h (hc ▸ hw)
      have hge : c ≤ b := head_le_of_lookupCell_ne h' (hb ▸ hv)
      obtain rfl : b = c := le_antisymm hle hge
      rw [lookupCell_head] at hc
      obtain rfl : v = w := hc
      refine congrArg _ (ih (cellsWf_tail h) (cellsWf_tail h') fun a => ?_)
      by_cases ha : a = b
      · rw [ha, lookupCell_tail_head h, lookupCell_tail_head h']
      · simpa [lookupCell, ha] using heq a

end

/-! ### Ranges are determined by the addresses they cover -/

section
variable {r q : Region} {rs qs : List Region}

theorem mappedWf_tail (h : mappedWf (r :: rs)) : mappedWf rs :=
  ⟨(List.pairwise_cons.1 h.1).2, (List.forall_mem_cons.1 h.2).2⟩

/-- Every address of the later ranges lies above the top of the first, and the top itself is not mapped. -/
theorem top_lt_of_covered_tail (h : mappedWf (r :: rs)) {a : Nat} (ha : covered rs a = true) : r.top < a := by
  obtain ⟨hlt, -⟩ := List.pairwise_cons.1 h.1
  obtain ⟨q, hq, hqa, -⟩ := (covered_iff rs a).1 ha
  exact lt_of_lt_of_le (hlt q hq) hqa

theorem base_lt_top (h : mappedWf (r :: rs)) : r.base < r.top := by
  obtain ⟨-, hwords, -⟩ := h.2 r List.mem_cons_self
  rw [Region.top]
  omega

theorem covered_head_base (h : mappedWf (r :: rs)) : covered (r :: rs) r.base = true :=
  (covered_iff _ _).2 ⟨r, List.mem_cons_self, le_refl _, base_lt_top h⟩

/-- The first base of a map in canonical form is the least mapped address. -/
theorem base_le_of_covered (h : mappedWf (r :: rs)) {a : Nat} (ha : covered (r :: rs) a = true) : r.base ≤ a := by
  rw [covered_cons, Bool.or_eq_true, inRegion_iff] at ha
  rcases ha with ⟨hbase, -⟩ | ha
  · exact hbase
  · exact le_of_lt ((base_lt_top h).trans (top_lt_of_covered_tail h ha))

/-- The first top of a map in canonical form is the least address above the first base that is not mapped. -/
theorem top_le_of_not_covered {a : Nat} (hbase : r.base ≤ a) (ha : covered (r :: rs) a = false) : r.top ≤ a := by
  by_contra hlt
  exact Bool.eq_false_iff.1 ha ((covered_iff _ _).2 ⟨r, List.mem_cons_self, hbase, not_le.1 hlt⟩)

theorem not_covered_top (h : mappedWf (r :: rs)) : covered (r :: rs) r.top = false := by
  refine Bool.eq_false_iff.2 fun hc => ?_
  rw [covered_cons, Bool.or_eq_true, inRegion_iff] at hc
  rcases hc with ⟨-, htop⟩ | hc
  · exact lt_irrefl _ htop
  · exact lt_irrefl _ (top_lt_of_covered_tail h hc)

/-- The later ranges cover what the whole map covers from the first top up. -/
theorem covered_tail (h : mappedWf (r :: rs)) (a : Nat) :
    covered rs a = (covered (r :: rs) a && decide (r.top ≤ a)) := by
  rw [covered_cons, Bool.eq_iff_iff, Bool.and_eq_true, Bool.or_eq_true, inRegion_iff, decide_eq_true_eq]
  constructor
  · exact fun ha => ⟨.inr ha, le_of_lt (top_lt_of_covered_tail h ha)⟩
  · rintro ⟨⟨-, hlt⟩ | ha, hle⟩
    · exact absurd hlt (not_lt.2 hle)
    · exact ha

theorem Region.eq_of_base_top (hbase : r.base = q.base) (htop : r.top = q.top) : r = q := by
  cases r
  cases q
  simp only [Region.top, Region.mk.injEq] at *
  omega

/-- Maps in canonical form that cover the same addresses are the same list of ranges. -/
theorem regions_eq_of_covered_eq (h : mappedWf rs) (h' : mappedWf qs) (heq : ∀ a, covered rs a = covered qs a) :
    rs = qs := by
  induction rs generalizing qs with
  | nil =>
    cases qs with
    | nil => rfl
    | cons q qs => exact absurd ((heq q.base).trans (covered_head_base h')) Bool.false_ne_true
  | cons r rs ih =>
    cases qs with
    | nil => exact absurd ((heq r.base).symm.trans (covered_head_base h)) Bool.false_ne_true
    | cons q qs =>
      have hbase : r.base = q.base := le_antisymm
        (base_le_of_covered h ((heq _).trans (covered_head_base h')))
        (base_le_of_covered h' ((heq _).symm.trans (covered_head_base h)))
      have htop : r.top = q.top := le_antisymm
        (top_le_of_not_covered (hbase.trans_le (base_lt_top h').le) ((heq _).trans (not_covered_top h')))
        (top_le_of_not_covered (hbase.symm.trans_le (base_lt_top h).le) ((heq _).symm.trans (not_covered_top h)))
      obtain rfl := Region.eq_of_base_top hbase htop
      refine congrArg _ (ih (mappedWf_tail h) (mappedWf_tail h') fun a => ?_)
      rw [covered_tail h, covered_tail h', heq]

end

/-- Memories in canonical form with the same map and the same bytes are the same data. -/
theorem Memory.eq_of_covered_eq_of_byteAt_eq {m n : Memory} (hm : m.wf) (hn : n.wf)
    (hmap : ∀ a, covered m.mapped a = covered n.mapped a) (hbytes : ∀ a, m.byteAt a = n.byteAt a) : m = n := by
  obtain ⟨hmapped, hcells, -⟩ := hm
  obtain ⟨hmapped', hcells', -⟩ := hn
  cases m
  cases n
  rw [Memory.mk.injEq]
  exact ⟨regions_eq_of_covered_eq hmapped hmapped' hmap, cells_eq_of_lookupCell_eq hcells hcells' hbytes⟩

end Sys2Proof.Machine

namespace Sys2Proof

open Sys2Proof.Machine

/-- Settles O31: a word in memory is its four bytes, the lowest first, so what a write puts there is what reads take apart. -/
theorem wordsAreLittleEndian : Obligations.WordsAreLittleEndian := by
  refine fun m a k v hwf hk => ⟨?_, m.byteAt_add_eq_byteOfWord a hk, fun s addr w h => State.byteAt_of_memRead h hk,
    fun s w h => State.byteAt_of_memRead h hk⟩
  obtain ⟨-, hcells, -⟩ := hwf
  rw [Memory.byteAt_add_eq_byteOfWord _ a hk, Memory.wordAt_putWord_self hcells, byteOfWord]

/-- Settles O32: both forms are the store to the effective address, and the fetch there is a read of the stored word. -/
theorem aStoreIsSeenByTheNextFetch : Obligations.AStoreIsSeenByTheNextFetch := by
  intro s t ea hwf halign hmap
  have hacc := (s.mem.accessible_iff ea).2 ⟨halign, hmap⟩
  constructor
  · rintro rd rn imm8 rfl h
    obtain rfl := Host.Outcome.next.inj ((exec_strImm rd rn imm8 s).symm.trans h)
    exact fetch_setPc_store hwf hacc
  · rintro rd rn rm shamt rfl h
    obtain rfl := Host.Outcome.next.inj ((exec_strReg rd rn rm shamt s).symm.trans h)
    exact fetch_setPc_store hwf hacc

/-- Settles O33: by induction along both sorted lists, of ranges and of bytes: the heads are the least that the map or the
bytes tell apart from nothing. -/
theorem equalMemoriesAreEqualData : Obligations.EqualMemoriesAreEqualData :=
  fun _ _ hm hn hmap hbytes => Memory.eq_of_covered_eq_of_byteAt_eq hm hn hmap hbytes

end Sys2Proof
end

section
/-! What an instruction changes and what it reads (spec/10_state.md R21, spec/20_memory.md R43, spec/42_data_processing.md
R98). The 65 rows are seven operations whose operands are functions of the registers; what holds of each operation, with the
flag word or the memory before it replaced by another, holds of each row. -/

namespace Sys2Proof.Machine

/-! ### The shared operations and the flag word -/

@[simp] theorem branch_flags (cond : BitVec 4) (link : Bool) (imm24 : BitVec 24) (s : State) :
    (branch cond link imm24 s).flags = s.flags := by
  rcases branch_cases cond link imm24 s with ⟨-, h⟩ | ⟨_, hcond, -⟩
  · rw [h, State.raise_flags]
  · exact flags_branch_of_condHolds hcond link imm24

@[simp] theorem load_flags (s : State) (rd : Reg) (ea : Word) : (load s rd ea).flags = s.flags := by
  rcases load_cases s rd ea with ⟨-, h⟩ | ⟨-, h⟩ <;> simp [h]

@[simp] theorem store_flags (s : State) (rd : Reg) (ea : Word) : (store s rd ea).flags = s.flags := by
  rcases store_cases s rd ea with ⟨-, h⟩ | ⟨-, h⟩ <;> simp [h]

section
variable (s : State) (rd : Reg) (v f ea : Word)

theorem State.advanceUnlessPc_setFlags : (s.setFlags f).advanceUnlessPc rd = (s.advanceUnlessPc rd).setFlags f := by
  unfold State.advanceUnlessPc
  split <;> rfl

theorem State.writeResult_setFlags : (s.setFlags f).writeResult rd v = (s.writeResult rd v).setFlags f :=
  State.advanceUnlessPc_setFlags (s.setReg rd v) rd f

theorem load_setFlags : load (s.setFlags f) rd ea = (load s rd ea).setFlags f := by
  rcases load_cases s rd ea with ⟨hacc, h⟩ | ⟨hacc, h⟩ <;> rw [h]
  · exact load_of_not_accessible rd hacc
  · rw [← State.writeResult_setFlags]
    exact load_of_accessible rd hacc

theorem store_setFlags : store (s.setFlags f) rd ea = (store s rd ea).setFlags f := by
  rcases store_cases s rd ea with ⟨hacc, h⟩ | ⟨hacc, h⟩ <;> rw [h]
  · exact store_of_not_accessible rd hacc
  · rw [← State.advanceUnlessPc_setFlags]
    exact store_of_accessible rd hacc

end

/-- No condition reads C (10_state.md R21). -/
theorem condHolds_xor_carry (cond : BitVec 4) (f : Word) : condHolds cond (f ^^^ 0x2#32) = condHolds cond f := by
  have hz : flagZ (f ^^^ 0x2#32) = flagZ f := by simp [flagZ]
  have hn : flagN (f ^^^ 0x2#32) = flagN f := by simp [flagN]
  have hv : flagV (f ^^^ 0x2#32) = flagV f := by simp [flagV]
  unfold condHolds
  rw [hz, hn, hv]

/-! ### The shared operations and the memory -/

section
variable (s : State) (rd : Reg) (m : Memory)

theorem State.advanceUnlessPc_withMemory :
    State.advanceUnlessPc { s with mem := m } rd = { s.advanceUnlessPc rd with mem := m } := by
  unfold State.advanceUnlessPc
  split <;> rfl

theorem branch_withMemory (cond : BitVec 4) (link : Bool) (imm24 : BitVec 24) :
    branch cond link imm24 { s with mem := m } = { branch cond link imm24 s with mem := m } := by
  unfold branch
  cases condHolds cond s.flags <;> cases link <;> rfl

end

/-! ### The seven operations -/

/-- What a row does, with each operand and address as a function of the registers at the start of the step
(45_sequencer.md R146). -/
inductive Operation where
  | fault (k : FaultKind) (info : Word)
  | jump (target : Vector Word 16 → Word)
  | result (rd : Reg) (value : Vector Word 16 → Word)
  | compare (rd : Reg) (op1 op2 : Vector Word 16 → Word)
  | branch (cond : BitVec 4) (link : Bool) (imm24 : BitVec 24)
  | load (rd : Reg) (ea : Vector Word 16 → Word)
  | store (rd : Reg) (ea : Vector Word 16 → Word)

namespace Operation

/-- The effect of an operation: the shared operations of the model. -/
def run : Operation → State → State
  | fault k info, s => s.raise k info
  | jump target, s => s.setPc (target s.regs)
  | result rd value, s => s.writeResult rd (value s.regs)
  | compare rd op1 op2, s => Machine.compare s rd (op1 s.regs) (op2 s.regs)
  | branch cond link imm24, s => Machine.branch cond link imm24 s
  | load rd ea, s => Machine.load s rd (ea s.regs)
  | store rd ea, s => Machine.store s rd (ea s.regs)

def isCompare : Operation → Bool
  | compare .. => true
  | _ => false

def isBranch : Operation → Bool
  | branch .. => true
  | _ => false

def isStore : Operation → Bool
  | store .. => true
  | _ => false

def accessesMemory : Operation → Bool
  | load .. => true
  | store .. => true
  | _ => false

/-- An instruction executes as an operation of its own group. -/
structure Models (o : Operation) (i : Instr) : Prop where
  exec_eq (s : State) : exec i s = .next (o.run s)
  isCompare_eq : i.isCompare = o.isCompare
  isBranch_eq : i.isBranch = o.isBranch
  isStore_eq : i.isStore = o.isStore
  accessesMemory_eq : i.accessesMemory = o.accessesMemory

/-- Every row is one of the seven operations. -/
theorem exists_models (i : Instr) : ∃ o : Operation, o.Models i := by
  cases i
  case bx rm => exact ⟨.jump fun x => x[rm.val], fun _ => rfl, rfl, rfl, rfl, rfl⟩
  case addImm rd rn imm8 => exact ⟨.result rd fun x => x[rn.val] + immOperand imm8, fun _ => rfl, rfl, rfl, rfl, rfl⟩
  case addReg rd rn rm => exact ⟨.result rd fun x => x[rn.val] + x[rm.val], fun _ => rfl, rfl, rfl, rfl, rfl⟩
  case subImm rd rn imm8 => exact ⟨.result rd fun x => x[rn.val] - immOperand imm8, fun _ => rfl, rfl, rfl, rfl, rfl⟩
  case subReg rd rn rm => exact ⟨.result rd fun x => x[rn.val] - x[rm.val], fun _ => rfl, rfl, rfl, rfl, rfl⟩
  case movImm rd imm8 => exact ⟨.result rd fun _ => immOperand imm8, fun _ => rfl, rfl, rfl, rfl, rfl⟩
  case movReg rd rm => exact ⟨.result rd fun x => x[rm.val], fun _ => rfl, rfl, rfl, rfl, rfl⟩
  case cmpImm rd rn imm8 =>
    exact ⟨.compare rd (fun x => x[rn.val]) fun _ => immOperand imm8, fun _ => rfl, rfl, rfl, rfl, rfl⟩
  case cmpReg rd rn rm => exact ⟨.compare rd (fun x => x[rn.val]) fun x => x[rm.val], fun _ => rfl, rfl, rfl, rfl, rfl⟩
  case ldrImm rd rn imm8 => exact ⟨.load rd fun x => x[rn.val] + immOperand imm8, fun _ => rfl, rfl, rfl, rfl, rfl⟩
  case ldrReg rd rn rm shamt =>
    exact ⟨.load rd fun x => x[rn.val] + (x[rm.val] <<< shamt.toNat), fun _ => rfl, rfl, rfl, rfl, rfl⟩
  case strImm rd rn imm8 => exact ⟨.store rd fun x => x[rn.val] + immOperand imm8, fun _ => rfl, rfl, rfl, rfl, rfl⟩
  case strReg rd rn rm shamt =>
    exact ⟨.store rd fun x => x[rn.val] + (x[rm.val] <<< shamt.toNat), fun _ => rfl, rfl, rfl, rfl, rfl⟩
  case beq | bne | bge | blt | bgt | ble | b | bleq | blne | blge | bllt | blgt | blle | bl | condUndef0010 |
      condUndef0011 | condUndef0100 | condUndef0101 | condUndef0110 | condUndef0111 | condUndef1000 | condUndef1001 |
      condUndef1111 =>
    exact ⟨.branch _ _ _, fun s => show exec _ s = .next (Machine.branch _ _ _ s) from rfl, rfl, rfl, rfl, rfl⟩
  -- the refused rows
  all_goals exact ⟨.fault _ _, fun _ => rfl, rfl, rfl, rfl, rfl⟩

/-! ### What an operation leaves unchanged -/

section
variable (o : Operation) (s : State)

/-- Only a comparison changes the flag word, to the flags of its operands (42_data_processing.md R98). -/
theorem run_flags : (o.run s).flags = s.flags ∨ (o.isCompare = true ∧ ∃ a b, (o.run s).flags = flagGen a b) := by
  cases o with
  | fault k info => exact .inl rfl
  | jump target => exact .inl (State.setPc_flags s _)
  | result rd value => exact .inl (State.writeResult_flags s rd _)
  | compare rd op1 op2 => exact .inr ⟨rfl, _, _, compare_flags s rd _ _⟩
  | branch cond link imm24 => exact .inl (branch_flags cond link imm24 s)
  | load rd ea => exact .inl (load_flags s rd _)
  | store rd ea => exact .inl (store_flags s rd _)

/-- Only a store changes memory (20_memory.md R43). -/
theorem run_mem (h : o.isStore = false) : (o.run s).mem = s.mem := by
  cases o with
  | fault k info => exact State.raise_mem ..
  | jump target => exact State.setPc_mem s _
  | result rd value => exact State.writeResult_mem s rd _
  | compare rd op1 op2 => exact compare_mem s rd _ _
  | branch cond link imm24 => exact branch_mem cond link imm24 s
  | load rd ea => exact load_mem s rd _
  | store rd ea => nomatch h

end

/-! ### Another flag word or another memory before an operation -/

section
variable (o : Operation) (s : State) (f : Word) (m : Memory)

/-- Only a branch reads the flag word (10_state.md R21): any other operation keeps the one it finds, or overwrites it. -/
theorem run_setFlags (h : o.isBranch = false) :
    o.run (s.setFlags f) = if o.isCompare then o.run s else (o.run s).setFlags f := by
  cases o with
  | fault k info => rfl
  | jump target => rfl
  | result rd value => exact State.writeResult_setFlags s rd _ f
  | compare rd op1 op2 => rfl
  | branch cond link imm24 => nomatch h
  | load rd ea => exact load_setFlags s rd f _
  | store rd ea => exact store_setFlags s rd f _

/-- Only loads and stores read or write memory (20_memory.md R43). -/
theorem run_withMemory (h : o.accessesMemory = false) : o.run { s with mem := m } = { o.run s with mem := m } := by
  cases o with
  | fault k info => rfl
  | jump target => rfl
  | result rd value => exact State.advanceUnlessPc_withMemory (s.setReg rd _) rd m
  | compare rd op1 op2 => exact State.advanceUnlessPc_withMemory (s.setFlags _) rd m
  | branch cond link imm24 => exact branch_withMemory s m cond link imm24
  | load rd ea => nomatch h
  | store rd ea => nomatch h

end

end Operation

end Sys2Proof.Machine

namespace Sys2Proof

open Sys2Proof.Machine

/-- Settles O18: of the seven operations only the comparison changes the flag word. -/
theorem onlyCmpChangesTheFlags : Obligations.OnlyCmpChangesTheFlags := by
  intro i s t h hne
  obtain ⟨o, ho⟩ := Operation.exists_models i
  obtain rfl := Host.Outcome.next.inj ((ho.exec_eq s).symm.trans h)
  rcases o.run_flags s with hsame | ⟨hcmp, -⟩
  · exact absurd hsame hne
  · exact ho.isCompare_eq.trans hcmp

/-- Settles O19: of the seven operations only the branch reads the flag word, and `condHolds` reads Z, N and V of it. -/
theorem onlyBranchesReadTheFlags : Obligations.OnlyBranchesReadTheFlags := by
  refine ⟨fun i s t f hi h => ?_, condHolds_xor_carry⟩
  obtain ⟨o, ho⟩ := Operation.exists_models i
  obtain rfl := Host.Outcome.next.inj ((ho.exec_eq s).symm.trans h)
  rw [ho.exec_eq, ho.isCompare_eq, o.run_setFlags s f (ho.isBranch_eq.symm.trans hi)]

/-- Settles O34: of the seven operations only the store changes memory, and it keeps the map. -/
theorem onlyStrChangesMemory : Obligations.OnlyStrChangesMemory := by
  refine ⟨fun i s t h hi => ?_, fun s t h => step_keeps_mapped h⟩
  obtain ⟨o, ho⟩ := Operation.exists_models i
  obtain rfl := Host.Outcome.next.inj ((ho.exec_eq s).symm.trans h)
  exact o.run_mem s (ho.isStore_eq.symm.trans hi)

/-- Settles O35: of the seven operations only the load and the store read or write memory. -/
theorem otherInstructionsIgnoreMemory : Obligations.OtherInstructionsIgnoreMemory := by
  intro i s t m hi h
  obtain ⟨o, ho⟩ := Operation.exists_models i
  obtain rfl := Host.Outcome.next.inj ((ho.exec_eq s).symm.trans h)
  rw [ho.exec_eq, o.run_withMemory s m (ho.accessesMemory_eq.symm.trans hi)]

end Sys2Proof
end

section
/-! The flag words that CMP produces (spec/42_data_processing.md R93 to R97). -/

namespace Sys2Proof.Machine

/-- A packed flag word is a number of four bits (R93). -/
theorem packFlags_toNat_lt (z n c v : Bool) : (packFlags z n c v).toNat < 16 := by revert z n c v; decide

theorem flagGen_toNat_lt (a b : Word) : (flagGen a b).toNat < 16 := packFlags_toNat_lt _ _ _ _

/-- With signed overflow the borrow is the sign of the result: both are the sign of `op2` (R95 to R97). -/
theorem carryFlag_of_overflowFlag {a b result : Word} (h : overflowFlag a b result = true) :
    carryFlag a b = negativeFlag result := by
  rw [overflowFlag, Bool.and_eq_true, bne_iff_ne, beq_iff_eq] at h
  obtain ⟨hsigns, hresult⟩ := h
  rw [carryFlag, negativeFlag, hresult]
  rw [BitVec.msb_eq_decide, BitVec.msb_eq_decide, Ne, decide_eq_decide] at hsigns
  rw [BitVec.msb_eq_decide, decide_eq_decide]
  omega

/-- The seven flag words of the table of R97. -/
def cmpFlagWords : List Word := [0x0#32, 0x1#32, 0x2#32, 0x4#32, 0x6#32, 0x7#32, 0x8#32]

/-- Without Z the four combinations of N, C and V in which V comes with N = C, or is absent, are words of the table. -/
theorem packFlags_mem_cmpFlagWords : ∀ n c v : Bool, (v = true → c = n) → packFlags false n c v ∈ cmpFlagWords := by decide

theorem flagGen_mem_cmpFlagWords (a b : Word) : flagGen a b ∈ cmpFlagWords := by
  by_cases hab : a = b
  · rw [hab, flagGen_self]
    decide
  · have hz : zeroFlag (a - b) = false := by
      rw [zeroFlag, beq_eq_false_iff_ne]
      exact fun h => hab (sub_eq_zero.1 h)
    rw [flagGen, hz]
    exact packFlags_mem_cmpFlagWords _ _ _ carryFlag_of_overflowFlag

/-- Operands for each of the seven words, in the order of the list. -/
def cmpFlagWitnesses : List (Word × Word) :=
  [(1#32, 0#32), (0x80000000#32, 1#32), (0#32, 0xFFFFFFFF#32), (0x80000000#32, 0#32), (0#32, 1#32),
    (0#32, 0x80000000#32), (0#32, 0#32)]

theorem map_flagGen_cmpFlagWitnesses : (cmpFlagWitnesses.map fun p => flagGen p.1 p.2) = cmpFlagWords := by decide

end Sys2Proof.Machine

namespace Sys2Proof

open Sys2Proof.Machine

/-- Settles O16: Z stands alone, and V comes only with N = C, which leaves the seven words; each has operands. -/
theorem cmpProducesExactlySevenFlagWords : Obligations.CmpProducesExactlySevenFlagWords := by
  refine fun f => ⟨?_, fun hf => ?_⟩
  · rintro ⟨a, b, rfl⟩
    exact flagGen_mem_cmpFlagWords a b
  · change f ∈ cmpFlagWords at hf
    rw [← map_flagGen_cmpFlagWitnesses, List.mem_map] at hf
    obtain ⟨⟨a, b⟩, -, h⟩ := hf
    exact ⟨a, b, h⟩

end Sys2Proof
end

section
/-! The invariant of the state (spec/10_state.md R22, R29, spec/45_sequencer.md R142, R154, spec/60_exceptions.md R161 to
R163): Initialize establishes it and every step keeps it. -/

namespace Sys2Proof.Machine

/-! ### What an instruction keeps -/

theorem store_mem_wf {s : State} (hwf : s.mem.wf) (rd : Reg) (ea : Word) : (store s rd ea).mem.wf := by
  rcases store_cases s rd ea with ⟨-, h⟩ | ⟨hacc, -⟩
  · rwa [h, State.raise_mem]
  · rw [store_mem_of_accessible rd hacc]
    exact Memory.putWord_wf hwf hacc (s.reg rd)

theorem Operation.run_mem_wf (o : Operation) {s : State} (hwf : s.mem.wf) : (o.run s).mem.wf := by
  cases hstore : o.isStore with
  | false => rwa [o.run_mem s hstore]
  | true =>
    cases o
    case store rd ea => exact store_mem_wf hwf rd _
    all_goals nomatch hstore

theorem Operation.run_flags_lt (o : Operation) {s : State} (hflags : s.flags.toNat < 16) : (o.run s).flags.toNat < 16 := by
  rcases o.run_flags s with h | ⟨-, a, b, h⟩ <;> rw [h]
  · exact hflags
  · exact flagGen_toNat_lt a b

/-- Every instruction keeps memory in canonical form and bits 31:4 of the flags 0. -/
theorem exec_keeps_memory_and_flags {i : Instr} {s t : State} (h : exec i s = .next t) (hwf : s.mem.wf)
    (hflags : s.flags.toNat < 16) : t.mem.wf ∧ t.flags.toNat < 16 := by
  obtain ⟨o, ho⟩ := Operation.exists_models i
  obtain rfl := Host.Outcome.next.inj ((ho.exec_eq s).symm.trans h)
  exact ⟨o.run_mem_wf hwf, o.run_flags_lt hflags⟩

end Sys2Proof.Machine

namespace Sys2Proof

open Sys2Proof.Machine

/-! ### The ends of a step -/

section
variable {s : State}

/-- A running core that meets the invariant is not at address 0 (45_sequencer.md R154). -/
theorem StateInv.pc_ne_zero (h : StateInv s) (hr : s.runState = .running) : s.pc ≠ 0#32 := fun hpc =>
  nomatch hr.symm.trans (h.halted.2 hpc)

/-- Outside Faulted there is no fault record. -/
theorem StateInv.no_record (h : StateInv s) (hr : s.runState = .running) :
    s.faultCode = none ∧ s.faultPc = 0#32 ∧ s.faultInfo = 0#32 := by
  have hrecord := h.record
  rwa [FaultRecordOk, if_neg (by rw [hr]; decide)] at hrecord

/-- A fault of a running core keeps the invariant: the recorded program counter is the one in `x[15]`, and it is not 0. -/
theorem StateInv.raise (h : StateInv s) (hr : s.runState = .running) (k : FaultKind) (info : Word) :
    StateInv (s.raise k info) where
  memory := h.memory
  flags := h.flags
  halted := ⟨fun hhalted => (nomatch hhalted), fun hpc => absurd hpc (h.pc_ne_zero hr)⟩
  record := by
    rw [FaultRecordOk, State.raise_runState, if_pos rfl]
    exact ⟨Option.some_ne_none k, rfl⟩

/-- The halt test of a running core makes it Halted exactly at program counter 0. -/
theorem stateInv_haltTest (hr : s.runState = .running) (hmem : s.mem.wf) (hflags : s.flags.toNat < 16)
    (hrecord : s.faultCode = none ∧ s.faultPc = 0#32 ∧ s.faultInfo = 0#32) : StateInv s.haltTest := by
  have hends := State.haltTest_of_running hr
  refine ⟨by rwa [State.haltTest_mem], by rwa [State.haltTest_flags], ?halted, ?record⟩
  case halted =>
    rcases hends with ⟨hrun, hpc⟩ | ⟨hrun, hpc⟩ <;> rw [hrun]
    · exact iff_of_true rfl hpc
    · exact iff_of_false nofun hpc
  case record =>
    have hnot : s.haltTest.runState ≠ .faulted := by rcases hends with ⟨hrun, -⟩ | ⟨hrun, -⟩ <;> simp [hrun]
    rwa [FaultRecordOk, if_neg hnot, State.haltTest_faultCode, State.haltTest_faultPc, State.haltTest_faultInfo]

/-- An executed instruction, with the halt test after it, keeps the invariant: it faulted, or it left the record alone. -/
theorem StateInv.exec {i : Instr} {t : State} (h : StateInv s) (hr : s.runState = .running)
    (he : Machine.exec i s = .next t) : StateInv t.haltTest := by
  rcases raisesOrKeepsControl_of_exec he with ⟨k, info, rfl⟩ | ⟨hrun, hcode, hpc, hinfo⟩
  · rw [State.haltTest_raise]
    exact h.raise hr k info
  · obtain ⟨hmem, hflags⟩ := exec_keeps_memory_and_flags he h.memory h.flags
    refine stateInv_haltTest (hrun.trans hr) hmem hflags ?_
    rw [hcode, hpc, hinfo]
    exact h.no_record hr

end

/-- Every step keeps the invariant. -/
theorem StateInv.step {s t : State} (h : StateInv s) (hs : Machine.step s = .next t) : StateInv t := by
  rcases step_cases s with ⟨-, hs'⟩ | ⟨hr, -, hs'⟩ | ⟨_, u, hr, -, he, hs'⟩ <;>
    obtain rfl := Host.Outcome.next.inj (hs'.symm.trans hs)
  · exact h
  · exact h.raise hr _ _
  · exact h.exec hr he

/-- Settles O52: a step does nothing, raises a fault, or executes an instruction and makes the halt test. -/
theorem everyStepKeepsTheInvariant : Obligations.EveryStepKeepsTheInvariant := fun _ _ h hs => h.step hs

/-- Settles O51: Initialize zeroes a range of a canonical memory, the flags and the record, and is Halted for entry 0. -/
theorem initializeEstablishesTheInvariant : Obligations.InitializeEstablishesTheInvariant := by
  intro s p entry a0 a1 a2 a3 hwf
  have hrun := State.initialize_runState s p entry a0 a1 a2 a3
  refine ⟨Memory.zeroRange_wf hwf _ _, by rw [State.initialize_flags]; decide, ?halted, ?record⟩
  case halted =>
    rw [pc_initialize, hrun]
    by_cases h : entry = 0#32 <;> simp [h]
  case record =>
    have hnot : (s.initialize p entry a0 a1 a2 a3).runState ≠ .faulted := by
      rw [hrun]
      split <;> decide
    rw [FaultRecordOk, if_neg hnot]
    exact ⟨rfl, rfl, rfl⟩

/-- Settles O49: the memory of the reset state lists no byte, so zeroing the stack buffer leaves it, and every other
component is a value of Initialize. -/
theorem resetIsInitializeOfTheChosenParameters : Obligations.ResetIsInitializeOfTheChosenParameters := by
  intro s h
  refine State.ext_reg (fun r => ?_) rfl rfl rfl rfl rfl ?_
  · rw [State.reg_initialize]
    revert r
    decide
  · rw [State.initialize_mem, h]
    rfl

/-- Settles O50: the reset state is Initialize of a state with the initial image, which is canonical. -/
theorem resetMeetsTheInvariant : Obligations.ResetMeetsTheInvariant := by
  have h := initializeEstablishesTheInvariant State.reset Config.params Config.entry Config.arg0 Config.arg1 Config.arg2
    Config.arg3 Memory.reset_wf
  rwa [resetIsInitializeOfTheChosenParameters State.reset rfl] at h

/-- Settles O48: the zeroed memories are canonical, with the same map and the same bytes, so they are the same data; every
other component is a value of Initialize. -/
theorem initializeForgetsThePreviousRun : Obligations.InitializeForgetsThePreviousRun := by
  intro s u p entry a0 a1 a2 a3 hs hu hmap hbytes
  refine State.ext_reg (fun r => by rw [State.reg_initialize, State.reg_initialize]) rfl rfl rfl rfl rfl ?_
  refine Memory.eq_of_covered_eq_of_byteAt_eq (Memory.zeroRange_wf hs _ _) (Memory.zeroRange_wf hu _ _)
    (fun a => ?map) fun a => ?bytes
  case map => rw [State.initialize_mapped, State.initialize_mapped, hmap]
  case bytes =>
    rw [byteAt_initialize, byteAt_initialize]
    split
    · rfl
    · next hout => exact hbytes a hout

end Sys2Proof
end

section
/-! The step and the host's view (spec/45_sequencer.md R144 to R150, spec/70_reset_and_hazards.md R200): the fetched word, the
word placed by the loader, the single-instruction livelocks, and a run that ended. -/

namespace Sys2Proof.Machine

/-! ### The fetched word -/

theorem fetch_eq_wordAt {s : State} (halign : s.pc.toNat % 4 = 0) (hmap : s.mem.isMapped s.pc = true) :
    s.fetch = some (s.mem.wordAt s.pc.toNat) :=
  (s.fetch_eq_some_iff _).2 ⟨(s.mem.accessible_iff s.pc).2 ⟨halign, hmap⟩, rfl⟩

section
variable {s : State} (w : Nat)

/-- The memory with a word placed at an aligned program counter: the word there is mapped and written. -/
theorem withFetchWord_of_aligned (halign : s.pc.toNat % 4 = 0) : s.withFetchWord 32 w =
    { s with mem := (s.mem.mapWord s.pc.toNat).putWord s.pc.toNat (BitVec.ofNat 32 w) } := by
  have hword : BitVec.ofNat 32 (w % 2 ^ 32) = BitVec.ofNat 32 w := BitVec.eq_of_toNat_eq (by simp)
  rw [State.withFetchWord, if_pos ((isAligned_iff s.pc).2 halign), hword]

theorem withFetchWord_mem_wf (hwf : s.mem.wf) (halign : s.pc.toNat % 4 = 0) : (s.withFetchWord 32 w).mem.wf := by
  rw [withFetchWord_of_aligned w halign]
  exact Memory.putWord_wf (Memory.mapWord_wf hwf halign) (Memory.accessible_mapWord hwf halign) _

theorem fetch_withFetchWord (hwf : s.mem.wf) (halign : s.pc.toNat % 4 = 0) :
    (s.withFetchWord 32 w).fetch = some (BitVec.ofNat 32 w) := by
  obtain ⟨-, hcells, -⟩ := Memory.mapWord_wf hwf halign
  rw [withFetchWord_of_aligned w halign, State.fetch_eq_some_iff]
  exact ⟨Memory.accessible_mapWord hwf halign, Memory.wordAt_putWord_self hcells _ _⟩

theorem withFetchWord_runState : (s.withFetchWord 32 w).runState = s.runState := by
  unfold State.withFetchWord
  split <;> rfl

end

/-- A step of a running core whose fetch succeeds is the execution of the decoded word and the halt test (R144, R146). -/
theorem step_of_fetch {s : State} {iw : Word} (hr : s.runState = .running) (hf : s.fetch = some iw) :
    step s = completeStep (exec (decodeWord iw) s) := by
  rw [step, hr]
  simp only [hf]

/-! ### Run -/

/-- Run in two parts. -/
theorem run_add (n k : Nat) (s : State) : State.run (n + k) s = State.run k (State.run n s) := by
  induction n generalizing s with
  | zero => rw [Nat.zero_add, State.run]
  | succ n ih =>
    rw [Nat.succ_add, State.run, State.run]
    split
    · exact ih s.afterStep
    · next hr => exact (State.run_of_not_running hr k).symm

theorem report_of_not_running {s : State} (hr : s.runState ≠ .running) : s.report =
    if s.runState = .halted then .result (s.reg 0) else .failure (faultNumber s.faultCode) s.faultPc s.faultInfo := by
  rw [State.report]
  cases h : s.runState
  case running => exact absurd h hr
  all_goals rfl

/-! ### Livelocks -/

section
variable {s t : State}

/-- The halt test does nothing where the program counter is not 0. -/
theorem haltTest_of_pc_ne_zero (h : s.pc ≠ 0#32) : s.haltTest = s := by
  rw [State.haltTest, if_neg fun hn => h hn.2]

/-- A step whose instruction keeps a program counter that is not 0 ends in the state that the instruction leaves. -/
theorem step_of_exec_of_pc_eq {iw : Word} (hr : s.runState = .running) (hpc : s.pc ≠ 0#32) (hf : s.fetch = some iw)
    (he : exec (decodeWord iw) s = .next t) (ht : t.pc = s.pc) : step s = .next t := by
  rw [step_of_exec hr hf he, haltTest_of_pc_ne_zero (ht ▸ hpc)]

/-- An instruction that is fetched again and then changes nothing is a livelock: one step reaches a state that the next
step leaves as it is. -/
theorem livelock_of_exec {iw : Word} (hr : s.runState = .running) (hpc : s.pc ≠ 0#32) (hf : s.fetch = some iw)
    (he : exec (decodeWord iw) s = .next t) (ht : t.pc = s.pc) (htr : t.runState = s.runState) (htf : t.fetch = s.fetch)
    (he' : exec (decodeWord iw) t = .next t) : step s = .next t ∧ step t = .next t :=
  ⟨step_of_exec_of_pc_eq hr hpc hf he ht,
    step_of_exec_of_pc_eq (htr.trans hr) (ht ▸ hpc) (htf.trans hf) he' rfl⟩

theorem setPc_pc (s : State) : s.setPc s.pc = s :=
  State.ext_reg (fun r => by rw [State.reg_setPc]; split <;> simp_all [State.reg_pc]) rfl rfl rfl rfl rfl rfl

/-- The offset of a branch to itself is 0 (43_conditional_branch.md R106). -/
theorem branchOffset_self : branchOffset 0xFFFFFE#24 = 0#32 := by decide

/-- A taken branch to itself changes nothing. -/
theorem branch_self {cond : BitVec 4} (h : condHolds cond s.flags = some true) :
    branch cond false 0xFFFFFE#24 s = s := by
  rw [branch_of_condHolds h, branchOffset_self, BitVec.add_zero]
  exact setPc_pc s

/-- STR with Rd = 15 changes one word of memory and nothing else (44_single_data_transfer.md R132). -/
theorem store_pc_of_accessible {ea : Word} (h : s.mem.accessible ea = true) :
    store s Reg.pc ea = { s with mem := s.mem.putWord ea.toNat s.pc } := by
  rw [store_of_accessible Reg.pc h, State.advanceUnlessPc, if_pos rfl, State.reg_pc]

/-- The same store once more finds its own word there. -/
theorem store_store_pc {ea : Word} (hwf : s.mem.wf) (h : s.mem.accessible ea = true) :
    store (store s Reg.pc ea) Reg.pc ea = store s Reg.pc ea := by
  have hagain : (s.mem.putWord ea.toNat s.pc).putWord ea.toNat s.pc = s.mem.putWord ea.toNat s.pc := by
    obtain ⟨-, hcells, -⟩ := Memory.putWord_wf hwf h s.pc
    obtain ⟨-, hcells', -⟩ := hwf
    have hself := Memory.putWord_wordAt hcells ea.toNat
    rwa [Memory.wordAt_putWord_self hcells'] at hself
  rw [store_pc_of_accessible h, store_pc_of_accessible (by rwa [Memory.accessible_putWord])]
  exact congrArg (fun m => { s with mem := m }) hagain

/-- A store of the program counter to another word than its own does not change the fetched word (20_memory.md R47). -/
theorem fetch_store_pc {ea : Word} (hwf : s.mem.wf) (h : s.mem.accessible ea = true) (hne : ea ≠ s.pc) :
    (store s Reg.pc ea).fetch = s.fetch := by
  obtain ⟨-, hcells, -⟩ := hwf
  have hw : s.memWrite ea s.pc = some (store s Reg.pc ea) :=
    (s.memWrite_eq_some_iff _ ea s.pc).2 ⟨h, store_pc_of_accessible h⟩
  have hpc : (store s Reg.pc ea).pc = s.pc := by rw [store_pc_of_accessible h]; rfl
  rw [State.fetch, hpc, State.memRead_of_memWrite hcells hw, if_neg hne.symm, State.fetch]

/-- CMP with bits 15:12 = 15 repeats forever (45_sequencer.md R150). -/
theorem compare_pc_livelock {iw a b : Word} (hr : s.runState = .running) (hpc : s.pc ≠ 0#32) (hf : s.fetch = some iw)
    (he : exec (decodeWord iw) s = .next (compare s Reg.pc a b))
    (he' : exec (decodeWord iw) (compare s Reg.pc a b) = .next (compare s Reg.pc a b)) :
    ∃ t, step s = .next t ∧ t.pc = s.pc ∧ step t = .next t := by
  have hpc' : (compare s Reg.pc a b).pc = s.pc := reg_compare_pc s a b Reg.pc
  have hf' : (compare s Reg.pc a b).fetch = s.fetch := by rw [compare_pc]; rfl
  obtain ⟨hstep, hagain⟩ := livelock_of_exec hr hpc hf he hpc' (compare_runState s _ a b) hf' he'
  exact ⟨_, hstep, hpc', hagain⟩

/-- STR with Rd = 15 to another word than its own repeats forever (45_sequencer.md R150, 44_single_data_transfer.md
R132). -/
theorem store_pc_livelock {iw ea : Word} (hr : s.runState = .running) (hpc : s.pc ≠ 0#32) (hf : s.fetch = some iw)
    (hwf : s.mem.wf) (hacc : s.mem.accessible ea = true) (hne : ea ≠ s.pc)
    (he : exec (decodeWord iw) s = .next (store s Reg.pc ea))
    (he' : exec (decodeWord iw) (store s Reg.pc ea) = .next (store (store s Reg.pc ea) Reg.pc ea)) :
    ∃ t, step s = .next t ∧ t.pc = s.pc ∧ t.mem.wordAt ea.toNat = s.pc ∧ step t = .next t := by
  have ht := store_pc_of_accessible hacc
  have hpc' : (store s Reg.pc ea).pc = s.pc := by rw [ht]; rfl
  have hrun : (store s Reg.pc ea).runState = s.runState := by rw [ht]
  obtain ⟨hword, -⟩ := store_frame Reg.pc hwf hacc
  rw [store_store_pc hwf hacc] at he'
  obtain ⟨hstep, hagain⟩ := livelock_of_exec hr hpc hf he hpc' hrun (fetch_store_pc hwf hacc hne) he'
  exact ⟨_, hstep, hpc', hword, hagain⟩

/-- No register changes by a store of the program counter, so its address is the same the next time. -/
theorem reg_store_pc {ea : Word} (h : s.mem.accessible ea = true) (r : Reg) : (store s Reg.pc ea).reg r = s.reg r := by
  rw [store_pc_of_accessible h]
  rfl

end

/-! ### Results computed from register 15 -/

theorem reg_writeResult_self (s : State) (rd : Reg) (v : Word) : (s.writeResult rd v).reg rd = v := by
  rw [State.reg_writeResult, if_pos rfl]

theorem reg_load_self {s : State} (rd : Reg) {ea : Word} (halign : ea.toNat % 4 = 0) (hmap : s.mem.isMapped ea = true) :
    (load s rd ea).reg rd = s.mem.wordAt ea.toNat := by
  rw [load_of_accessible rd ((s.mem.accessible_iff ea).2 ⟨halign, hmap⟩), reg_writeResult_self]

end Sys2Proof.Machine

namespace Sys2Proof

open Sys2Proof.Machine

/-- Settles O44: by the definition of the numbers. -/
theorem faultCodesAreNumbered : Obligations.FaultCodesAreNumbered := ⟨rfl, rfl, rfl, rfl, rfl⟩

/-- Settles O36: the four bytes are the fetched word, whose decoding is the decoder on bytes. -/
theorem aStepRunsTheDecodedInstruction : Obligations.AStepRunsTheDecodedInstruction := by
  intro s t i hr halign hmap hdec he
  obtain ⟨hi, -⟩ : decodeWord (s.mem.wordAt s.pc.toNat) = i ∧ [] = [] := Prod.mk.inj (Except.ok.inj hdec)
  rw [← hi] at he
  exact step_of_exec hr (fetch_eq_wordAt halign hmap) he

/-- Settles O46: the placed word is mapped and written, so the fetch reads it. -/
theorem aFetchWordIsTheNextInstruction : Obligations.AFetchWordIsTheNextInstruction := by
  intro s w hwf hr halign
  have hf := fetch_withFetchWord w hwf halign
  exact ⟨hf, withFetchWord_mem_wf w hwf halign, step_of_fetch ((withFetchWord_runState w).trans hr) hf⟩

/-- Settles O45: Run takes no step outside Running, so what is left of the fuel changes nothing. -/
theorem aRunThatEndedStaysEnded : Obligations.ARunThatEndedStaysEnded := by
  intro n k s hr
  have hk := State.run_of_not_running hr k
  have hnk : State.run (n + k) s = State.run n s := (run_add n k s).trans hk
  exact ⟨hnk, hk, by rw [hnk, report_of_not_running hr]⟩

/-- Settles O42: each form computes with `x[15]` as it stands, and `x[Rd]` is the result even where Rd is 15. -/
theorem registerFifteenReadsAsTheOwnAddress : Obligations.RegisterFifteenReadsAsTheOwnAddress := by
  refine ⟨fun rd imm8 s => ?addImm, fun rd rn s => ?addReg, fun rd s => ?movReg, ?ldrImm, ?ldrReg⟩
  case addImm => exact ⟨_, exec_addImm rd Reg.pc imm8 s, reg_writeResult_self s rd _⟩
  case addReg => exact ⟨_, exec_addReg rd rn Reg.pc s, reg_writeResult_self s rd _⟩
  case movReg => exact ⟨_, exec_movReg rd Reg.pc s, reg_writeResult_self s rd _⟩
  case ldrImm =>
    rintro rd imm8 s ea rfl halign hmap
    exact ⟨_, exec_ldrImm rd Reg.pc imm8 s, reg_load_self rd halign hmap⟩
  case ldrReg =>
    rintro rd rn shamt s ea rfl halign hmap
    exact ⟨_, exec_ldrReg rd rn Reg.pc shamt s, reg_load_self rd halign hmap⟩

/-- Settles O41: BX pc and the taken branch to itself are writes of the program counter with its own value; after one CMP or
STR of the kind the registers are the same, so the next one writes the flags or the word that are there. -/
theorem livelocksChangeNothing : Obligations.LivelocksChangeNothing := by
  intro s w hinv hr hf
  have hpc := hinv.pc_ne_zero hr
  refine ⟨fun hw => ?bx, fun r hrow hw hholds => ?branch, ?cmp, fun ea hform halign hmap hne => ?str⟩
  case bx =>
    have he : exec (decodeWord w) s = .next s := by rw [hw, exec_bx, State.reg_pc, setPc_pc]
    exact step_of_exec_of_pc_eq hr hpc hf he rfl
  case branch =>
    have hcond : condHolds r.code s.flags = some true := by rw [condHolds_of_mem_branchRowsOf hrow, hholds]
    have he : exec (decodeWord w) s = .next s := by
      rw [hw, exec_plain_of_mem_branchRowsOf hrow, branch_self hcond]
    exact step_of_exec_of_pc_eq hr hpc hf he rfl
  case cmp =>
    obtain ⟨-, -, -, -, -, himm, hreg⟩ := cmpWritesTheFlagsAndNoRegister
    rintro (⟨rn, imm8, hw⟩ | ⟨rn, rm, hw⟩)
    · have he := exec_cmpImm Reg.pc rn imm8 s
      exact compare_pc_livelock hr hpc hf (hw ▸ he) (hw ▸ himm rn imm8 s _ he)
    · have he := exec_cmpReg Reg.pc rn rm s
      exact compare_pc_livelock hr hpc hf (hw ▸ he) (hw ▸ hreg rn rm s _ he)
  case str =>
    have hacc := (s.mem.accessible_iff ea).2 ⟨halign, hmap⟩
    rcases hform with ⟨rn, imm8, hw, rfl⟩ | ⟨rn, rm, shamt, hw, rfl⟩
    · refine store_pc_livelock hr hpc hf hinv.memory hacc hne (by rw [hw, exec_strImm]) ?_
      rw [hw, exec_strImm, reg_store_pc hacc]
    · refine store_pc_livelock hr hpc hf hinv.memory hacc hne (by rw [hw, exec_strReg]) ?_
      rw [hw, exec_strReg, reg_store_pc hacc, reg_store_pc hacc]

end Sys2Proof
end
